-- ==== Sys2Proof/Word.lean ====
section
/-! DEFINITION. The words of the cipher core: a buffer byte, a 32-bit register or command word, and a letter of the
alphabet as its index (R23 of 10_state.md, R100 of 40_common.md). -/
namespace Sys2Proof

/-- One byte of a buffer (R31). -/
abbrev Byte := BitVec 8

/-- `REG_WIDTH` (R6). R23, R52, R70 and R71 write its value out as 32, so it is a constant (log entry 9). -/
abbrev Config.regWidth : Nat := 32

/-- A host-visible register or a command word: `REG_WIDTH` bits (R23, R70). -/
abbrev Word := BitVec Config.regWidth

/-- A letter as its index in the alphabet: A is 0 and Z is 25 (R100). -/
abbrev Letter := Fin 26

end Sys2Proof
end

