-- ==== Sys2Proof/Config.lean ====
section
/-! DEFINITION. What an implementation of the core fixes: its parameters (R6, R7 of 00_scope.md), the address map (R51 of
20_memory.md) and the values the spec leaves free (R67, CORE_BASE of R51). State holds the parameters, so that the machine
runs with any of them; the values R6 chooses stand in Machine/Parameters.lean. `REG_WIDTH` stands in Word.lean. -/
namespace Sys2Proof.Config

/-- Window offset of `KBUF[0]` (R51). -/
abbrev kbufBase : Nat := 0x0100
/-- Window offset of `IBUF[0]` (R51). -/
abbrev ibufBase : Nat := 0x1000
/-- Window offset of `OBUF[0]` (R51). -/
abbrev obufBase : Nat := 0x2000
/-- The register window is 16 KiB (R50). -/
abbrev windowSize : Nat := 0x4000
/-- The first offset past the five registers (R51). -/
abbrev regsEnd : Nat := 0x14

/-- `CORE_BASE`, the place of the window in the host's own address space: left to the platform (R51, R313), so a free
value. -/
opaque coreBase : Nat

/-- The byte that a draw of the unspecified buffer contents gives a window offset (R67: "each such byte as a free
draw"). A free value: nothing is known of it. The first argument says which draw, so that a later reset draws afresh
(R340). -/
opaque drawnByte : Nat → Nat → Byte

/-- `MIDDLE_STEP_MODE` (R206): how far the middle rotor goes when both turnover conditions hold. -/
inductive MiddleStepMode where
  | sum | once
deriving DecidableEq, Repr

/-- The five predefined rotors, selected by the numbers 1 to 5 (R200). -/
inductive RotorId where
  | i | ii | iii | iv | v
deriving DecidableEq, Repr

/-- A rotor: its wiring (the letter at index `i` is entry `i`) and its turnover letter (R200). -/
structure Rotor where
  wiring : List Letter
  turnover : Letter
deriving DecidableEq, Repr

/-- `ROTOR_TABLE`: the five rotors (R200). -/
structure RotorTable where
  i : Rotor
  ii : Rotor
  iii : Rotor
  iv : Rotor
  v : Rotor
deriving DecidableEq, Repr

/-- The parameters of the rotor machine: ROTOR_TABLE, REFLECTOR and MIDDLE_STEP_MODE (R6). -/
structure RotorParams where
  rotors : RotorTable
  reflector : List Letter
  mode : MiddleStepMode
deriving DecidableEq, Repr

/-- The rotor a selector names (R200). -/
def RotorParams.table (P : RotorParams) : RotorId → Rotor
  | .i => P.rotors.i
  | .ii => P.rotors.ii
  | .iii => P.rotors.iii
  | .iv => P.rotors.iv
  | .v => P.rotors.v

/-- The parameters of a core (R6): the sizes of the three buffers, and the rotor machine's. -/
structure Params where
  kbufSize : Nat
  ibufSize : Nat
  obufSize : Nat
  rotor : RotorParams
deriving DecidableEq, Repr

end Sys2Proof.Config
end

