-- ==== Sys2Proof/Machine/RotorTables.lean ====
section
/-! DEFINITION. The tables this spec chooses for the rotor machine: the five rotors (R200 of 43_rotor.md) and the reflector
(R201), letters written as their indices. -/
namespace Sys2Proof.Machine

/-- `ROTOR_TABLE` (R200). -/
def rotorTable : Config.RotorTable where
  -- EKMFLGDQVZNTOWYHXUSPAIBRCJ, turnover Q
  i :=
    ⟨[4, 10, 12, 5, 11, 6, 3, 16, 21, 25, 13, 19, 14, 22, 24, 7, 23, 20, 18, 15, 0, 8, 1, 17, 2, 9],
     16⟩
  -- AJDKSIRUXBLHWTMCQGZNPYFVOE, turnover E
  ii :=
    ⟨[0, 9, 3, 10, 18, 8, 17, 20, 23, 1, 11, 7, 22, 19, 12, 2, 16, 6, 25, 13, 15, 24, 5, 21, 14, 4],
     4⟩
  -- BDFHJLCPRTXVZNYEIWGAKMUSQO, turnover V
  iii :=
    ⟨[1, 3, 5, 7, 9, 11, 2, 15, 17, 19, 23, 21, 25, 13, 24, 4, 8, 22, 6, 0, 10, 12, 20, 18, 16, 14],
     21⟩
  -- ESOVPZJAYQUIRHXLNFTGKDCMWB, turnover J
  iv :=
    ⟨[4, 18, 14, 21, 15, 25, 9, 0, 24, 16, 20, 8, 17, 7, 23, 11, 13, 5, 19, 6, 10, 3, 2, 12, 22, 1],
     9⟩
  -- VZBRGITYUPSDNHLWMXFCQOEKAJ, turnover Z
  v :=
    ⟨[21, 25, 1, 17, 6, 8, 19, 24, 20, 15, 18, 3, 13, 7, 11, 22, 12, 23, 5, 2, 16, 14, 4, 10, 0, 9],
     25⟩

/-- `REFLECTOR`: the letters of `YRUHQSLDPXNGOKMIEBFZCWVJAT` (R201). -/
def reflectorB : List Letter :=
  [24, 17, 20, 7, 16, 18, 11, 3, 15, 23, 13, 6, 14, 10, 12, 8, 4, 1, 5, 25, 2, 22, 21, 9, 0, 19]

end Sys2Proof.Machine
end

