-- ==== Sys2Proof/Machine/Parameters.lean ====
section
/-! DEFINITION. The parameters at the values R6 of 00_scope.md chooses. -/
namespace Sys2Proof.Machine

/-- The rotor machine's: the table of R200, the reflector of R201 and `MIDDLE_STEP_MODE = SUM` (R206). -/
def rotorParams : Config.RotorParams := ⟨rotorTable, reflectorB, .sum⟩

/-- `KBUF_SIZE = 64`, `IBUF_SIZE = 4096`, `OBUF_SIZE = 8192`, and the rotor machine's (R6). -/
def specParams : Config.Params := ⟨64, 4096, 8192, rotorParams⟩

end Sys2Proof.Machine
end

