-- ==== Sys2Proof/Syntax.lean ====
section
/-! DEFINITION. The commands of the core (one constructor for each row of opcode_table.json, R73 of 30_encoding.md), the
registers and buffers of the register window (R23, R31), the host's window accesses (R52, R53 of 20_memory.md), the
statements of a host program (R77, R78) and the turns of the two agents and of reset (R30, R341). -/
namespace Sys2Proof

/-- The sixteen commands (R73). No command carries an operand: operands come from the buffers (R72). -/
inductive Instr where
  | vigEnc | vigDec
  | pfEnc | pfDec
  | hillEnc | hillDec
  | rfEnc | rfDec
  | rtEnc | rtDec
  | rotor
  | desKs | desEnc | desDec | desEncRaw | desDecRaw
deriving DecidableEq, Repr

/-- Every command, in the table's order. -/
def Instr.all : List Instr :=
  [.vigEnc, .vigDec, .pfEnc, .pfDec, .hillEnc, .hillDec, .rfEnc, .rfDec, .rtEnc, .rtDec, .rotor,
   .desKs, .desEnc, .desDec, .desEncRaw, .desDecRaw]

/-- The host-visible registers (R23). -/
inductive Reg where
  | cmd | status | klen | ilen | olen
deriving DecidableEq, Repr

/-- The three buffers (R31). -/
inductive Buf where
  | kbuf | ibuf | obuf
deriving DecidableEq, Repr

/-- A window access by the host, of any width in bits and at any window offset: also the ones R52 does not define, so
that R53 can say what becomes of them. An 8-bit store carries its byte in the low 8 bits of `value`. -/
inductive Access where
  | load (bits offset : Nat)
  | store (bits offset : Nat) (value : Word)
deriving DecidableEq, Repr

/-- Is it a read? -/
def Access.isLoad : Access → Bool
  | .load _ _ => true
  | .store _ _ _ => false

/-- One statement of the host agent's program. The pseudo-statements of R78 whose accesses depend on a value read are
statements of their own; the others are lists of accesses (Machine/HostProgram.lean). -/
inductive HostOp where
  /-- One window access (R77, R79). -/
  | access (a : Access)
  /-- `wait`: read STATUS until bit 0 reads 0 (R78). -/
  | wait
  /-- One round of `copy`: read `OBUF[k]`, then write that byte to `IBUF[k]` (R78). -/
  | copyByte (k : Nat)
  /-- The end of `result`: read OLEN, then `OBUF[k]` for `k = 0 … OLEN−1` (R78). -/
  | readOutput
deriving DecidableEq, Repr

/-- Who moves next (R30, R341): the host agent, the core engine, or the platform asserting reset. -/
inductive Turn where
  | host | engine | reset
deriving DecidableEq, Repr

end Sys2Proof
end

