-- ==== Sys2Proof/Machine/State.lean ====
section
/-! DEFINITION. The state of the machine: the registers, the hidden PENDING register and the buffers of 10_state.md and
20_memory.md, and beside them the model's own plain data for the agents outside the core (the host's program and what it
has read, the schedule, the draw of unspecified bytes). State right after reset, the error codes of R301, and the ways a
step can stop. -/
namespace Sys2Proof.Machine

/-- The buffer bytes written since reset, as (window offset, byte) with the offsets strictly rising. A byte that is not
listed holds the free draw of R67 (Machine/Ops.lean). -/
abbrev Memory := List Host.Cell

/-- The addresses are strictly rising. An unlisted byte reads as a free value that no entry can be compared with, so this
is the whole canonical form (log entry 1). -/
def Memory.wf : Memory → Bool
  | [] => true
  | [_] => true
  | c :: d :: rest => c.1 < d.1 && Memory.wf (d :: rest)

/-- The typed errors that a command can end with (R301). -/
inductive ErrorKind where
  | invalidKey
  | nonInvertibleKey
  | invalidKeyLength
  | invalidConfiguration
  | invalidInputEncoding
  /-- Reserved: no command raises it (R303). -/
  | authenticationFailure
  | illegalCommand
deriving DecidableEq, Repr

/-- What a command rule answers: `Ok(bytes)` or `Err(code)` (R14). -/
abbrev Result := Except ErrorKind (List Byte)

structure State where
  /-- The parameters of the core (R6). No step changes them (log entry 9). -/
  params : Config.Params
  /-- `KLEN` (R26). -/
  klen : Word
  /-- `ILEN` (R27). -/
  ilen : Word
  /-- `OLEN` (R28). -/
  olen : Word
  /-- `STATUS.BUSY` (R25). -/
  busy : Bool
  /-- `STATUS.ERR` (R25). -/
  err : BitVec 4
  /-- `PENDING`, the latched command word, hidden from the host (R29). -/
  pending : Word
  /-- `KBUF`, `IBUF` and `OBUF` (R31): the bytes written since reset. -/
  mem : Memory
  /-- The model's own: which draw of the unspecified buffer bytes is in force (R67, R340). -/
  draws : Nat
  /-- The model's own: what the host agent has still to do, in program order (R61, R77). -/
  host : List HostOp
  /-- The model's own: the values the host's reads returned, oldest first. -/
  observed : List Word
  /-- The model's own: who moves next, as far as it is settled beforehand (R61, R341). -/
  turns : List Turn
deriving DecidableEq, Repr

/-- Why the machine stops. Only the host's accesses stop it, never a command (R318). Every fault is safe: the spec says
the host agent is stuck there, and the model stops as a whole (log entry 7). -/
inductive Fault where
  /-- Raised by a host access of a register with a width other than 32 bits, or of a buffer byte with a width other than
  8 bits (R53). Safe. -/
  | accessWidth
  /-- Raised by a 32-bit host access among the registers at an offset that is not a multiple of 4 (R53). Safe. -/
  | misalignedAccess
  /-- Raised by a host access at an offset the map of R51 does not list (R53). Safe. -/
  | unmappedAccess
  /-- Raised by a host write of `CMD` while `BUSY = 1` (R350). Safe. -/
  | commandWriteWhileBusy
  /-- Raised by a host write of `KLEN`, `ILEN`, `KBUF` or `IBUF` while `BUSY = 1` (R351). Safe. -/
  | operandWriteWhileBusy
  /-- Raised by a host read of `OLEN` or `OBUF` while `BUSY = 1` (R352). Safe. -/
  | resultReadWhileBusy
deriving DecidableEq, Repr

/-- Why the model gives an instruction no meaning. -/
inductive Refusal where
  /-- Raised by an arm of exec whose command has no meaning yet. No arm raises it. Safe. -/
  | notModelled (mnemonic : String)
deriving DecidableEq, Repr

/-- The state after reset (R37, R340). `PENDING` is unspecified there; 0 is the model's choice (log entry 2). Nothing is
listed in memory: every buffer byte is a free draw (R67). The parameters are those R6 chooses. -/
def State.reset : State where
  params := specParams
  klen := 0
  ilen := 0
  olen := 0
  busy := false
  err := 0
  pending := 0
  mem := []
  draws := 0
  host := []
  observed := []
  turns := []

end Sys2Proof.Machine
end

