-- ==== Sys2Proof/Machine/Letters.lean ====
section
/-! DEFINITION. The alphabet and number-theory utilities of 40_common.md, which the letter engines share. -/
namespace Sys2Proof.Machine

/-- `idx(b)`, where `b` is a letter byte; none for every other byte (R101). -/
def letterIndex (b : Byte) : Option Letter :=
  if 0x41 ≤ b.toNat ∧ b.toNat ≤ 0x5A then some (Fin.ofNat 26 (b.toNat - 0x41))
  else if 0x61 ≤ b.toNat ∧ b.toNat ≤ 0x7A then some (Fin.ofNat 26 (b.toNat - 0x61))
  else none

/-- `chr26(i)`: the uppercase ASCII letter of an index (R12, R102). -/
def chr26 (x : Letter) : Byte := BitVec.ofNat 8 (0x41 + x.val)

/-- `Normalize(I)`: the letter bytes in order as their indices, every other byte dropped (R103). -/
def normalize (bytes : List Byte) : List Letter := bytes.filterMap letterIndex

/-- `Letters(xs)` (R112). -/
def letters (xs : List Letter) : List Byte := xs.map chr26

/-- The letter of an exact integer reduced with the Euclidean `mod 26` (R8, R108). -/
def letterOfInt (z : Int) : Letter := Fin.ofNat 26 (z % 26).toNat

/-- The pad letter `X` (R6). -/
def padLetter : Letter := 23

/-- The letters of a byte string in which every byte is a letter byte; none where some byte is not. -/
def lettersOf : List Byte → Option (List Letter)
  | [] => some []
  | b :: bs =>
    match letterIndex b, lettersOf bs with
    | some x, some xs => some (x :: xs)
    | _, _ => none

/-- Euclid's loop of R105, with as many rounds as `fuel` allows. -/
def gcdLoop : Nat → Nat → Nat → Nat
  | 0, a, _ => a
  | fuel + 1, a, b => if b = 0 then a else gcdLoop fuel b (a % b)

/-- `gcd(a, b)` (R105). `b + 1` rounds are enough, since the second number falls in each. -/
def gcd (a b : Nat) : Nat := gcdLoop (b + 1) a b

/-- The loop of the extended Euclidean algorithm in R106, answering `(r0, s0)` at its end. -/
def modInvLoop : Nat → Nat → Nat → Int → Int → Nat × Int
  | 0, r0, _, s0, _ => (r0, s0)
  | fuel + 1, r0, r1, s0, s1 =>
    if r1 = 0 then (r0, s0)
    else modInvLoop fuel r1 (r0 - r0 / r1 * r1) s1 (s0 - ((r0 / r1 : Nat) : Int) * s1)

/-- `ModInv(a, m)` (R106). -/
def modInv (a m : Nat) : Option Nat :=
  match modInvLoop (m + 1) m (a % m) 0 1 with
  | (r0, s0) => if r0 = 1 then some (s0 % (m : Int)).toNat else none

/-- `StripTrailing(s, c)` (R110). -/
def stripTrailing {α : Type} [DecidableEq α] (s : List α) (c : α) : List α :=
  (s.reverse.dropWhile (fun x => decide (x = c))).reverse

/-- `PadTo(s, m, c)` (R111): it adds `(−|s|) mod m` elements. -/
def padTo {α : Type} (s : List α) (m : Nat) (c : α) : List α :=
  s ++ List.replicate ((m - s.length % m) % m) c

/-- The first `count` blocks of `n` elements. -/
def blocks {α : Type} (n : Nat) : Nat → List α → List (List α)
  | 0, _ => []
  | count + 1, l => l.take n :: blocks n count (l.drop n)

/-- Slices of the given lengths, one after the other. -/
def slices {α : Type} : List Nat → List α → List (List α)
  | [], _ => []
  | n :: ns, l => l.take n :: slices ns (l.drop n)

/-- The value, or else the error: `raise` in a command rule (R13, R305). -/
def orRaise {α : Type} (v : Option α) (e : ErrorKind) : Except ErrorKind α :=
  match v with
  | some a => .ok a
  | none => .error e

end Sys2Proof.Machine
end

