-- ==== Sys2Proof/Machine/Flags.lean ====
section
/-! DEFINITION. The flags of the core: `STATUS.BUSY` and `STATUS.ERR` (R22, R25 of 10_state.md), the code of each error
(R301 of 60_exceptions.md) and the STATUS word the host reads. -/
namespace Sys2Proof.Machine

/-- The status code of an error (R301). -/
def errorCode : ErrorKind → BitVec 4
  | .invalidKey => 1
  | .nonInvertibleKey => 2
  | .invalidKeyLength => 3
  | .invalidConfiguration => 4
  | .invalidInputEncoding => 5
  | .authenticationFailure => 6
  | .illegalCommand => 7

/-- The code 0, `OK` (R301). -/
def okCode : BitVec 4 := 0

/-- The value STATUS reads as: `BUSY` in bit 0, `ERR` in bits 11:8, every other bit 0 (R25). -/
def statusWord (s : State) : Word :=
  (BitVec.ofBool s.busy).setWidth Config.regWidth ||| (s.err.setWidth Config.regWidth <<< 8)

/-- A CMD write latches the word and sets BUSY (R22, R24). -/
def latchCommand (w : Word) (s : State) : State := { s with pending := w, busy := true }

/-- The end of a command: ERR and OLEN take the result, BUSY clears (R22, R306). -/
def endCommand (code : BitVec 4) (len : Nat) (s : State) : State :=
  { s with err := code, olen := BitVec.ofNat Config.regWidth len, busy := false }

end Sys2Proof.Machine
end

