-- ==== Sys2Proof/Machine/Ops.lean ====
section
/-! DEFINITION. The operations over memory and registers: reading and writing buffer bytes (R13 of 00_scope.md, R56, R57
and R67 of 20_memory.md), reset (R340 of 70_reset_and_hazards.md), and the two ways a command ends (R305, R306 of
60_exceptions.md). The core has no trap and no return from one (R300, R309): `raiseError` is the whole effect of an
error. -/
namespace Sys2Proof.Machine

/-- The byte written at an address, if one was. -/
def Memory.lookup : Memory → Nat → Option Byte
  | [], _ => none
  | (x, v) :: rest, a => if x = a then some v else Memory.lookup rest a

/-- Write one byte, keeping the addresses rising. -/
def Memory.insert : Memory → Nat → Byte → Memory
  | [], a, b => [(a, b)]
  | (x, v) :: rest, a, b =>
    if a < x then (a, b) :: (x, v) :: rest
    else if a = x then (a, b) :: rest
    else (x, v) :: Memory.insert rest a b

/-- Write bytes at consecutive addresses. -/
def Memory.insertBytes : Memory → Nat → List Byte → Memory
  | m, _, [] => m
  | m, a, b :: bs => Memory.insertBytes (Memory.insert m a b) (a + 1) bs

/-- The byte at a window offset: the one written there, or else the free draw (R67). -/
def State.readByte (s : State) (a : Nat) : Byte :=
  match s.mem.lookup a with
  | some b => b
  | none => Config.drawnByte s.draws a

/-- Store one byte at a window offset. -/
def State.writeByte (s : State) (a : Nat) (b : Byte) : State := { s with mem := s.mem.insert a b }

/-- The window offset of byte 0 of a buffer (R51). -/
abbrev bufBase : Buf → Nat
  | .kbuf => Config.kbufBase
  | .ibuf => Config.ibufBase
  | .obuf => Config.obufBase

/-- The size of a buffer in bytes (R31). -/
abbrev bufSize (P : Config.Params) : Buf → Nat
  | .kbuf => P.kbufSize
  | .ibuf => P.ibufSize
  | .obuf => P.obufSize

/-- `MemRead(space, addr, n)` (R13). -/
def memRead (b : Buf) (addr n : Nat) (s : State) : List Byte :=
  (List.range n).map fun i => s.readByte (bufBase b + addr + i)

/-- `MemWrite(space, addr, n, v)` with `n = |v|` (R13). -/
def memWrite (b : Buf) (addr : Nat) (bytes : List Byte) (s : State) : State :=
  { s with mem := s.mem.insertBytes (bufBase b + addr) bytes }

/-- A command ends with `Ok(out)`: `OBUF[0..|out|)` takes the output, OLEN its length, ERR 0, and BUSY clears (R57,
R306). -/
def finishOk (out : List Byte) (s : State) : State :=
  endCommand okCode out.length (memWrite .obuf 0 out s)

/-- A command ends with an error: ERR takes its code, OLEN 0, BUSY clears, and nothing else changes (R305, R308). -/
def raiseError (e : ErrorKind) (s : State) : State := endCommand (errorCode e) 0 s

/-- The end of a command, from what its command rule answered (R306). -/
def finishCommand (r : Result) (s : State) : State :=
  match r with
  | .ok out => finishOk out s
  | .error e => raiseError e s

/-- Reset (R340): the registers take their reset values and the buffer bytes are drawn afresh. The parameters and the
agents outside the core are not touched. -/
def resetCore (s : State) : State :=
  { State.reset with
    params := s.params, draws := s.draws + 1, host := s.host, observed := s.observed, turns := s.turns }

end Sys2Proof.Machine
end

