-- ==== Sys2Proof/Machine/Operands.lean ====
section
/-! DEFINITION. The operands of the commands: the snapshot of the key and input strings (R56 of 20_memory.md), the length
checks of R74, and every key layout of R80 of 30_encoding.md with its validation. -/
namespace Sys2Proof.Machine

/-- `K = MemRead(KBUF, 0, KLEN)` (R56). -/
def keyString (s : State) : List Byte := memRead .kbuf 0 s.klen.toNat s

/-- `I = MemRead(IBUF, 0, ILEN)` (R56). -/
def inputString (s : State) : List Byte := memRead .ibuf 0 s.ilen.toNat s

/-- Checks 3 and 4 of R74 pass: `KLEN ≤ KBUF_SIZE` and `ILEN ≤ IBUF_SIZE`. -/
def lengthsLegal (s : State) : Bool :=
  decide (s.klen.toNat ≤ s.params.kbufSize) && decide (s.ilen.toNat ≤ s.params.ibufSize)

/-- `Keyword(K)` (R104). -/
def keyword (K : List Byte) : Except ErrorKind (List Letter) :=
  if K = [] then .error .invalidKey else orRaise (lettersOf K) .invalidKey

/-- A Hill key: the size `n` and the matrix `HK`, row by row (R138). -/
structure HillMatrix where
  n : Nat
  rows : List (List Letter)
deriving DecidableEq, Repr

/-- `HillKey(K)` (R138). -/
def hillKey (K : List Byte) : Except ErrorKind HillMatrix :=
  match K with
  | [] => .error .invalidKey
  | n0 :: entries =>
    let n := n0.toNat
    if (n = 2 ∨ n = 3) ∧ entries.length = n * n then
      .ok ⟨n, (blocks n n entries).map fun row => row.map fun b => letterOfInt b.toNat⟩
    else .error .invalidKey

/-- `RailKey(K)` (R171). -/
def railKey (K : List Byte) : Except ErrorKind Nat :=
  match K with
  | [b] => if b.toNat < 2 then .error .invalidKey else .ok b.toNat
  | _ => .error .invalidKey

/-- Three values, one for each rotor slot (R6: ROTOR_SLOTS). -/
structure Slots (α : Type) where
  left : α
  middle : α
  right : α
deriving DecidableEq, Repr

/-- The rotor machine's settings: `SEL`, the initial `POS` and `PLUG` (R34). -/
structure RotorSettings where
  sel : Slots Config.RotorId
  pos : Slots Letter
  plug : List Letter
deriving DecidableEq, Repr

/-- A selector byte 1 to 5 (R202). -/
def rotorIdOf (b : Byte) : Option Config.RotorId :=
  match b.toNat with
  | 1 => some .i
  | 2 => some .ii
  | 3 => some .iii
  | 4 => some .iv
  | 5 => some .v
  | _ => none

/-- The plugboard map with no pair: every letter maps to itself (R204). -/
def plugIdentity : List Letter := List.finRange 26

/-- Split at byte 0x20, empty tokens included (R204). -/
def splitAtSpaces : List Byte → List (List Byte)
  | [] => [[]]
  | b :: bs =>
    if b = 0x20#8 then [] :: splitAtSpaces bs
    else match splitAtSpaces bs with
      | [] => [[b]]
      | t :: ts => (b :: t) :: ts

/-- The pairs of the tokens, in order, put into the plugboard map; `used` are the letters already paired (R204). -/
def plugPairs : List (List Byte) → List Letter → List Letter → Except ErrorKind (List Letter)
  | [], plug, _ => .ok plug
  | t :: ts, plug, used =>
    match lettersOf t with
    | some [a, b] =>
      if a = b ∨ a ∈ used ∨ b ∈ used then .error .invalidConfiguration
      else plugPairs ts ((plug.set a.val b).set b.val a) (a :: b :: used)
    | _ => .error .invalidConfiguration

/-- `Plugboard(T)` (R204). -/
def plugboard (T : List Byte) : Except ErrorKind (List Letter) :=
  plugPairs ((splitAtSpaces T).filter fun t => !t.isEmpty) plugIdentity []

/-- `RotorConfig(K)` (R202, R203, R205): the length, then the selectors, then the positions, then the plugboard. -/
def rotorConfig (K : List Byte) : Except ErrorKind RotorSettings :=
  match K with
  | k0 :: k1 :: k2 :: k3 :: k4 :: k5 :: plugText => do
    let l ← orRaise (rotorIdOf k0) .invalidConfiguration
    let m ← orRaise (rotorIdOf k1) .invalidConfiguration
    let r ← orRaise (rotorIdOf k2) .invalidConfiguration
    let pl ← orRaise (letterIndex k3) .invalidConfiguration
    let pm ← orRaise (letterIndex k4) .invalidConfiguration
    let pr ← orRaise (letterIndex k5) .invalidConfiguration
    let plug ← plugboard plugText
    .ok ⟨⟨l, m, r⟩, ⟨pl, pm, pr⟩, plug⟩
  | _ => .error .invalidConfiguration

/-- A representable DES text character: a byte at most 0x7F (R250). -/
def isAscii (b : Byte) : Bool := decide (b.toNat ≤ 0x7F)

/-- `s[0] ∥ s[1] ∥ …`: the bytes of a block with the first the most significant (R55). -/
def blockOfBytes (s : List Byte) : BitVec 64 :=
  BitVec.ofNat 64 (s.foldl (fun acc b => acc * 256 + b.toNat) 0)

/-- The `n` bytes of a value, most significant first (R55; `bytes6` and `bytes8` of R255, R256). -/
def bytesOfBlock {w : Nat} (n : Nat) (v : BitVec w) : List Byte :=
  (List.range n).map fun i => v.extractLsb' (8 * (n - 1 - i)) 8

/-- The checks of `DesKey(K, ascii)` and the 64-bit key they let through (R254). -/
def desKey (K : List Byte) (ascii : Bool) : Except ErrorKind (BitVec 64) :=
  if K.length ≠ 8 then .error .invalidKeyLength
  else if ascii && !K.all isAscii then .error .invalidInputEncoding
  else .ok (blockOfBytes K)

/-- `DesPad(T)` (R253). -/
def desPad (T : List Byte) : List Byte := padTo T 8 0x20#8

end Sys2Proof.Machine
end

