-- ==== Sys2Proof/Machine/Command.lean ====
section
/-! DEFINITION. The core engine step for a command word that decodes (R306 of 60_exceptions.md): the length checks of R74,
the snapshot of R56, the command rule, and the end of the command. Every command's meaning is one call of it. -/
namespace Sys2Proof.Machine

/-- The core engine's step for one command, from its command rule `Cmd_OP(K, I)` (R14, R306). -/
def runCommand (cmd : List Byte → List Byte → Result) (s : State) : Host.Outcome State Fault Refusal :=
  if lengthsLegal s then .next (finishCommand (cmd (keyString s) (inputString s)) s)
  else .next (raiseError .illegalCommand s)

/-- The core engine's step for a word that is no command (R74, checks 1 and 2; R75). -/
def runIllegal (s : State) : Host.Outcome State Fault Refusal := .next (raiseError .illegalCommand s)

end Sys2Proof.Machine
end

