-- ==== Sys2Proof/Machine/Des.lean ====
section
/-! DEFINITION. The DES commands (R248 to R259 of 44_des.md). The key and text framing is in Machine/Operands.lean, the
tables in Machine/DesTables.lean. -/
namespace Sys2Proof.Machine

/-- Bit `⟨i⟩` of a DES value, counted from 1 at the most significant (R10). -/
def desBit {w : Nat} (v : BitVec w) (i : Nat) : Nat := if v.getMsbD (i - 1) then 1 else 0

/-- `Permute(T, n, v)` with `|T| = m` (R10). -/
def permute {n : Nat} (m : Nat) (T : List Nat) (v : BitVec n) : BitVec m :=
  BitVec.ofNat m (T.foldl (fun acc i => acc * 2 + desBit v i) 0)

/-- The rounds of `KeySchedule`: rotate both halves, then PC-2 (R248). -/
def keyRounds : List Nat → BitVec 28 → BitVec 28 → List (BitVec 48)
  | [], _, _ => []
  | sh :: rest, C, D =>
    permute 48 tablePC2 (C.rotateLeft sh ++ D.rotateLeft sh) :: keyRounds rest (C.rotateLeft sh) (D.rotateLeft sh)

/-- `KeySchedule(k)`: the round keys 1 to 16 (R248). -/
def keySchedule (k : BitVec 64) : List (BitVec 48) :=
  let CD : BitVec 56 := permute 56 tablePC1 k
  keyRounds shiftSchedule (CD.extractLsb' 28 28) (CD.extractLsb' 0 28)

/-- `Sg[row][col]` for group `g` counted from 0 (R246). -/
def sBox (g row col : Nat) : Nat := ((sBoxes.getD g []).getD row []).getD col 0

/-- The 4-bit value of one 6-bit group: outer bits the row, inner bits the column (R249). -/
def sBoxGroup (g : Nat) (b : BitVec 6) : Nat :=
  sBox g (2 * desBit b 1 + desBit b 6) (8 * desBit b 2 + 4 * desBit b 3 + 2 * desBit b 4 + desBit b 5)

/-- `f(R, Kj)` (R249). Group 0 is the most significant. -/
def feistel (R : BitVec 32) (k : BitVec 48) : BitVec 32 :=
  let x := permute 48 tableE R ^^^ k
  let y := BitVec.ofNat 32
    ((List.range 8).foldl (fun acc g => acc * 16 + sBoxGroup g (x.extractLsb' (42 - 6 * g) 6)) 0)
  permute 32 tableP y

/-- One round: `(L, R) <- (R, L ⊕ f(R, k))` (R251). -/
def desRound (LR : BitVec 32 × BitVec 32) (k : BitVec 48) : BitVec 32 × BitVec 32 :=
  (LR.2, LR.1 ^^^ feistel LR.2 k)

/-- Encryption or decryption (R251). -/
inductive DesDir where
  | enc | dec
deriving DecidableEq, Repr

/-- The round keys in the order of their use: reversed to decrypt (R251). -/
def keysInOrder (dir : DesDir) (RK : List (BitVec 48)) : List (BitVec 48) :=
  match dir with
  | .enc => RK
  | .dec => RK.reverse

/-- `DESBlock(b, RK, dir)` (R251). -/
def desBlock (b : BitVec 64) (RK : List (BitVec 48)) (dir : DesDir) : BitVec 64 :=
  let x : BitVec 64 := permute 64 tableIP b
  let LR := (keysInOrder dir RK).foldl desRound (x.extractLsb' 32 32, x.extractLsb' 0 32)
  permute 64 tableFP (LR.2 ++ LR.1 : BitVec 64)

/-- The blocks of 8 bytes in increasing order, each on its own (R251, R260). -/
def desBlocks (RK : List (BitVec 48)) (dir : DesDir) (T : List Byte) : List Byte :=
  (blocks 8 (T.length / 8) T).flatMap fun b => bytesOfBlock 8 (desBlock (blockOfBytes b) RK dir)

/-- `DES_KS` as a function of its operands (R255). -/
def cmdDesKs (K _I : List Byte) : Result := do
  let k ← desKey K true
  .ok ((keySchedule k).flatMap fun rk => bytesOfBlock 6 rk)

/-- `DES_ENC` as a function of its operands (R256). -/
def cmdDesEnc (K I : List Byte) : Result := do
  let k ← desKey K true
  if I.all isAscii then .ok (desBlocks (keySchedule k) .enc (desPad I)) else .error .invalidInputEncoding

/-- `DES_DEC` as a function of its operands (R257). -/
def cmdDesDec (K I : List Byte) : Result := do
  let k ← desKey K true
  if I.length % 8 = 0 then .ok (stripTrailing (desBlocks (keySchedule k) .dec I) 0x20#8)
  else .error .invalidInputEncoding

/-- `DES_ENC_RAW` as a function of its operands (R258). -/
def cmdDesEncRaw (K I : List Byte) : Result := do
  let k ← desKey K false
  if I.length % 8 = 0 then .ok (desBlocks (keySchedule k) .enc I) else .error .invalidInputEncoding

/-- `DES_DEC_RAW` as a function of its operands (R259). -/
def cmdDesDecRaw (K I : List Byte) : Result := do
  let k ← desKey K false
  if I.length % 8 = 0 then .ok (desBlocks (keySchedule k) .dec I) else .error .invalidInputEncoding

/-- `DES_KS` (R255). -/
def execDesKs (s : State) : Host.Outcome State Fault Refusal := runCommand cmdDesKs s

/-- `DES_ENC` (R256). -/
def execDesEnc (s : State) : Host.Outcome State Fault Refusal := runCommand cmdDesEnc s

/-- `DES_DEC` (R257). -/
def execDesDec (s : State) : Host.Outcome State Fault Refusal := runCommand cmdDesDec s

/-- `DES_ENC_RAW` (R258). -/
def execDesEncRaw (s : State) : Host.Outcome State Fault Refusal := runCommand cmdDesEncRaw s

/-- `DES_DEC_RAW` (R259). -/
def execDesDecRaw (s : State) : Host.Outcome State Fault Refusal := runCommand cmdDesDecRaw s

end Sys2Proof.Machine
end

