-- ==== Sys2Proof/Machine/Hill.lean ====
section
/-! DEFINITION. The Hill commands (R138 to R143 of 41_polyalphabetic.md). Matrices are lists of rows; the key's layout is
in Machine/Operands.lean. -/
namespace Sys2Proof.Machine

/-- The entry in row `r` and column `c` of an integer matrix. -/
def intEntry (M : List (List Int)) (r c : Nat) : Int := (M.getD r []).getD c 0

/-- The entry in row `r` and column `c` of a matrix over the letters. -/
def letterEntry (M : List (List Letter)) (r c : Nat) : Letter := (M.getD r []).getD c 0

/-- The `n × n` matrix with the given entries. -/
def matrixOf {α : Type} (n : Nat) (entry : Nat → Nat → α) : List (List α) :=
  (List.range n).map fun r => (List.range n).map fun c => entry r c

/-- The residues of a matrix as exact integers (R108). -/
def toInts (M : List (List Letter)) : List (List Int) := M.map fun row => row.map fun x => (x.val : Int)

/-- `Det` of a 2×2 matrix (R139). -/
def det2 (M : List (List Int)) : Int := intEntry M 0 0 * intEntry M 1 1 - intEntry M 0 1 * intEntry M 1 0

/-- `Det` of a 3×3 matrix (R139). -/
def det3 (M : List (List Int)) : Int :=
  intEntry M 0 0 * (intEntry M 1 1 * intEntry M 2 2 - intEntry M 1 2 * intEntry M 2 1)
  - intEntry M 0 1 * (intEntry M 1 0 * intEntry M 2 2 - intEntry M 1 2 * intEntry M 2 0)
  + intEntry M 0 2 * (intEntry M 1 0 * intEntry M 2 1 - intEntry M 1 1 * intEntry M 2 0)

/-- `Det` of an `n × n` matrix, `n` being 2 or 3 (R139). -/
def det (n : Nat) (M : List (List Int)) : Int := if n = 2 then det2 M else det3 M

/-- The matrix with row `i` and column `j` removed (R139). -/
def minor (M : List (List Int)) (i j : Nat) : List (List Int) := (M.eraseIdx i).map fun row => row.eraseIdx j

/-- `Cof[i][j]` of a 3×3 matrix (R139). -/
def cofactor (M : List (List Int)) (i j : Nat) : Int := (-1) ^ (i + j) * det2 (minor M i j)

/-- `Adj(M)` of an `n × n` matrix, `n` being 2 or 3 (R139). -/
def adjugate (n : Nat) (M : List (List Int)) : List (List Int) :=
  if n = 2 then [[intEntry M 1 1, -intEntry M 0 1], [-intEntry M 1 0, intEntry M 0 0]]
  else matrixOf 3 fun i j => cofactor M j i

/-- `HillInverse(n, HK)` (R140). -/
def hillInverse (k : HillMatrix) : Except ErrorKind (List (List Letter)) := do
  let M := toInts k.rows
  let dinv ← orRaise (modInv (det k.n M % 26).toNat 26) .nonInvertibleKey
  .ok (matrixOf k.n fun r c => letterOfInt ((dinv : Int) * intEntry (adjugate k.n M) r c))

/-- A row vector times a matrix, mod 26 (R141). -/
def rowTimes (n : Nat) (v : List Letter) (M : List (List Letter)) : List Letter :=
  (List.range n).map fun j =>
    letterOfInt ((List.range n).map fun i => ((v.getD i 0).val : Int) * ((letterEntry M i j).val : Int)).sum

/-- `HillApply(p, M, n)` (R141). -/
def hillApply (p : List Letter) (M : List (List Letter)) (n : Nat) : List Letter :=
  let padded := padTo p n padLetter
  (blocks n (padded.length / n) padded).flatMap fun v => rowTimes n v M

/-- `HILL_ENC` as a function of its operands (R142): the inverse is computed for its check alone. -/
def cmdHillEnc (K I : List Byte) : Result := do
  let k ← hillKey K
  let _ ← hillInverse k
  .ok (letters (hillApply (normalize I) k.rows k.n))

/-- `HILL_DEC` as a function of its operands (R143). -/
def cmdHillDec (K I : List Byte) : Result := do
  let k ← hillKey K
  let inv ← hillInverse k
  .ok (letters (stripTrailing (hillApply (normalize I) inv k.n) padLetter))

/-- `HILL_ENC` (R142). -/
def execHillEnc (s : State) : Host.Outcome State Fault Refusal := runCommand cmdHillEnc s

/-- `HILL_DEC` (R143). -/
def execHillDec (s : State) : Host.Outcome State Fault Refusal := runCommand cmdHillDec s

end Sys2Proof.Machine
end

