-- ==== Sys2Proof/Machine/Playfair.lean ====
section
/-! DEFINITION. The Playfair commands (R133 to R137 of 41_polyalphabetic.md). -/
namespace Sys2Proof.Machine

/-- `J` folded into `I` (R133, R134). -/
def foldJ (x : Letter) : Letter := if x = 9 then 8 else x

/-- Every letter but `J`, in order (R133). -/
def lettersButJ : List Letter := (List.finRange 26).filter fun x => decide (x ≠ 9)

/-- Keep the first copy of each letter, in order, after those already kept (R133). -/
def keepFirst : List Letter → List Letter → List Letter
  | kept, [] => kept
  | kept, x :: xs => if x ∈ kept then keepFirst kept xs else keepFirst (kept ++ [x]) xs

/-- `PfMatrix(k)`: the 5×5 matrix, row after row (R133). -/
def pfMatrix (k : List Letter) : List Letter := keepFirst [] (k.map foldJ ++ lettersButJ)

/-- The digraphs of a letter string with `J` already folded (R134). -/
def splitPairs : List Letter → List (Letter × Letter)
  | [] => []
  | [a] => [(a, padLetter)]
  | a :: b :: rest =>
    if b ≠ a then (a, b) :: splitPairs rest else (a, padLetter) :: splitPairs (b :: rest)

/-- `PfPairs(I)` (R134). -/
def pfPairs (I : List Byte) : List (Letter × Letter) := splitPairs ((normalize I).map foldJ)

/-- The entry of the matrix in row `r` and column `c` (R133). -/
def pfAt (m : List Letter) (r c : Nat) : Letter := m.getD (5 * r + c) 0

/-- `(x + d) mod 5` (R135). -/
def shift5 (x : Nat) (d : Int) : Nat := (((x : Int) + d) % 5).toNat

/-- `PfPair((a, b), d)` (R135): row, then column, then rectangle. -/
def pfPair (m : List Letter) (d : Int) (a b : Letter) : List Letter :=
  let ra := m.idxOf a / 5
  let ca := m.idxOf a % 5
  let rb := m.idxOf b / 5
  let cb := m.idxOf b % 5
  if ra = rb then [pfAt m ra (shift5 ca d), pfAt m rb (shift5 cb d)]
  else if ca = cb then [pfAt m (shift5 ra d) ca, pfAt m (shift5 rb d) cb]
  else [pfAt m ra cb, pfAt m rb ca]

/-- Both Playfair commands but for the direction (R136, R137). -/
def playfair (d : Int) (K I : List Byte) : Result := do
  let k ← keyword K
  .ok (letters ((pfPairs I).flatMap fun ab => pfPair (pfMatrix k) d ab.1 ab.2))

/-- `PF_ENC` as a function of its operands (R136). -/
def cmdPfEnc (K I : List Byte) : Result := playfair 1 K I

/-- `PF_DEC` as a function of its operands (R137). The padding `X` letters stay. -/
def cmdPfDec (K I : List Byte) : Result := playfair (-1) K I

/-- `PF_ENC` (R136). -/
def execPfEnc (s : State) : Host.Outcome State Fault Refusal := runCommand cmdPfEnc s

/-- `PF_DEC` (R137). -/
def execPfDec (s : State) : Host.Outcome State Fault Refusal := runCommand cmdPfDec s

end Sys2Proof.Machine
end

