-- ==== Sys2Proof/Machine/RailFence.lean ====
section
/-! DEFINITION. The Rail Fence commands (R170 to R173 of 42_transposition.md). -/
namespace Sys2Proof.Machine

/-- `Rail(i, r)`: the rail of text position `i` (R170). -/
def rail (i r : Nat) : Nat :=
  let period := 2 * (r - 1)
  let t := i % period
  if t < r then t else period - t

/-- The letters of one rail, in text order (R172). -/
def railLetters (p : List Letter) (r row : Nat) : List Letter :=
  (p.zipIdx.filter fun xi => rail xi.2 r == row).map Prod.fst

/-- The rails from the top to the bottom, one after the other (R172). -/
def railEncrypt (p : List Letter) (r : Nat) : List Letter :=
  (List.range r).flatMap fun row => railLetters p r row

/-- `cnt[row]`: how many of the first `len` positions lie on a rail (R173). -/
def railCount (len r row : Nat) : Nat := ((List.range len).filter fun i => rail i r == row).length

/-- The rail queues: the ciphertext cut into rail-length chunks (R173). -/
def railQueues (c : List Letter) (r : Nat) : List (List Letter) :=
  slices ((List.range r).map fun row => railCount c.length r row) c

/-- The second walk: pop one letter from the queue of each position's rail (R173). No queue runs empty there (log entry
13); an empty one would give nothing. -/
def popRails (r : Nat) : List Nat → List (List Letter) → List Letter
  | [], _ => []
  | i :: is, queues =>
    match queues.getD (rail i r) [] with
    | [] => popRails r is queues
    | x :: q => x :: popRails r is (queues.set (rail i r) q)

/-- The text back from its rails (R173). -/
def railDecrypt (c : List Letter) (r : Nat) : List Letter := popRails r (List.range c.length) (railQueues c r)

/-- `RF_ENC` as a function of its operands (R172). -/
def cmdRfEnc (K I : List Byte) : Result := do
  let r ← railKey K
  .ok (letters (railEncrypt (normalize I) r))

/-- `RF_DEC` as a function of its operands (R173). -/
def cmdRfDec (K I : List Byte) : Result := do
  let r ← railKey K
  .ok (letters (railDecrypt (normalize I) r))

/-- `RF_ENC` (R172). -/
def execRfEnc (s : State) : Host.Outcome State Fault Refusal := runCommand cmdRfEnc s

/-- `RF_DEC` (R173). -/
def execRfDec (s : State) : Host.Outcome State Fault Refusal := runCommand cmdRfDec s

end Sys2Proof.Machine
end

