-- ==== Sys2Proof/Machine/Rotor.lean ====
section
/-! DEFINITION. The rotor machine command (R206 to R210 of 43_rotor.md). Its settings are decoded in
Machine/Operands.lean; its functions take the parameters of R6 as an argument. -/
namespace Sys2Proof.Machine

/-- `Step(POS)` (R206), which runs before each character. Both conditions read the positions before the step. -/
def rotorStep (P : Config.RotorParams) (sel : Slots Config.RotorId) (pos : Slots Letter) : Slots Letter :=
  let mN := decide (pos.middle = (P.table sel.middle).turnover)
  let rN := decide (pos.right = (P.table sel.right).turnover)
  let double : Nat := if mN then 1 else 0
  let turn : Nat := if rN && (decide (P.mode = .sum) || !mN) then 1 else 0
  ⟨letterOfInt (pos.left.val + double), letterOfInt (pos.middle.val + double + turn), letterOfInt (pos.right.val + 1)⟩

/-- One rotor of the forward pass (R207). -/
def rotorForward (w : List Letter) (pos i : Letter) : Letter :=
  let exit := w.getD (((i.val : Int) + pos.val) % 26).toNat 0
  letterOfInt ((exit.val : Int) - pos.val + 26)

/-- One rotor of the backward pass: the preimage of the offset letter (R209). -/
def rotorBackward (w : List Letter) (pos i : Letter) : Letter :=
  let letter := letterOfInt ((i.val : Int) + pos.val)
  letterOfInt ((w.idxOf letter : Int) - pos.val + 26)

/-- `Forward(i)`: the slots from right to left (R207). -/
def forwardPass (P : Config.RotorParams) (sel : Slots Config.RotorId) (pos : Slots Letter) (i : Letter) : Letter :=
  let i := rotorForward (P.table sel.right).wiring pos.right i
  let i := rotorForward (P.table sel.middle).wiring pos.middle i
  rotorForward (P.table sel.left).wiring pos.left i

/-- `Reflect(i)` (R208). -/
def reflect (P : Config.RotorParams) (i : Letter) : Letter := P.reflector.getD i.val 0

/-- `Backward(i)`: the slots from left to right (R209). -/
def backwardPass (P : Config.RotorParams) (sel : Slots Config.RotorId) (pos : Slots Letter) (i : Letter) : Letter :=
  let i := rotorBackward (P.table sel.left).wiring pos.left i
  let i := rotorBackward (P.table sel.middle).wiring pos.middle i
  rotorBackward (P.table sel.right).wiring pos.right i

/-- The plugboard, consulted before and after the rotors (R204, R210). -/
def plugSwap (plug : List Letter) (x : Letter) : Letter := plug.getD x.val 0

/-- The path of one letter with the rotors at their positions after `Step`: parts 2 to 6 of R210. -/
def rotorPath (P : Config.RotorParams) (c : RotorSettings) (pos : Slots Letter) (x : Letter) : Letter :=
  plugSwap c.plug (backwardPass P c.sel pos (reflect P (forwardPass P c.sel pos (plugSwap c.plug x))))

/-- The characters in order, the rotors stepping before each (R210). -/
def rotorRun (P : Config.RotorParams) (c : RotorSettings) : Slots Letter → List Letter → List Letter
  | _, [] => []
  | pos, x :: xs =>
    rotorPath P c (rotorStep P c.sel pos) x :: rotorRun P c (rotorStep P c.sel pos) xs

/-- `ROTOR` as a function of its operands, for any values of the parameters (R210). -/
def cmdRotor (P : Config.RotorParams) (K I : List Byte) : Result := do
  let c ← rotorConfig K
  .ok (letters (rotorRun P c c.pos (normalize I)))

/-- `ROTOR`, with the core's parameters (R6, R210). -/
def execRotor (s : State) : Host.Outcome State Fault Refusal := runCommand (cmdRotor s.params.rotor) s

end Sys2Proof.Machine
end

