-- ==== Sys2Proof/Machine/RowTransposition.lean ====
section
/-! DEFINITION. The Row Transposition commands (R174 to R177 of 42_transposition.md). -/
namespace Sys2Proof.Machine

/-- `(k[a], a) ≤ (k[b], b)` in lexicographic order (R174). -/
def columnLe (k : List Letter) (a b : Nat) : Bool :=
  decide ((k.getD a 0).val < (k.getD b 0).val) || (decide (k.getD a 0 = k.getD b 0) && decide (a ≤ b))

/-- `ColOrder(k)`: the column indices sorted by letter and then by index (R174). -/
def colOrder (k : List Letter) : List Nat :=
  (List.range k.length).insertionSort fun a b => columnLe k a b = true

/-- `rows = ⌈L / m⌉` (R175). -/
def gridRows (len m : Nat) : Nat := (len + m - 1) / m

/-- The columns of the padded grid in the keyword's order (R176). -/
def rowEncrypt (p : List Letter) (k : List Letter) : List Letter :=
  let m := k.length
  let padded := padTo p m padLetter
  (colOrder k).flatMap fun c => (List.range (gridRows p.length m)).map fun row => padded.getD (row * m + c) 0

/-- `len[col]`: a column of the last, short row is one letter shorter (R177). -/
def columnLength (len m col : Nat) : Nat :=
  if len % m = 0 ∨ col < len % m then gridRows len m else gridRows len m - 1

/-- `column[col]` (R177): the slices of the ciphertext, taken in the keyword's order, under their columns. -/
def gridColumns (c : List Letter) (k : List Letter) : List (Nat × List Letter) :=
  (colOrder k).zip (slices ((colOrder k).map fun col => columnLength c.length k.length col) c)

/-- The letters of one column. -/
def columnAt : List (Nat × List Letter) → Nat → List Letter
  | [], _ => []
  | (x, l) :: rest, col => if x = col then l else columnAt rest col

/-- The grid read row by row, leaving out the cells the short last row does not have (R177). -/
def rowDecrypt (c : List Letter) (k : List Letter) : List Letter :=
  let m := k.length
  (List.range (gridRows c.length m)).flatMap fun row =>
    (List.range m).filterMap fun col =>
      if row < columnLength c.length m col then some ((columnAt (gridColumns c k) col).getD row 0) else none

/-- `RT_ENC` as a function of its operands (R176). -/
def cmdRtEnc (K I : List Byte) : Result := do
  let k ← keyword K
  .ok (letters (rowEncrypt (normalize I) k))

/-- `RT_DEC` as a function of its operands (R177). -/
def cmdRtDec (K I : List Byte) : Result := do
  let k ← keyword K
  .ok (letters (stripTrailing (rowDecrypt (normalize I) k) padLetter))

/-- `RT_ENC` (R176). -/
def execRtEnc (s : State) : Host.Outcome State Fault Refusal := runCommand cmdRtEnc s

/-- `RT_DEC` (R177). -/
def execRtDec (s : State) : Host.Outcome State Fault Refusal := runCommand cmdRtDec s

end Sys2Proof.Machine
end

