-- ==== Sys2Proof/Machine/Vigenere.lean ====
section
/-! DEFINITION. The Vigenère commands (R130 to R132 of 41_polyalphabetic.md). -/
namespace Sys2Proof.Machine

/-- `Vig(p, k, s)` (R130). -/
def vig (p k : List Letter) (sign : Int) : List Letter :=
  p.zipIdx.map fun xi => letterOfInt ((xi.1.val : Int) + sign * ((k.getD (xi.2 % k.length) 0).val : Int))

/-- `VIG_ENC` as a function of its operands (R131). -/
def cmdVigEnc (K I : List Byte) : Result := do
  let k ← keyword K
  .ok (letters (vig (normalize I) k 1))

/-- `VIG_DEC` as a function of its operands (R132). -/
def cmdVigDec (K I : List Byte) : Result := do
  let k ← keyword K
  .ok (letters (vig (normalize I) k (-1)))

/-- `VIG_ENC` (R131). -/
def execVigEnc (s : State) : Host.Outcome State Fault Refusal := runCommand cmdVigEnc s

/-- `VIG_DEC` (R132). -/
def execVigDec (s : State) : Host.Outcome State Fault Refusal := runCommand cmdVigDec s

end Sys2Proof.Machine
end

