-- ==== Sys2Proof/Machine/Dispatch.lean ====
section
/-! DEFINITION. The meaning of every command: one arm for each row of opcode_table.json (R73, R306). -/
namespace Sys2Proof.Machine

def exec (i : Instr) (s : State) : Host.Outcome State Fault Refusal :=
  match i with
  | .vigEnc => Sys2Proof.Machine.execVigEnc s
  | .vigDec => Sys2Proof.Machine.execVigDec s
  | .pfEnc => Sys2Proof.Machine.execPfEnc s
  | .pfDec => Sys2Proof.Machine.execPfDec s
  | .hillEnc => Sys2Proof.Machine.execHillEnc s
  | .hillDec => Sys2Proof.Machine.execHillDec s
  | .rfEnc => Sys2Proof.Machine.execRfEnc s
  | .rfDec => Sys2Proof.Machine.execRfDec s
  | .rtEnc => Sys2Proof.Machine.execRtEnc s
  | .rtDec => Sys2Proof.Machine.execRtDec s
  | .rotor => Sys2Proof.Machine.execRotor s
  | .desKs => Sys2Proof.Machine.execDesKs s
  | .desEnc => Sys2Proof.Machine.execDesEnc s
  | .desDec => Sys2Proof.Machine.execDesDec s
  | .desEncRaw => Sys2Proof.Machine.execDesEncRaw s
  | .desDecRaw => Sys2Proof.Machine.execDesDecRaw s

end Sys2Proof.Machine
end

