-- ==== Sys2Proof/WellFormed.lean ====
section
/-! DEFINITION. Well-formedness. A command carries no operand (R72 of 30_encoding.md), so each is well formed; a host
access is well formed when it is one of the two kinds R52 of 20_memory.md defines. -/
namespace Sys2Proof

/-- No operand is encoded in the command word (R72): there is nothing that could be ill formed. -/
def Instr.wellFormed (_ : Instr) : Bool := true

/-- The width of an access in bits. -/
def Access.bits : Access → Nat
  | .load b _ => b
  | .store b _ _ => b

/-- The window offset of an access. -/
def Access.offset : Access → Nat
  | .load _ o => o
  | .store _ o _ => o

/-- The offset lies in one of the buffers (R51). -/
def inBuffers (P : Config.Params) (off : Nat) : Bool :=
  (Config.kbufBase ≤ off && off < Config.kbufBase + P.kbufSize) ||
  (Config.ibufBase ≤ off && off < Config.ibufBase + P.ibufSize) ||
  (Config.obufBase ≤ off && off < Config.obufBase + P.obufSize)

/-- R52: a register-wide access of a register at its exact offset, or an 8-bit access of one buffer byte. -/
def Access.wellFormed (P : Config.Params) (a : Access) : Bool :=
  (a.bits == Config.regWidth && a.offset < Config.regsEnd && a.offset % 4 == 0) ||
    (a.bits == 8 && inBuffers P a.offset)

end Sys2Proof
end

