-- ==== Sys2Proof/Decode.lean ====
section
/-! DEFINITION. Decoding a command word (R70 to R76 of 30_encoding.md), and after it the encoder, both written from the
opcode map of R73. -/
namespace Sys2Proof

/-- Why a command word is no command (R74). -/
inductive DecodeError where
  /-- `w[31:8] ≠ 0` (R74, check 1). -/
  | reservedBits
  /-- `w[7:0]` is not an opcode of R73 (R74, check 2). -/
  | undefinedOpcode
deriving DecidableEq, Repr

/-- `OP = w[7:0]` (R71). -/
def opField (w : Word) : BitVec 8 := w.extractLsb' 0 8

/-- `RSVD = w[31:8]` (R71). -/
def rsvdField (w : Word) : BitVec 24 := w.extractLsb' 8 24

/-- The opcode map (R73). -/
def instrOfOp (op : BitVec 8) : Option Instr :=
  match op.toNat with
  | 0x30 => some .vigEnc
  | 0x31 => some .vigDec
  | 0x32 => some .pfEnc
  | 0x33 => some .pfDec
  | 0x34 => some .hillEnc
  | 0x35 => some .hillDec
  | 0x40 => some .rfEnc
  | 0x41 => some .rfDec
  | 0x42 => some .rtEnc
  | 0x43 => some .rtDec
  | 0x50 => some .rotor
  | 0x60 => some .desKs
  | 0x61 => some .desEnc
  | 0x62 => some .desDec
  | 0x63 => some .desEncRaw
  | 0x64 => some .desDecRaw
  | _ => none

/-- Decode a command word: the checks of R74 on the word, in their order. -/
def decode (w : Word) : Except DecodeError Instr :=
  if rsvdField w ≠ 0 then .error .reservedBits
  else match instrOfOp (opField w) with
    | some i => .ok i
    | none => .error .undefinedOpcode

/-- The opcode of a command (R73). -/
def opOfInstr : Instr → BitVec 8
  | .vigEnc => 0x30
  | .vigDec => 0x31
  | .pfEnc => 0x32
  | .pfDec => 0x33
  | .hillEnc => 0x34
  | .hillDec => 0x35
  | .rfEnc => 0x40
  | .rfDec => 0x41
  | .rtEnc => 0x42
  | .rtDec => 0x43
  | .rotor => 0x50
  | .desKs => 0x60
  | .desEnc => 0x61
  | .desDec => 0x62
  | .desEncRaw => 0x63
  | .desDecRaw => 0x64

/-- Encode a command: its opcode in bits 7:0 and zeros in RSVD (R71). -/
def encode (i : Instr) : Word := (opOfInstr i).setWidth Config.regWidth

/-- The instruction the decoder reads from the bits `w` of a row of `nbits` bits. Every command is one 32-bit word (R70):
bits above `nbits` are 0, and a longer row is no command. -/
def decodeTableWord (nbits w : Nat) : Option Instr :=
  if nbits ≤ Config.regWidth then
    match decode (BitVec.ofNat Config.regWidth (w % 2 ^ nbits)) with
    | .ok i => some i
    | .error _ => none
  else none

end Sys2Proof
end

