-- ==== Sys2Proof/Machine/HostPort.lean ====
section
/-! DEFINITION. The host's accesses to the register window: the address map (R51 of 20_memory.md), which accesses are
defined (R52, R53), what each does (R23 to R28 of 10_state.md, R58, R60), and the hazards while BUSY = 1 (R350 to R353 of
70_reset_and_hazards.md). -/
namespace Sys2Proof.Machine

/-- The window offset of a register (R23). -/
def regOffset : Reg → Nat
  | .cmd => 0x000
  | .status => 0x004
  | .klen => 0x008
  | .ilen => 0x00C
  | .olen => 0x010

/-- The register at an exact offset (R23). -/
def regAt (off : Nat) : Option Reg :=
  if off = 0x000 then some .cmd
  else if off = 0x004 then some .status
  else if off = 0x008 then some .klen
  else if off = 0x00C then some .ilen
  else if off = 0x010 then some .olen
  else none

/-- The buffer that holds a window offset (R51). -/
def bufAt (P : Config.Params) (off : Nat) : Option Buf :=
  if Config.kbufBase ≤ off ∧ off < Config.kbufBase + P.kbufSize then some .kbuf
  else if Config.ibufBase ≤ off ∧ off < Config.ibufBase + P.ibufSize then some .ibuf
  else if Config.obufBase ≤ off ∧ off < Config.obufBase + P.obufSize then some .obuf
  else none

/-- What a defined access reaches: a register, or one byte of a buffer. -/
inductive Target where
  | reg (r : Reg)
  | byte (b : Buf)
deriving DecidableEq, Repr

/-- What an access of `bits` bits at a window offset reaches, or why it has no step (R52, R53; log entry 8). -/
def targetOf (P : Config.Params) (bits off : Nat) : Except Fault Target :=
  if off < Config.regsEnd then
    if bits ≠ Config.regWidth then .error .accessWidth
    else match regAt off with
      | some r => .ok (.reg r)
      | none => .error .misalignedAccess
  else match bufAt P off with
    | some b => if bits ≠ 8 then .error .accessWidth else .ok (.byte b)
    | none => .error .unmappedAccess

/-- The value a host read returns, or the hazard it is (R23, R25 to R28, R58, R352, R353). -/
def hostRead (t : Target) (off : Nat) (s : State) : Except Fault Word :=
  match t with
  | .reg .cmd => .ok 0
  | .reg .status => .ok (statusWord s)
  | .reg .klen => .ok s.klen
  | .reg .ilen => .ok s.ilen
  | .reg .olen => if s.busy then .error .resultReadWhileBusy else .ok s.olen
  | .byte .obuf => if s.busy then .error .resultReadWhileBusy else .ok ((s.readByte off).setWidth Config.regWidth)
  | .byte .kbuf => .ok ((s.readByte off).setWidth Config.regWidth)
  | .byte .ibuf => .ok ((s.readByte off).setWidth Config.regWidth)

/-- The state after a host write, or the hazard it is (R24 to R28, R58, R60, R350, R351, R353). -/
def hostWrite (t : Target) (off : Nat) (v : Word) (s : State) : Except Fault State :=
  match t with
  | .reg .cmd => if s.busy then .error .commandWriteWhileBusy else .ok (latchCommand v s)
  | .reg .status => .ok s
  | .reg .klen => if s.busy then .error .operandWriteWhileBusy else .ok { s with klen := v }
  | .reg .ilen => if s.busy then .error .operandWriteWhileBusy else .ok { s with ilen := v }
  | .reg .olen => .ok s
  | .byte .obuf => .ok s
  | .byte .kbuf => if s.busy then .error .operandWriteWhileBusy else .ok (s.writeByte off (v.setWidth 8))
  | .byte .ibuf => if s.busy then .error .operandWriteWhileBusy else .ok (s.writeByte off (v.setWidth 8))

/-- One host access: the value read, if it is a read, and the state after it (R52, R60). -/
def hostAccess (a : Access) (s : State) : Except Fault (Option Word × State) := do
  match a with
  | .load bits off =>
    let t ← targetOf s.params bits off
    let v ← hostRead t off s
    .ok (some v, s)
  | .store bits off value =>
    let t ← targetOf s.params bits off
    let s' ← hostWrite t off value s
    .ok (none, s')

/-- The host's own address of a window offset (R51: the window is placed at `CORE_BASE`). -/
def hostAddress (off : Nat) : Nat := Config.coreBase + off

/-- The window offset of a host address, if it lies in the window (R50, R51). -/
def windowOffset (addr : Nat) : Option Nat :=
  if Config.coreBase ≤ addr ∧ addr < Config.coreBase + Config.windowSize then some (addr - Config.coreBase) else none

end Sys2Proof.Machine
end

