-- ==== Sys2Proof/Machine/HostProgram.lean ====
section
/-! DEFINITION. The host agent: the statements of R77 to R79 of 30_encoding.md as window accesses, the pseudo-statements of
R78 as programs, and one step of the agent (R30 of 10_state.md, R61 of 20_memory.md). -/
namespace Sys2Proof.Machine

/-- `wr REG, v` (R77, R79). -/
def hostWr (r : Reg) (v : Word) : HostOp := .access (.store Config.regWidth (regOffset r) v)
/-- `rd REG` (R77, R79). -/
def hostRd (r : Reg) : HostOp := .access (.load Config.regWidth (regOffset r))
/-- `wb BUF, k, b` (R77, R79). -/
def hostWb (b : Buf) (k : Nat) (v : Byte) : HostOp := .access (.store 8 (bufBase b + k) (v.setWidth Config.regWidth))
/-- `rb BUF, k` (R77, R79). -/
def hostRb (b : Buf) (k : Nat) : HostOp := .access (.load 8 (bufBase b + k))

/-- `wbs BUF, k, "s"` (R78). -/
def hostWbs (b : Buf) (k : Nat) (bytes : List Byte) : List HostOp :=
  bytes.zipIdx.map fun vi => hostWb b (k + vi.2) vi.1
/-- `key "s"` (R78). -/
def hostKey (bytes : List Byte) : List HostOp :=
  hostWbs .kbuf 0 bytes ++ [hostWr .klen (BitVec.ofNat Config.regWidth bytes.length)]
/-- `input "s"` (R78). -/
def hostInput (bytes : List Byte) : List HostOp :=
  hostWbs .ibuf 0 bytes ++ [hostWr .ilen (BitVec.ofNat Config.regWidth bytes.length)]
/-- `cmd MNEMONIC` (R78). -/
def hostCmd (i : Instr) : List HostOp := [hostWr .cmd (encode i)]
/-- `run MNEMONIC` (R78). -/
def hostRun (i : Instr) : List HostOp := hostCmd i ++ [.wait]
/-- `result` (R78). -/
def hostResult : List HostOp := [hostRd .status, .readOutput]
/-- `copy n` (R78). -/
def hostCopy (n : Nat) : List HostOp := (List.range n).map HostOp.copyByte ++ [hostWr .ilen (BitVec.ofNat Config.regWidth n)]

/-- The access a statement makes first (R78, R79). -/
def firstAccess : HostOp → Access
  | .access a => a
  | .wait => .load Config.regWidth (regOffset .status)
  | .copyByte k => .load 8 (bufBase .obuf + k)
  | .readOutput => .load Config.regWidth (regOffset .olen)

/-- What a statement has still to do after its first access read the value `v` (R78). -/
def afterRead (op : HostOp) (v : Word) : List HostOp :=
  match op with
  | .access _ => []
  | .wait => if v.getLsbD 0 then [.wait] else []
  | .copyByte k => [.access (.store 8 (bufBase .ibuf + k) v)]
  | .readOutput => (List.range v.toNat).map fun k => hostRb .obuf k

/-- One access of the host agent, the next in its program order (R61). With nothing left to do it stays as it is. -/
def hostTurn (s : State) : Host.Outcome State Fault Refusal :=
  match s.host with
  | [] => .next s
  | op :: rest =>
    match hostAccess (firstAccess op) s with
    | .error f => .fault f
    | .ok (some v, s') => .next { s' with host := afterRead op v ++ rest, observed := s'.observed ++ [v] }
    | .ok (none, s') => .next { s' with host := rest }

end Sys2Proof.Machine
end

