-- ==== Sys2Proof/Machine/Fetch.lean ====
section
/-! DEFINITION. The turns of the machine: the core engine's step on the pending command word (R306 of 60_exceptions.md),
who moves next (R61 of 20_memory.md, R341 and R356 of 70_reset_and_hazards.md), and one transition. Step.lean only names
it. -/
namespace Sys2Proof.Machine

/-- `CoreStep()` on `PENDING` (R306): the command it decodes to, or the end of an illegal command. -/
def coreStep (s : State) : Host.Outcome State Fault Refusal :=
  match decode s.pending with
  | .ok i => exec i s
  | .error _ => runIllegal s

/-- The engine's turn: its step is enabled iff `BUSY = 1` (R306). With nothing pending nothing happens. -/
def engineTurn (s : State) : Host.Outcome State Fault Refusal :=
  if s.busy then coreStep s else .next s

/-- One transition of the total order of host accesses, engine steps and resets (R61, R341). Where the schedule says
nothing more, a busy engine moves first, so that it always moves in the end (R356; log entry 5). -/
def transition (s : State) : Host.Outcome State Fault Refusal :=
  match s.turns with
  | [] => if s.busy then coreStep s else hostTurn s
  | .engine :: rest => engineTurn { s with turns := rest }
  | .host :: rest => hostTurn { s with turns := rest }
  | .reset :: rest => .next (resetCore { s with turns := rest })

/-- `w`, read as a row of `nbits` bits, pending for the very next step: the state in which the host has written that word
to CMD and the engine moves next (log entry 6). -/
def pendWord (s : State) (nbits w : Nat) : State :=
  { s with pending := BitVec.ofNat Config.regWidth (w % 2 ^ nbits), busy := true, turns := .engine :: s.turns }

end Sys2Proof.Machine
end

