-- ==== Sys2Proof/Machine/Step.lean ====
section
/-! DEFINITION. One step of the machine, and a command word placed where the next step takes it from. -/
namespace Sys2Proof.Machine

/-- One step: one transition of the total order of R61. -/
def step (s : State) : Host.Outcome State Fault Refusal := transition s

/-- The instruction whose bits are `w`, placed where step takes its next command from: PENDING, with BUSY set and the
engine to move (R24, R29, R306; log entry 6). -/
def State.withFetchWord (s : State) (nbits w : Nat) : State := pendWord s nbits w

end Sys2Proof.Machine
end

