-- ==== Sys2Proof/Safety.lean ====
section
/-! DEFINITION. The terms that claims about the machine use: what a command that completes or fails leaves behind (R57 of
20_memory.md, R305, R306 and R308 of 60_exceptions.md), which accesses are hazards (R350 to R352 of
70_reset_and_hazards.md), which errors each command can raise (R302), what the parameters must be (R7 of 00_scope.md, R200
and R201 of 43_rotor.md), and the invariant that every step keeps. -/
namespace Sys2Proof.Machine

/-- What no command changes: the parameters, the lengths, the latched word, and everything outside the core (R306: "It
writes nothing but `OBUF[0..|out|)`, `OLEN` and `STATUS`"). -/
structure CommandFrame (s t : State) : Prop where
  params : t.params = s.params
  klen : t.klen = s.klen
  ilen : t.ilen = s.ilen
  pending : t.pending = s.pending
  draws : t.draws = s.draws
  host : t.host = s.host
  observed : t.observed = s.observed
  turns : t.turns = s.turns

/-- `t` is `s` after a command that completed with the output `out` (R57, R306). -/
structure CompletedWith (s t : State) (out : List Byte) : Prop where
  fits : out.length ≤ s.params.obufSize
  olen : t.olen.toNat = out.length
  err : t.err = 0
  busy : t.busy = false
  output : ∀ k, k < out.length → t.readByte (0x2000 + k) = out.getD k 0
  others : ∀ a, a < 0x2000 ∨ 0x2000 + out.length ≤ a → t.readByte a = s.readByte a
  frame : CommandFrame s t

/-- `t` is `s` after a command that ended with the error `e` (R305, R308). -/
structure FailedWith (s t : State) (e : ErrorKind) : Prop where
  olen : t.olen = 0
  err : t.err = errorCode e
  busy : t.busy = false
  bytes : ∀ a, t.readByte a = s.readByte a
  frame : CommandFrame s t

/-- The command completes on `s` with the output `out`. -/
def CompletesWith (i : Instr) (s : State) (out : List Byte) : Prop :=
  ∃ t, exec i s = .next t ∧ CompletedWith s t out

/-- The command ends on `s` with the error `e`. -/
def FailsWith (i : Instr) (s : State) (e : ErrorKind) : Prop :=
  ∃ t, exec i s = .next t ∧ FailedWith s t e

/-- `KLEN ≤ KBUF_SIZE` and `ILEN ≤ IBUF_SIZE` (R74). -/
def LegalLengths (s : State) : Prop := s.klen.toNat ≤ s.params.kbufSize ∧ s.ilen.toNat ≤ s.params.ibufSize

/-- The buffer sizes meet the constraints of R7, and each buffer ends before the next begins in the map of R51. -/
structure SizesOk (P : Config.Params) : Prop where
  blocks : P.ibufSize % 8 = 0
  doubled : 2 * P.ibufSize ≤ P.obufSize
  joined : P.ibufSize + P.kbufSize ≤ P.obufSize
  roundKeys : 96 ≤ P.obufSize
  kbufEnds : 0x0100 + P.kbufSize ≤ 0x1000
  ibufEnds : 0x1000 + P.ibufSize ≤ 0x2000
  obufEnds : 0x2000 + P.obufSize ≤ 0x4000

/-- `K` is a keyword: at least one byte, every byte a letter byte (R104). -/
def IsKeyword (K : List Byte) : Prop := K ≠ [] ∧ ∀ b ∈ K, letterIndex b ≠ none

/-- `K` has the layout of a Hill key: `n` is 2 or 3, then `n²` bytes (R138). -/
def HillLayout (K : List Byte) : Prop :=
  ((K.getD 0 0).toNat = 2 ∧ K.length = 5) ∨ ((K.getD 0 0).toNat = 3 ∧ K.length = 10)

/-- The entry of a Hill key byte string in row `r` and column `c`, for size `n` (R138). -/
def hillByte (K : List Byte) (n r c : Nat) : Int := ((K.getD (1 + n * r + c) 0).toNat : Int)

/-- The determinant of a Hill key byte string, in exact integers (R139). -/
def hillDet (K : List Byte) : Int :=
  if (K.getD 0 0).toNat = 2 then hillByte K 2 0 0 * hillByte K 2 1 1 - hillByte K 2 0 1 * hillByte K 2 1 0
  else
    hillByte K 3 0 0 * (hillByte K 3 1 1 * hillByte K 3 2 2 - hillByte K 3 1 2 * hillByte K 3 2 1)
    - hillByte K 3 0 1 * (hillByte K 3 1 0 * hillByte K 3 2 2 - hillByte K 3 1 2 * hillByte K 3 2 0)
    + hillByte K 3 0 2 * (hillByte K 3 1 0 * hillByte K 3 2 1 - hillByte K 3 1 1 * hillByte K 3 2 0)

/-- The unsigned value of a byte string, most significant byte first (R55). -/
def bytesValue : List Byte → Nat
  | [] => 0
  | b :: bs => b.toNat * 256 ^ bs.length + bytesValue bs

/-- The errors each command can raise (R302). -/
def errorsOf : Instr → List ErrorKind
  | .vigEnc | .vigDec | .pfEnc | .pfDec | .rfEnc | .rfDec | .rtEnc | .rtDec => [.invalidKey, .illegalCommand]
  | .hillEnc | .hillDec => [.invalidKey, .nonInvertibleKey, .illegalCommand]
  | .rotor => [.invalidConfiguration, .illegalCommand]
  | .desKs | .desEnc | .desDec | .desEncRaw | .desDecRaw => [.invalidKeyLength, .invalidInputEncoding, .illegalCommand]

/-- The commands of the letter engines (R302). -/
def isLetterCommand : Instr → Bool
  | .vigEnc | .vigDec | .pfEnc | .pfDec | .hillEnc | .hillDec | .rfEnc | .rfDec | .rtEnc | .rtDec | .rotor => true
  | .desKs | .desEnc | .desDec | .desEncRaw | .desDecRaw => false

/-- The hazard a defined access is while `BUSY = 1`, if it is one (R350, R351, R352). -/
def hazardOf (P : Config.Params) : Access → Option Fault
  | .store _ off _ =>
    if off = 0x000 then some .commandWriteWhileBusy
    else if off = 0x008 ∨ off = 0x00C ∨ (0x0100 ≤ off ∧ off < 0x0100 + P.kbufSize) ∨
        (0x1000 ≤ off ∧ off < 0x1000 + P.ibufSize) then
      some .operandWriteWhileBusy
    else none
  | .load _ off =>
    if off = 0x010 ∨ (0x2000 ≤ off ∧ off < 0x2000 + P.obufSize) then some .resultReadWhileBusy else none

/-- A wiring is a bijection on the 26 letters (R200). -/
def IsWiring (w : List Letter) : Prop := w.length = 26 ∧ w.Nodup

/-- The reflector is an involution on the 26 letters (R201). -/
def IsReflector (r : List Letter) : Prop := r.length = 26 ∧ ∀ i : Letter, r.getD (r.getD i.val 0).val 0 = i

/-- The parameters of the rotor machine are what R200 and R201 ask of them. -/
structure RotorParamsOk (P : Config.RotorParams) : Prop where
  wiring : ∀ id, IsWiring (P.table id).wiring
  reflector : IsReflector P.reflector

/-- One rotor of the forward pass takes letter `x` to letter `y` (R207): `exit` is entry `(x + POS) mod 26` of the wiring,
and `y` is `(exit − POS) mod 26`. -/
def ThroughRotor (wiring : List Letter) (pos x y : Letter) : Prop :=
  y.val = ((wiring.getD ((x.val + pos.val) % 26) 0).val + 26 - pos.val) % 26

/-- The pairs spell the text (R134): a letter with the next one where that differs, else the letter with `X`, the next
pair then beginning one letter further on. -/
def PairsSpell : List (Letter × Letter) → List Letter → Prop
  | [], p => p = []
  | (a, b) :: pairs, p =>
    (b ≠ a ∧ ∃ rest, p = a :: b :: rest ∧ PairsSpell pairs rest) ∨
    (b = 23 ∧ ∃ rest, p = a :: rest ∧ (rest = [] ∨ rest.head? = some a) ∧ PairsSpell pairs rest)

/-- `K` holds rotor settings that R202 to R205 accept. -/
structure RotorSettingsOk (K : List Byte) : Prop where
  long : 6 ≤ K.length
  selectors : ∀ j, j < 3 → 1 ≤ (K.getD j 0).toNat ∧ (K.getD j 0).toNat ≤ 5
  positions : ∀ j, j < 3 → letterIndex (K.getD (3 + j) 0) ≠ none
  tokens : ∀ t ∈ (splitAtSpaces (K.drop 6)).filter (fun t => !t.isEmpty),
    t.length = 2 ∧ ∀ b ∈ t, letterIndex b ≠ none
  distinct : (normalize (K.drop 6)).Nodup

/-- The turnover letter of each rotor as a number (R200). -/
def turnoverNumber : Config.RotorId → Nat
  | .i => 16
  | .ii => 4
  | .iii => 21
  | .iv => 9
  | .v => 25

/-- Where the letter at text position `i` stands in a Rail Fence ciphertext of `len` letters: after the letters of the
rails above, and after the earlier letters of its own rail (R172). -/
def railPosition (len r i : Nat) : Nat :=
  ((List.range len).filter fun j => decide (rail j r < rail i r)).length +
    ((List.range i).filter fun j => decide (rail j r = rail i r)).length

/-- Every byte is representable DES text (R250). -/
def AllAscii (s : List Byte) : Prop := ∀ b ∈ s, b.toNat ≤ 0x7F

/-- Block `n` of 8 bytes as a 64-bit value (R55). -/
def blockAt (s : List Byte) (n : Nat) : BitVec 64 := BitVec.ofNat 64 (bytesValue ((s.drop (8 * n)).take 8))

/-- The invariant that every step keeps: parameters that the spec allows; memory in canonical form and listing only buffer
bytes; a status code that R301
lets be written; OLEN within OBUF, and 0 after a failed command (R28). -/
structure Inv (s : State) : Prop where
  sizes : SizesOk s.params
  rotor : RotorParamsOk s.params.rotor
  memWf : s.mem.wf = true
  memMapped : ∀ c ∈ s.mem, inBuffers s.params c.1 = true
  codeDefined : s.err.toNat ≤ 5 ∨ s.err.toNat = 7
  outputFits : s.olen.toNat ≤ s.params.obufSize
  failedEmpty : s.err ≠ 0 → s.olen = 0

end Sys2Proof.Machine
end

