-- ==== Sys2Proof/Certificates/Slice0/Obligations.lean ====
section
/-! DEFINITION. The statements for the provers. Each docstring says which rule of spec/ it formalises, or that it is
derived. `K` below is `keyString s`, `I` is `inputString s` (R56). -/

open Sys2Proof Sys2Proof.Machine

/-! ### Encoding -/

/-- Words written out from the opcode map of R73, and three that are no command (R74, R75). -/
def Obligations.DecodeSampleWords : Prop :=
  decode 0x00000030 = .ok .vigEnc ∧ decode 0x00000033 = .ok .pfDec ∧ decode 0x00000034 = .ok .hillEnc ∧
  decode 0x00000041 = .ok .rfDec ∧ decode 0x00000042 = .ok .rtEnc ∧ decode 0x00000050 = .ok .rotor ∧
  decode 0x00000060 = .ok .desKs ∧ decode 0x00000064 = .ok .desDecRaw ∧
  decode 0x00000036 = .error .undefinedOpcode ∧ decode 0x00000135 = .error .reservedBits ∧
  decode 0x80000034 = .error .reservedBits

/-- A word decodes to a command exactly when it is that command's encoding; a word of 256 or more has RSVD ≠ 0; the rest
are undefined opcodes, 240 of them (R71, R73, R74, R75). -/
def Obligations.DecodeAcceptsExactlyTheTable : Prop :=
  (∀ w : Word, (∀ i, decode w = .ok i ↔ w = encode i) ∧
    (decode w = .error .reservedBits ↔ 256 ≤ w.toNat) ∧
    (decode w = .error .undefinedOpcode ↔ w.toNat < 256 ∧ ∀ i, w ≠ encode i)) ∧
  ((List.range 256).filter fun v =>
    decide (instrOfOp (BitVec.ofNat 8 v) = none)).length = 240

/-! ### The engine step -/

/-- While BUSY = 1 the engine's turn is exec of the command that PENDING decodes to (R306): at the head of the schedule,
where the turn is taken off it, or with nothing scheduled. -/
def Obligations.StepRunsTheDecodedCommand : Prop :=
  ∀ (s : State) (i : Instr), s.busy = true → decode s.pending = .ok i →
    (s.turns = [] → step s = exec i s) ∧
    (∀ rest, s.turns = .engine :: rest → step s = exec i { s with turns := rest })

/-- A pending word that is no command ends with IllegalCommand (R74 checks 1 and 2, R75, R306). -/
def Obligations.IllegalWordEndsWithIllegalCommand : Prop :=
  ∀ (s : State) (rest : List Turn) (e : DecodeError), s.busy = true → decode s.pending = .error e →
    (s.turns = .engine :: rest ∨ (s.turns = [] ∧ rest = [])) →
    ∃ t, step s = .next t ∧ FailedWith { s with turns := rest } t .illegalCommand

/-- Every command ends with IllegalCommand when KLEN or ILEN is beyond its buffer (R74 checks 3 and 4). -/
def Obligations.LengthsBeyondBuffersAreIllegal : Prop :=
  ∀ (i : Instr) (s : State), s.params.kbufSize < s.klen.toNat ∨ s.params.ibufSize < s.ilen.toNat →
    FailsWith i s .illegalCommand

/-- Every command on every state whose buffer sizes R7 allows answers a next state: its output at `OBUF[0..OLEN)` and
nothing else, or one of the errors R302 lists for it and no byte written (R57). -/
def Obligations.CommandEndsInOutputOrItsOwnError : Prop :=
  ∀ (i : Instr) (s : State), SizesOk s.params → (∃ out, CompletesWith i s out) ∨ ∃ e ∈ errorsOf i, FailsWith i s e

/-- A command's result is a function of the lengths, K and I alone (R56): with the same parameters no other state can
change ERR, OLEN or the output bytes. -/
def Obligations.CommandDependsOnlyOnItsSnapshot : Prop :=
  ∀ (i : Instr) (s1 s2 : State), s1.params = s2.params → s1.klen = s2.klen → s1.ilen = s2.ilen →
    keyString s1 = keyString s2 → inputString s1 = inputString s2 →
    ∃ t1 t2, exec i s1 = .next t1 ∧ exec i s2 = .next t2 ∧ t1.err = t2.err ∧ t1.olen = t2.olen ∧
      ∀ k, k < t1.olen.toNat → t1.readByte (0x2000 + k) = t2.readByte (0x2000 + k)

/-- The snapshot: K is KLEN bytes from offset 0x0100 and I is ILEN bytes from offset 0x1000 (R51, R56). -/
def Obligations.SnapshotReadsTheBuffers : Prop :=
  ∀ s : State, (keyString s).length = s.klen.toNat ∧ (inputString s).length = s.ilen.toNat ∧
    (∀ k, k < s.klen.toNat → (keyString s).getD k 0 = s.readByte (0x0100 + k)) ∧
    (∀ k, k < s.ilen.toNat → (inputString s).getD k 0 = s.readByte (0x1000 + k))

/-- No letter command fails because of its text (R302): with the same key, two texts of legal length end with the same
code. -/
def Obligations.LetterCommandErrorsIgnoreTheText : Prop :=
  ∀ (i : Instr) (s1 s2 : State), isLetterCommand i = true → LegalLengths s1 → LegalLengths s2 →
    keyString s1 = keyString s2 →
    ∃ t1 t2, exec i s1 = .next t1 ∧ exec i s2 = .next t2 ∧ t1.err = t2.err

/-- The output-length rules, command by command, and every output within OBUF where the buffer sizes meet R7 (R144, R178,
R212, R262). -/
def Obligations.OutputLengthBounds : Prop :=
  ∀ (P : Config.Params) (K I out : List Byte), SizesOk P →
    (cmdVigEnc K I = .ok out ∨ cmdVigDec K I = .ok out → out.length = (normalize I).length ∧ out.length ≤ I.length) ∧
    (cmdPfEnc K I = .ok out ∨ cmdPfDec K I = .ok out →
      out.length ≤ 2 * (normalize I).length ∧ out.length ≤ 2 * I.length) ∧
    (cmdHillEnc K I = .ok out ∨ cmdHillDec K I = .ok out →
      out.length ≤ (normalize I).length + 2 ∧ out.length ≤ I.length + 2) ∧
    (cmdRfEnc K I = .ok out ∨ cmdRfDec K I = .ok out → out.length = (normalize I).length ∧ out.length ≤ I.length) ∧
    (cmdRtEnc K I = .ok out → out.length ≤ I.length + K.length - 1 ∧
      (K.length ≤ P.kbufSize → I.length ≤ P.ibufSize → out.length ≤ P.ibufSize + P.kbufSize - 1)) ∧
    (cmdRtDec K I = .ok out → out.length ≤ I.length) ∧
    (cmdRotor P.rotor K I = .ok out → out.length = (normalize I).length ∧ out.length ≤ I.length) ∧
    (cmdDesKs K I = .ok out → out.length = 96) ∧
    (cmdDesEnc K I = .ok out → out.length = 8 * ((I.length + 7) / 8) ∧ (I.length ≤ P.ibufSize →
      out.length ≤ P.ibufSize)) ∧
    (cmdDesDec K I = .ok out → out.length ≤ I.length) ∧
    (cmdDesEncRaw K I = .ok out ∨ cmdDesDecRaw K I = .ok out → out.length = I.length) ∧
    (K.length ≤ P.kbufSize → I.length ≤ P.ibufSize →
      (∃ cmd ∈ [cmdVigEnc, cmdVigDec, cmdPfEnc, cmdPfDec, cmdHillEnc, cmdHillDec, cmdRfEnc, cmdRfDec, cmdRtEnc, cmdRtDec,
        cmdRotor P.rotor, cmdDesKs, cmdDesEnc, cmdDesDec, cmdDesEncRaw, cmdDesDecRaw], cmd K I = .ok out) →
      out.length ≤ P.obufSize)

/-! ### Letter utilities -/

/-- Which bytes are letters and what their index is, and that Normalize keeps them in order and drops every other byte
(R101, R103). -/
def Obligations.NormalizeKeepsTheLetterBytes : Prop :=
  (∀ b : Byte,
    (0x41 ≤ b.toNat ∧ b.toNat ≤ 0x5A → (normalize [b]).map (fun x => x.val) = [b.toNat - 0x41]) ∧
    (0x61 ≤ b.toNat ∧ b.toNat ≤ 0x7A → (normalize [b]).map (fun x => x.val) = [b.toNat - 0x61]) ∧
    (b.toNat < 0x41 ∨ (0x5A < b.toNat ∧ b.toNat < 0x61) ∨ 0x7A < b.toNat → normalize [b] = [])) ∧
  ∀ (b : Byte) (bs : List Byte), normalize (b :: bs) = normalize [b] ++ normalize bs

/-- StripTrailing removes every trailing `c` and nothing else; PadTo appends `c`, fewer than `m` times, up to a multiple
of `m` (R110, R111). -/
def Obligations.StripAndPadAtTheEnd : Prop :=
  ∀ (α : Type) [DecidableEq α] (s : List α) (c : α),
    (∃ n, s = stripTrailing s c ++ List.replicate n c) ∧ (stripTrailing s c).getLast? ≠ some c ∧
    ∀ m, 0 < m → ∃ n, n < m ∧ padTo s m c = s ++ List.replicate n c ∧ (padTo s m c).length % m = 0

/-- Euclid's loop computes the greatest common divisor (R105). -/
def Obligations.EuclidComputesTheGcd : Prop :=
  ∀ a b : Nat, Machine.gcd a b = Nat.gcd a b

/-- ModInv(a, 26) is the unique inverse in `[1, 26)` when `gcd(a mod 26, 26) = 1`, and None otherwise (R106). -/
def Obligations.ModInvIsTheUniqueInverse : Prop :=
  ∀ a : Nat,
    (Nat.gcd (a % 26) 26 = 1 → ∃ x, modInv a 26 = some x ∧ 1 ≤ x ∧ x < 26 ∧ a * x % 26 = 1 ∧
      ∀ y, 1 ≤ y → y < 26 → a * y % 26 = 1 → y = x) ∧
    (Nat.gcd (a % 26) 26 ≠ 1 → modInv a 26 = none)

/-! ### Vigenère -/

/-- The six keyword commands end with InvalidKey on an empty keyword or one with a non-letter byte (R104, R302). -/
def Obligations.BadKeywordIsInvalidKey : Prop :=
  ∀ (i : Instr) (s : State), i ∈ [Instr.vigEnc, .vigDec, .pfEnc, .pfDec, .rtEnc, .rtDec] → LegalLengths s →
    ¬IsKeyword (keyString s) → FailsWith i s .invalidKey

/-- VIG_ENC adds and VIG_DEC subtracts the running key, mod 26, over the normalized text (R130 to R132). -/
def Obligations.VigenereAddsTheRunningKey : Prop :=
  ∀ s : State, SizesOk s.params → LegalLengths s → IsKeyword (keyString s) →
    (∃ out, CompletesWith .vigEnc s out ∧ out.length = (normalize (inputString s)).length ∧
      ∀ j, j < out.length → (out.getD j 0).toNat =
        65 + (((normalize (inputString s)).getD j 0).val +
          ((normalize (keyString s)).getD (j % (keyString s).length) 0).val) % 26) ∧
    (∃ out, CompletesWith .vigDec s out ∧ out.length = (normalize (inputString s)).length ∧
      ∀ j, j < out.length → (out.getD j 0).toNat =
        65 + (((normalize (inputString s)).getD j 0).val + 26 -
          ((normalize (keyString s)).getD (j % (keyString s).length) 0).val) % 26)

/-- VIG_DEC undoes VIG_ENC exactly (R132, corner cases). -/
def Obligations.VigenereRoundTrip : Prop :=
  ∀ K I out : List Byte, cmdVigEnc K I = .ok out → cmdVigDec K out = .ok (letters (normalize I))

/-! ### Playfair -/

/-- The matrix holds every letter but J exactly once: first the keyword's letters with J folded into I, then the rest of
the alphabet, each where it first occurs (R133). -/
def Obligations.PlayfairMatrixHoldsEachLetterOnce : Prop :=
  ∀ k : List Letter, (pfMatrix k).length = 25 ∧ (pfMatrix k).Nodup ∧ (9 : Letter) ∉ pfMatrix k ∧
    ∀ x y : Letter, x ≠ 9 → y ≠ 9 →
      ((pfMatrix k).idxOf x < (pfMatrix k).idxOf y ↔
        (k.map (fun z => if z = 9 then (8 : Letter) else z) ++ (List.finRange 26).filter (· ≠ 9)).idxOf x <
          (k.map (fun z => if z = 9 then (8 : Letter) else z) ++ (List.finRange 26).filter (· ≠ 9)).idxOf y)

/-- Which pairs PfPairs makes (R134): they spell the normalized text with J folded into I, each letter with the next one
where that differs, else with X (`PairsSpell`, which no other list of pairs meets). So the only pair of equal letters is
(X, X), and J never occurs in a pair. -/
def Obligations.PlayfairPairsAreEqualOnlyAsXX : Prop :=
  ∀ I : List Byte, PairsSpell (pfPairs I) ((normalize I).map fun x => if x = 9 then 8 else x) ∧
    (∀ pairs, PairsSpell pairs ((normalize I).map fun x => if x = 9 then 8 else x) → pairs = pfPairs I) ∧
    ∀ a b : Letter, (a, b) ∈ pfPairs I → a ≠ 9 ∧ b ≠ 9 ∧ (a = b → a = 23)

/-- The row, column and rectangle cases of PfPair, in this order, by the places of the two letters in the matrix
(R135). -/
def Obligations.PlayfairPairRule : Prop :=
  ∀ (m : List Letter) (ra ca rb cb : Nat), m.length = 25 → m.Nodup → ra < 5 → ca < 5 → rb < 5 → cb < 5 →
    (∀ (d : Int) (u : Nat), (d = 1 ∧ u = 1) ∨ (d = -1 ∧ u = 4) →
      pfPair m d (m.getD (5 * ra + ca) 0) (m.getD (5 * rb + cb) 0) =
        if ra = rb then [m.getD (5 * ra + (ca + u) % 5) 0, m.getD (5 * rb + (cb + u) % 5) 0]
        else if ca = cb then [m.getD (5 * ((ra + u) % 5) + ca) 0, m.getD (5 * ((rb + u) % 5) + cb) 0]
        else [m.getD (5 * ra + cb) 0, m.getD (5 * rb + ca) 0])

/-- PF_ENC and PF_DEC complete on every keyword and text: the pairs in order under the matrix of the keyword, two letters
a pair, and never a J (R136, R137). -/
def Obligations.PlayfairEnciphersThePairs : Prop :=
  ∀ (i : Instr) (d : Int) (s : State), (i = .pfEnc ∧ d = 1) ∨ (i = .pfDec ∧ d = -1) →
    SizesOk s.params → LegalLengths s → IsKeyword (keyString s) →
    ∃ out, CompletesWith i s out ∧
      out = ((pfPairs (inputString s)).flatMap
        fun ab => (pfPair (pfMatrix (normalize (keyString s))) d ab.1 ab.2).map chr26) ∧
      out.length = 2 * (pfPairs (inputString s)).length ∧ 0x4A#8 ∉ out

/-- PF_DEC gives the prepared pairs back where no pair of the ciphertext repeats a letter (R137, corner cases). -/
def Obligations.PlayfairRoundTrip : Prop :=
  ∀ K I out : List Byte, cmdPfEnc K I = .ok out →
    (∀ j, 2 * j + 1 < out.length → out.getD (2 * j) 0 ≠ out.getD (2 * j + 1) 0) →
    cmdPfDec K out = .ok (letters ((pfPairs I).flatMap fun ab => [ab.1, ab.2]))

/-! ### Hill -/

/-- Both Hill commands reject a bad layout with InvalidKey, and a determinant not coprime to 26 with NonInvertibleKey
(R138, R140, R142, R143). -/
def Obligations.HillKeyErrors : Prop :=
  ∀ (i : Instr) (s : State), i = .hillEnc ∨ i = .hillDec → LegalLengths s →
    (¬HillLayout (keyString s) → FailsWith i s .invalidKey) ∧
    (HillLayout (keyString s) → Int.gcd (hillDet (keyString s)) 26 ≠ 1 → FailsWith i s .nonInvertibleKey)

/-- The inverse that HillInverse computes is one: `HK · HKI` is the identity mod 26 (R140). -/
def Obligations.HillInverseIsTheInverse : Prop :=
  ∀ (K : List Byte) (k : HillMatrix) (inv : List (List Letter)), hillKey K = .ok k → hillInverse k = .ok inv →
    ∀ r c, r < k.n → c < k.n →
      ((List.range k.n).map fun j => (letterEntry k.rows r j).val * (letterEntry inv j c).val).sum % 26 =
        if r = c then 1 else 0

/-- HILL_ENC completes on every invertible key: each block of the text, padded with X, is a row vector times the key
matrix mod 26 (R141, R142). -/
def Obligations.HillEncMultipliesRowVectors : Prop :=
  ∀ s : State, SizesOk s.params → LegalLengths s → HillLayout (keyString s) → Int.gcd (hillDet (keyString s)) 26 = 1 →
    ∃ out, CompletesWith .hillEnc s out ∧
      out.length = ((keyString s).getD 0 0).toNat *
        (((normalize (inputString s)).length + ((keyString s).getD 0 0).toNat - 1) / ((keyString s).getD 0 0).toNat) ∧
      ∀ n b j, n = ((keyString s).getD 0 0).toNat → j < n → n * b + j < out.length →
        (out.getD (n * b + j) 0).toNat = 65 + ((List.range n).map fun r =>
          ((normalize (inputString s)).getD (n * b + r) 23).val * ((keyString s).getD (1 + n * r + j) 0).toNat).sum % 26

/-- HILL_DEC completes on every invertible key: the same product with the inverse matrix, every trailing X stripped
(R143). -/
def Obligations.HillDecMultipliesByTheInverse : Prop :=
  ∀ s : State, SizesOk s.params → LegalLengths s → HillLayout (keyString s) → Int.gcd (hillDet (keyString s)) 26 = 1 →
    ∃ k inv q out, hillKey (keyString s) = .ok k ∧ hillInverse k = .ok inv ∧
      CompletesWith .hillDec s out ∧ out = letters (stripTrailing q 23) ∧
      k.n = ((keyString s).getD 0 0).toNat ∧
      q.length = k.n * (((normalize (inputString s)).length + k.n - 1) / k.n) ∧
      ∀ b j, j < k.n → k.n * b + j < q.length →
        (q.getD (k.n * b + j) 0).val = ((List.range k.n).map fun r =>
          ((normalize (inputString s)).getD (k.n * b + r) 23).val * (letterEntry inv r j).val).sum % 26

/-- HILL_DEC undoes HILL_ENC up to trailing X (R143; C5 of 90_conflicts.md). -/
def Obligations.HillRoundTrip : Prop :=
  ∀ K I out : List Byte, cmdHillEnc K I = .ok out →
    cmdHillDec K out = .ok (letters (stripTrailing (normalize I) padLetter))

/-! ### Rail Fence -/

/-- The zig-zag walk: it starts on rail 0, moves by one rail at a time, and turns round at the first and the last rail
and nowhere else (R170). -/
def Obligations.RailWalkIsAZigZag : Prop :=
  ∀ r, 2 ≤ r → rail 0 r = 0 ∧ rail 1 r = 1 ∧ ∀ i, rail i r < r ∧
    (rail (i + 1) r = rail i r + 1 ∨ rail i r = rail (i + 1) r + 1) ∧
    (rail (i + 1) r = 0 ∨ rail (i + 1) r = r - 1 → rail (i + 2) r = rail i r) ∧
    (0 < rail (i + 1) r → rail (i + 1) r < r - 1 → rail (i + 2) r + rail i r = 2 * rail (i + 1) r)

/-- Both Rail Fence commands reject every key that is not one byte of 2 or more (R171). -/
def Obligations.BadRailKeyIsInvalidKey : Prop :=
  ∀ (i : Instr) (s : State), i = .rfEnc ∨ i = .rfDec → LegalLengths s →
    ((keyString s).length ≠ 1 ∨ ((keyString s).getD 0 0).toNat < 2) → FailsWith i s .invalidKey

/-- RF_ENC moves the letter at each text position to its place in the rails read from the top, and RF_DEC moves it back
(R172, R173). -/
def Obligations.RailFenceMovesLetters : Prop :=
  ∀ (s : State) (r : Nat), SizesOk s.params → LegalLengths s → (keyString s).length = 1 →
    ((keyString s).getD 0 0).toNat = r → 2 ≤ r →
    (∃ out, CompletesWith .rfEnc s out ∧ out.length = (normalize (inputString s)).length ∧
      ∀ j, j < out.length → out.getD (railPosition out.length r j) 0 = chr26 ((normalize (inputString s)).getD j 0)) ∧
    (∃ out, CompletesWith .rfDec s out ∧ out.length = (normalize (inputString s)).length ∧
      ∀ j, j < out.length → out.getD j 0 = chr26 ((normalize (inputString s)).getD (railPosition out.length r j) 0))

/-- RF_DEC undoes RF_ENC exactly (R173, corner cases). -/
def Obligations.RailFenceRoundTrip : Prop :=
  ∀ K I out : List Byte, cmdRfEnc K I = .ok out → cmdRfDec K out = .ok (letters (normalize I))

/-! ### Row Transposition -/

/-- ColOrder holds every column once, sorted by the pair of letter and index (R174), with the rule's two examples. -/
def Obligations.ColOrderSortsByLetterThenIndex : Prop :=
  (∀ k : List Letter, (colOrder k).Perm (List.range k.length) ∧
    (colOrder k).Pairwise fun a b =>
      (k.getD a 0).val < (k.getD b 0).val ∨ (k.getD a 0 = k.getD b 0 ∧ a < b)) ∧
  colOrder [25, 4, 1, 17, 0, 18] = [4, 2, 1, 3, 5, 0] ∧ colOrder [1, 0, 0] = [1, 2, 0]

/-- RT_ENC completes on every keyword: the columns of the grid, padded with X, in the keyword's order (R175, R176). -/
def Obligations.RowTranspositionReadsColumns : Prop :=
  ∀ (s : State) (m rows : Nat), SizesOk s.params → LegalLengths s → IsKeyword (keyString s) → m = (keyString s).length →
    rows = ((normalize (inputString s)).length + m - 1) / m →
    ∃ out, CompletesWith .rtEnc s out ∧ out.length = m * rows ∧
      ∀ j row, j < m → row < rows → out.getD (j * rows + row) 0 =
        chr26 ((normalize (inputString s)).getD (row * m + (colOrder (normalize (keyString s))).getD j 0) 23)

/-- RT_DEC completes on every keyword: it puts the slices of the ciphertext back into their columns, the columns from
`L mod m` on being one letter shorter when the grid is not full, and strips every trailing X (R177). -/
def Obligations.RowTranspositionRefillsTheGrid : Prop :=
  ∀ (s : State) (len m rows : Nat) (order : List Nat) (height : Nat → Nat),
    SizesOk s.params → LegalLengths s → IsKeyword (keyString s) → len = (normalize (inputString s)).length →
      m = (keyString s).length →
    rows = (len + m - 1) / m → order = colOrder (normalize (keyString s)) →
    (∀ c, height c = if len % m = 0 ∨ c < len % m then rows else rows - 1) →
    ∃ q out, CompletesWith .rtDec s out ∧ out = letters (stripTrailing q 23) ∧ q.length = len ∧
      ∀ j row, j < m → row < height (order.getD j 0) → q.getD (row * m + order.getD j 0) 0 =
        (normalize (inputString s)).getD (((List.range j).map fun j' => height (order.getD j' 0)).sum + row) 0

/-- RT_DEC undoes RT_ENC up to trailing X (R177, corner cases). -/
def Obligations.RowTranspositionRoundTrip : Prop :=
  ∀ K I out : List Byte, cmdRtEnc K I = .ok out →
    cmdRtDec K out = .ok (stripTrailing (letters (normalize I)) 0x58#8)

/-! ### Rotor machine -/

/-- Step, under SUM and under ONCE: both turnover conditions read the positions before the step (R206); and the turnover
letters of the five rotors (R200). -/
def Obligations.RotorStepRule : Prop :=
  (∀ (P : Config.RotorParams) (sel : Slots Config.RotorId) (pos : Slots Letter) (mN rN : Nat),
    mN = (if pos.middle = (P.table sel.middle).turnover then 1 else 0) →
    rN = (if pos.right = (P.table sel.right).turnover then 1 else 0) →
    (rotorStep P sel pos).left.val = (pos.left.val + mN) % 26 ∧
    (P.mode = .sum → (rotorStep P sel pos).middle.val = (pos.middle.val + mN + rN) % 26) ∧
    (P.mode = .once → (rotorStep P sel pos).middle.val = (pos.middle.val + max mN rN) % 26) ∧
    (rotorStep P sel pos).right.val = (pos.right.val + 1) % 26) ∧
  specParams.rotor.mode = .sum ∧ ∀ id, (specParams.rotor.table id).turnover.val = turnoverNumber id

/-- The plugboard text is accepted exactly when its tokens are pairs of letters and no letter occurs twice; the map then
swaps the letters of each pair and leaves every other letter (R204). -/
def Obligations.PlugboardSwapsItsPairs : Prop :=
  ∀ T : List Byte,
    ((∃ plug, plugboard T = .ok plug) ↔
      (∀ t ∈ (splitAtSpaces T).filter (fun t => !t.isEmpty), t.length = 2 ∧ ∀ b ∈ t, letterIndex b ≠ none) ∧
        (normalize T).Nodup) ∧
    ∀ plug, plugboard T = .ok plug → plug.length = 26 ∧
      (∀ x, plugSwap plug (plugSwap plug x) = x) ∧
      (∀ x, x ∉ normalize T → plugSwap plug x = x) ∧
      (∀ a b x y, [a, b] ∈ splitAtSpaces T → letterIndex a = some x → letterIndex b = some y → plugSwap plug x = y)

/-- ROTOR completes on every setting that R202 to R205 accept: letter `j` takes the path through the rotors after `j + 1`
steps from the positions in the key (R210). On every other setting it ends with InvalidConfiguration (R205). -/
def Obligations.RotorRunsFromItsSettings : Prop :=
  ∀ s : State, SizesOk s.params → LegalLengths s →
    (RotorSettingsOk (keyString s) → ∃ c out, rotorConfig (keyString s) = .ok c ∧
      rotorIdOf ((keyString s).getD 0 0) = some c.sel.left ∧ rotorIdOf ((keyString s).getD 1 0) = some c.sel.middle ∧
      rotorIdOf ((keyString s).getD 2 0) = some c.sel.right ∧ letterIndex ((keyString s).getD 3 0) = some c.pos.left ∧
      letterIndex ((keyString s).getD 4 0) = some c.pos.middle ∧
      letterIndex ((keyString s).getD 5 0) = some c.pos.right ∧ plugboard ((keyString s).drop 6) = .ok c.plug ∧
      CompletesWith .rotor s out ∧ out.length = (normalize (inputString s)).length ∧
      ∀ j, j < out.length → out.getD j 0 = chr26 (rotorPath s.params.rotor c
        ((fun p => rotorStep s.params.rotor c.sel p)^[j + 1] c.pos) ((normalize (inputString s)).getD j 0))) ∧
    (¬RotorSettingsOk (keyString s) → FailsWith .rotor s .invalidConfiguration)

/-- For every table of bijections and every involutive reflector, the spec's among them: Forward goes through the rotors
from right to left, each letter offset by the rotor's position into its wiring and back (R207); Reflect takes the
reflector's entry (R208); Backward is the inverse of Forward (R209); the rotor machine is an involution; and where the
reflector has no fixed point no letter enciphers to itself (R211). -/
def Obligations.RotorMachineIsAnInvolution : Prop :=
  (∀ (P : Config.RotorParams) (sel : Slots Config.RotorId) (pos : Slots Letter) (x : Letter), RotorParamsOk P →
    (∃ y z, ThroughRotor (P.table sel.right).wiring pos.right x y ∧
      ThroughRotor (P.table sel.middle).wiring pos.middle y z ∧
      ThroughRotor (P.table sel.left).wiring pos.left z (forwardPass P sel pos x)) ∧
    reflect P x = P.reflector.getD x.val 0 ∧ reflect P (reflect P x) = x ∧
    backwardPass P sel pos (forwardPass P sel pos x) = x ∧ forwardPass P sel pos (backwardPass P sel pos x) = x) ∧
  (∀ (P : Config.RotorParams) (K I out : List Byte), RotorParamsOk P → cmdRotor P K I = .ok out →
    cmdRotor P K out = .ok (letters (normalize I)) ∧
    (∀ (c : RotorSettings) (pos : Slots Letter) (x : Letter), rotorConfig K = .ok c →
      rotorPath P c pos x =
        plugSwap c.plug (backwardPass P c.sel pos (reflect P (forwardPass P c.sel pos (plugSwap c.plug x)))) ∧
      plugSwap c.plug (plugSwap c.plug x) = x ∧
      rotorPath P c pos (rotorPath P c pos x) = x) ∧
    ((∀ x : Letter, P.reflector.getD x.val 0 ≠ x) →
      ∀ j, j < out.length → out.getD j 0 ≠ chr26 ((normalize I).getD j 0))) ∧
  RotorParamsOk specParams.rotor ∧ ∀ x : Letter, specParams.rotor.reflector.getD x.val 0 ≠ x

/-! ### DES -/

/-- Permute: output bit `k` is the input bit that entry `k` of the table names, counted from 1 at the most significant,
so that bit `⟨k⟩` is bit `n − k` (R10). -/
def Obligations.PermuteTakesTheNamedBits : Prop :=
  ∀ (n m : Nat) (T : List Nat) (v : BitVec n),
    (∀ k, T.length = m → k < m → (permute m T v).getMsbD k = v.getMsbD (T.getD k 0 - 1)) ∧
    ∀ k, 1 ≤ k → k ≤ n → v.getMsbD (k - 1) = v.getLsbD (n - k)

/-- FP undoes IP and IP undoes FP (R241). -/
def Obligations.FinalPermutationInvertsTheInitial : Prop :=
  ∀ v : BitVec 64, permute 64 tableFP (permute 64 tableIP v) = v ∧ permute 64 tableIP (permute 64 tableFP v) = v

/-- KeySchedule gives 16 round keys: round key `j` is PC-2 of the halves of PC-1 rotated left by the first `j` entries of
the schedule together (R248), whose sum is 28 (R247). -/
def Obligations.KeyScheduleRotatesBothHalves : Prop :=
  shiftSchedule.sum = 28 ∧
  ∀ k : BitVec 64, (keySchedule k).length = 16 ∧ ∀ j, j < 16 →
    (keySchedule k).getD j 0 = permute 48 tablePC2
      (((permute 56 tablePC1 k : BitVec 56).extractLsb' 28 28).rotateLeft (shiftSchedule.take (j + 1)).sum ++
        ((permute 56 tablePC1 k : BitVec 56).extractLsb' 0 28).rotateLeft (shiftSchedule.take (j + 1)).sum)

/-- The least significant bit of each key byte does not affect the round keys (R244). -/
def Obligations.KeyParityBitsAreIgnored : Prop :=
  ∀ k1 k2 : BitVec 64, (∀ n, n < 64 → n % 8 ≠ 7 → k1.getMsbD n = k2.getMsbD n) → keySchedule k1 = keySchedule k2

/-- The round function: the eight 6-bit groups of `E(R) ⊕ K`, from the most significant, select row by outer bits and
column by inner bits of their S-boxes, and P permutes the eight results (R249). -/
def Obligations.RoundFunctionLooksUpTheSBoxes : Prop :=
  ∀ (R : BitVec 32) (k : BitVec 48), ∃ y : BitVec 32, feistel R k = permute 32 tableP y ∧
    ∀ g v, g < 8 → v = (permute 48 tableE R ^^^ k : BitVec 48).toNat / 64 ^ (7 - g) % 64 →
      y.toNat / 16 ^ (7 - g) % 16 = sBox g (2 * (v / 32) + v % 2) (v / 2 % 16)

/-- DESBlock: the halves start from IP of the block, each round is `(L, R) <- (R, L ⊕ f(R, k))` with the round keys in order
to encrypt and reversed to decrypt, and the result is FP of the last right half before the last left half (R251). So
decrypting an encrypted block with the same round keys gives the block back, for every block and every list of round keys
(R252). -/
def Obligations.DesBlockRoundTrip : Prop :=
  (∀ (b : BitVec 64) (RK : List (BitVec 48)) (dir : DesDir), ∃ L R : Nat → BitVec 32,
    (L 0 ++ R 0 : BitVec 64) = permute 64 tableIP b ∧
    (∀ j, j < RK.length → L (j + 1) = R j ∧
      R (j + 1) = L j ^^^ feistel (R j) (if dir = .enc then RK.getD j 0 else RK.getD (RK.length - 1 - j) 0)) ∧
    desBlock b RK dir = permute 64 tableFP (R RK.length ++ L RK.length : BitVec 64)) ∧
  ∀ (b : BitVec 64) (RK : List (BitVec 48)), desBlock (desBlock b RK .enc) RK .dec = b

/-- The DES errors in their order: the key's length, then its bytes, then the text (R254 to R259, R307). -/
def Obligations.DesErrorsInOrder : Prop :=
  ∀ s : State, LegalLengths s →
    ((keyString s).length ≠ 8 →
      ∀ i ∈ [Instr.desKs, .desEnc, .desDec, .desEncRaw, .desDecRaw], FailsWith i s .invalidKeyLength) ∧
    ((keyString s).length = 8 →
      (¬AllAscii (keyString s) → ∀ i ∈ [Instr.desKs, .desEnc, .desDec], FailsWith i s .invalidInputEncoding) ∧
      (AllAscii (keyString s) → ¬AllAscii (inputString s) → FailsWith .desEnc s .invalidInputEncoding) ∧
      (AllAscii (keyString s) → (inputString s).length % 8 ≠ 0 → FailsWith .desDec s .invalidInputEncoding) ∧
      ((inputString s).length % 8 ≠ 0 →
        ∀ i ∈ [Instr.desEncRaw, .desDecRaw], FailsWith i s .invalidInputEncoding))

/-- DES_KS completes on every 8-byte ASCII key with the 16 round keys, 6 bytes each, most significant first (R255). -/
def Obligations.DesKsListsTheRoundKeys : Prop :=
  ∀ s : State, SizesOk s.params → LegalLengths s → (keyString s).length = 8 → AllAscii (keyString s) →
    ∃ out, CompletesWith .desKs s out ∧ out.length = 96 ∧
      ∀ j, j < 16 → bytesValue ((out.drop (6 * j)).take 6) =
        ((keySchedule (blockAt (keyString s) 0)).getD j 0).toNat

/-- DES_ENC completes on every 8-byte ASCII key and ASCII text: the text padded with spaces, block by block (R253, R256).
DES_DEC completes on every text of whole blocks: each block decrypted, then every trailing space stripped (R257). -/
def Obligations.DesTextBlocks : Prop :=
  ∀ s : State, SizesOk s.params → LegalLengths s → (keyString s).length = 8 → AllAscii (keyString s) →
    (AllAscii (inputString s) → ∃ out, CompletesWith .desEnc s out ∧
      out.length = 8 * (((inputString s).length + 7) / 8) ∧
      ∀ n, 8 * n < out.length → blockAt out n =
        desBlock (blockAt (inputString s ++ List.replicate 7 0x20#8) n) (keySchedule (blockAt (keyString s) 0)) .enc) ∧
    ((inputString s).length % 8 = 0 → ∃ q out, CompletesWith .desDec s out ∧
      out = stripTrailing q 0x20#8 ∧ q.length = (inputString s).length ∧
      ∀ n, 8 * n < q.length → blockAt q n =
        desBlock (blockAt (inputString s) n) (keySchedule (blockAt (keyString s) 0)) .dec)

/-- The raw commands complete on every 8-byte key and every text of whole blocks, block by block, with no padding and no
stripping (R258, R259). -/
def Obligations.DesRawBlocks : Prop :=
  ∀ (i : Instr) (dir : DesDir) (s : State), (i = .desEncRaw ∧ dir = .enc) ∨ (i = .desDecRaw ∧ dir = .dec) →
    SizesOk s.params → LegalLengths s → (keyString s).length = 8 → (inputString s).length % 8 = 0 →
    ∃ out, CompletesWith i s out ∧ out.length = (inputString s).length ∧
      ∀ n, 8 * n < out.length → blockAt out n =
        desBlock (blockAt (inputString s) n) (keySchedule (blockAt (keyString s) 0)) dir

/-- DES_DEC undoes DES_ENC up to trailing spaces (R261), and DES_DEC_RAW undoes DES_ENC_RAW exactly (R259). -/
def Obligations.DesCommandsRoundTrip : Prop :=
  ∀ K I out : List Byte,
    (cmdDesEnc K I = .ok out → cmdDesDec K out = .ok (stripTrailing I 0x20#8)) ∧
    (cmdDesEncRaw K I = .ok out → cmdDesDecRaw K out = .ok I)

/-! ### The host's side -/

/-- The accesses R52 defines complete while BUSY = 0, and every other access has no step, in any state (R52, R53). -/
def Obligations.OnlyDefinedAccessesHaveAStep : Prop :=
  ∀ (a : Access) (s : State),
    (a.wellFormed s.params = true → s.busy = false → ∃ v s', hostAccess a s = .ok (v, s') ∧ (v.isSome = a.isLoad)) ∧
    (a.wellFormed s.params = false → ∃ f, hostAccess a s = .error f ∧
      (f = .accessWidth ∨ f = .misalignedAccess ∨ f = .unmappedAccess))

/-- While BUSY = 1 a hazard faults, and so does the host's turn that makes it (R350 to R352). Every other defined access
changes nothing and, but for a read of STATUS, returns what it returns while idle; STATUS still shows the previous code
(R353). The rules say that the host agent is stuck; that the machine stops there as a whole, with a fault of its own name,
is the model's choice (log entry 7). -/
def Obligations.HazardsFaultWhileBusy : Prop :=
  ∀ (a : Access) (s : State), SizesOk s.params → a.wellFormed s.params = true → s.busy = true →
    (∀ f, hazardOf s.params a = some f → hostAccess a s = .error f ∧
      ∀ ops rest, s.host = .access a :: ops → s.turns = .host :: rest → step s = .fault f) ∧
    (hazardOf s.params a = none → ∃ v, hostAccess a s = .ok (v, s) ∧
      (a ≠ .load 32 0x004 → hostAccess a { s with busy := false } = .ok (v, { s with busy := false })) ∧
      (a = .load 32 0x004 → ∃ w, v = some w ∧ w.toNat = 1 + s.err.toNat * 256))

/-- What each defined host access returns and changes: the five registers, the bytes of the three buffers (R23 to R28,
R51, R58, R60). STATUS reads in every state as BUSY in bit 0, ERR in bits 11:8 and 0 elsewhere (R25). -/
def Obligations.HostAccessEffects : Prop :=
  (∀ s : State, ∃ v, hostAccess (.load 32 0x004) s = .ok (some v, s) ∧
    v.toNat = (if s.busy then 1 else 0) + s.err.toNat * 256) ∧
  ∀ (s : State) (w : Word) (k : Nat), SizesOk s.params → s.busy = false →
    hostAccess (.load 32 0x000) s = .ok (some 0, s) ∧
    hostAccess (.load 32 0x008) s = .ok (some s.klen, s) ∧
    hostAccess (.load 32 0x00C) s = .ok (some s.ilen, s) ∧
    hostAccess (.load 32 0x010) s = .ok (some s.olen, s) ∧
    hostAccess (.store 32 0x000 w) s = .ok (none, { s with pending := w, busy := true }) ∧
    hostAccess (.store 32 0x004 w) s = .ok (none, s) ∧
    hostAccess (.store 32 0x008 w) s = .ok (none, { s with klen := w }) ∧
    hostAccess (.store 32 0x00C w) s = .ok (none, { s with ilen := w }) ∧
    hostAccess (.store 32 0x010 w) s = .ok (none, s) ∧
    (k < s.params.kbufSize → hostAccess (.load 8 (0x100 + k)) s = .ok (some ((s.readByte (0x100 + k)).setWidth 32), s)) ∧
    (k < s.params.ibufSize →
      hostAccess (.load 8 (0x1000 + k)) s = .ok (some ((s.readByte (0x1000 + k)).setWidth 32), s)) ∧
    (k < s.params.obufSize →
      hostAccess (.load 8 (0x2000 + k)) s = .ok (some ((s.readByte (0x2000 + k)).setWidth 32), s)) ∧
    (k < s.params.obufSize → hostAccess (.store 8 (0x2000 + k) w) s = .ok (none, s)) ∧
    (∀ a, (∃ j, j < s.params.kbufSize ∧ a = 0x100 + j) ∨ (∃ j, j < s.params.ibufSize ∧ a = 0x1000 + j) →
      ∃ t, hostAccess (.store 8 a w) s = .ok (none, t) ∧ t.readByte a = w.setWidth 8 ∧
        (∀ a', a' ≠ a → t.readByte a' = s.readByte a') ∧ CommandFrame s t ∧
        t.busy = s.busy ∧ t.err = s.err ∧ t.olen = s.olen)

/-- A turn of the host writes neither ERR nor OLEN nor a byte of OBUF, never clears BUSY, and sets it only by the CMD
write at the head of its program (R22, R24, R28). -/
def Obligations.HostSetsBusyOnlyByCmd : Prop :=
  ∀ s t : State, SizesOk s.params →
    (s.turns.head? = some .host ∨ (s.turns = [] ∧ s.busy = false)) → step s = .next t →
    t.err = s.err ∧ t.olen = s.olen ∧ (∀ a, 0x2000 ≤ a → t.readByte a = s.readByte a) ∧
    (s.busy = true → t.busy = true) ∧
    (s.busy = false → t.busy = true →
      ∃ w rest, s.host = .access (.store 32 0x000 w) :: rest ∧ t.pending = w ∧ t.host = rest)

/-- PENDING cannot be observed while BUSY = 0 (R29): another word there changes no step but for PENDING itself, and where
the step sets BUSY it has overwritten it. -/
def Obligations.PendingIsUnobservableWhileIdle : Prop :=
  ∀ (s : State) (w : Word), s.busy = false →
    (∀ f, step s = .fault f → step { s with pending := w } = .fault f) ∧
    (∀ t, step s = .next t → ∃ p, step { s with pending := w } = .next { t with pending := p } ∧
      (t.busy = true → p = t.pending))

/-- The command protocol (R78 `run`, R343): with nothing else scheduled, `run` writes CMD, the engine runs the command,
and one read of STATUS ends the wait. -/
def Obligations.RunProtocolEndsWithTheCommandDone : Prop :=
  ∀ (s : State) (i : Instr) (rest : List HostOp), s.busy = false → s.turns = [] → s.host = hostRun i ++ rest →
    ∃ u, exec i { s with pending := encode i, busy := true, host := .wait :: rest } = .next u ∧ u.busy = false ∧
      Host.Core.run core 3 s = .next { u with host := rest, observed := u.observed ++ [statusWord u] }

/-! ### Reset, invariant, progress -/

/-- The values the spec states for reset (R37) and for the parameters (R6), and the invariant holds there. -/
def Obligations.ResetStateMeetsTheInvariant : Prop :=
  State.reset.params.kbufSize = 64 ∧ State.reset.params.ibufSize = 4096 ∧ State.reset.params.obufSize = 8192 ∧
  State.reset.params.rotor.mode = .sum ∧
  letters State.reset.params.rotor.reflector = [0x59, 0x52, 0x55, 0x48, 0x51, 0x53, 0x4C, 0x44, 0x50, 0x58, 0x4E, 0x47,
    0x4F, 0x4B, 0x4D, 0x49, 0x45, 0x42, 0x46, 0x5A, 0x43, 0x57, 0x56, 0x4A, 0x41, 0x54] ∧
  Inv State.reset ∧ statusWord State.reset = 0 ∧ State.reset.klen = 0 ∧ State.reset.ilen = 0 ∧ State.reset.olen = 0

/-- A reset between two transitions discards a pending command and gives every register its reset value (R340, R341). That
the buffer bytes are those of the next draw is the model's way to say "drawn afresh", and that the parameters and the
agents outside the core stay is its choice (log entries 1, 3, 4, 9, 23). -/
def Obligations.ResetDiscardsThePendingCommand : Prop :=
  ∀ (s : State) (rest : List Turn), s.turns = .reset :: rest →
    ∃ t, step s = .next t ∧ t.params = s.params ∧ statusWord t = 0 ∧ t.klen = 0 ∧ t.ilen = 0 ∧ t.olen = 0 ∧
      t.busy = false ∧
      (∀ a, t.readByte a = Config.drawnByte (s.draws + 1) a) ∧ t.host = s.host ∧ t.turns = rest

/-- Every step keeps the invariant: parameters that the spec allows, memory in canonical form over buffer bytes alone, a
status code of R301 other than 6, OLEN within OBUF and 0 after a failed command (R7, R28, R51, R57, R301, R303). -/
def Obligations.StepKeepsTheInvariant : Prop :=
  ∀ s t : State, Inv s → step s = .next t → Inv t

/-- While BUSY = 1, BUSY is 0 in the end, by the engine's step or by a reset that comes first, unless the host faults before
(R341, R356): within as many steps as there are turns scheduled, and one. The finite schedule is the model's way to say
fairness (log entry 5). -/
def Obligations.BusyClearsInTheEnd : Prop :=
  ∀ s : State, s.busy = true →
    ∃ n, n ≤ s.turns.length + 1 ∧
      ((∃ t : State, Host.Core.run core n s = .next t ∧ t.busy = false) ∨
        ∃ f : Fault, Host.Core.run core n s = .fault f)
end

