-- ==== Sys2Proof/Laws/State.lean ====
section
/-! SUPPORT. One lemma per field for each update of the state, so that no later proof unfolds a record update. -/
namespace Sys2Proof.Machine

@[simp] theorem writeByte_params (s : State) (a : Nat) (b : Byte) : (s.writeByte a b).params = s.params := rfl
@[simp] theorem writeByte_klen (s : State) (a : Nat) (b : Byte) : (s.writeByte a b).klen = s.klen := rfl
@[simp] theorem writeByte_ilen (s : State) (a : Nat) (b : Byte) : (s.writeByte a b).ilen = s.ilen := rfl
@[simp] theorem writeByte_olen (s : State) (a : Nat) (b : Byte) : (s.writeByte a b).olen = s.olen := rfl
@[simp] theorem writeByte_busy (s : State) (a : Nat) (b : Byte) : (s.writeByte a b).busy = s.busy := rfl
@[simp] theorem writeByte_err (s : State) (a : Nat) (b : Byte) : (s.writeByte a b).err = s.err := rfl
@[simp] theorem writeByte_pending (s : State) (a : Nat) (b : Byte) : (s.writeByte a b).pending = s.pending := rfl
@[simp] theorem writeByte_mem (s : State) (a : Nat) (b : Byte) : (s.writeByte a b).mem = s.mem.insert a b := rfl
@[simp] theorem writeByte_draws (s : State) (a : Nat) (b : Byte) : (s.writeByte a b).draws = s.draws := rfl
@[simp] theorem writeByte_host (s : State) (a : Nat) (b : Byte) : (s.writeByte a b).host = s.host := rfl
@[simp] theorem writeByte_observed (s : State) (a : Nat) (b : Byte) : (s.writeByte a b).observed = s.observed := rfl
@[simp] theorem writeByte_turns (s : State) (a : Nat) (b : Byte) : (s.writeByte a b).turns = s.turns := rfl

@[simp] theorem memWrite_params (b : Buf) (a : Nat) (l : List Byte) (s : State) :
    (memWrite b a l s).params = s.params := rfl
@[simp] theorem memWrite_klen (b : Buf) (a : Nat) (l : List Byte) (s : State) : (memWrite b a l s).klen = s.klen := rfl
@[simp] theorem memWrite_ilen (b : Buf) (a : Nat) (l : List Byte) (s : State) : (memWrite b a l s).ilen = s.ilen := rfl
@[simp] theorem memWrite_olen (b : Buf) (a : Nat) (l : List Byte) (s : State) : (memWrite b a l s).olen = s.olen := rfl
@[simp] theorem memWrite_busy (b : Buf) (a : Nat) (l : List Byte) (s : State) : (memWrite b a l s).busy = s.busy := rfl
@[simp] theorem memWrite_err (b : Buf) (a : Nat) (l : List Byte) (s : State) : (memWrite b a l s).err = s.err := rfl
@[simp] theorem memWrite_pending (b : Buf) (a : Nat) (l : List Byte) (s : State) :
    (memWrite b a l s).pending = s.pending := rfl
@[simp] theorem memWrite_mem (b : Buf) (a : Nat) (l : List Byte) (s : State) :
    (memWrite b a l s).mem = s.mem.insertBytes (bufBase b + a) l := rfl
@[simp] theorem memWrite_draws (b : Buf) (a : Nat) (l : List Byte) (s : State) :
    (memWrite b a l s).draws = s.draws := rfl
@[simp] theorem memWrite_host (b : Buf) (a : Nat) (l : List Byte) (s : State) : (memWrite b a l s).host = s.host := rfl
@[simp] theorem memWrite_observed (b : Buf) (a : Nat) (l : List Byte) (s : State) :
    (memWrite b a l s).observed = s.observed := rfl
@[simp] theorem memWrite_turns (b : Buf) (a : Nat) (l : List Byte) (s : State) :
    (memWrite b a l s).turns = s.turns := rfl

@[simp] theorem endCommand_params (c : BitVec 4) (n : Nat) (s : State) : (endCommand c n s).params = s.params := rfl
@[simp] theorem endCommand_klen (c : BitVec 4) (n : Nat) (s : State) : (endCommand c n s).klen = s.klen := rfl
@[simp] theorem endCommand_ilen (c : BitVec 4) (n : Nat) (s : State) : (endCommand c n s).ilen = s.ilen := rfl
@[simp] theorem endCommand_olen (c : BitVec 4) (n : Nat) (s : State) :
    (endCommand c n s).olen = BitVec.ofNat Config.regWidth n := rfl
@[simp] theorem endCommand_busy (c : BitVec 4) (n : Nat) (s : State) : (endCommand c n s).busy = false := rfl
@[simp] theorem endCommand_err (c : BitVec 4) (n : Nat) (s : State) : (endCommand c n s).err = c := rfl
@[simp] theorem endCommand_pending (c : BitVec 4) (n : Nat) (s : State) :
    (endCommand c n s).pending = s.pending := rfl
@[simp] theorem endCommand_mem (c : BitVec 4) (n : Nat) (s : State) : (endCommand c n s).mem = s.mem := rfl
@[simp] theorem endCommand_draws (c : BitVec 4) (n : Nat) (s : State) : (endCommand c n s).draws = s.draws := rfl
@[simp] theorem endCommand_host (c : BitVec 4) (n : Nat) (s : State) : (endCommand c n s).host = s.host := rfl
@[simp] theorem endCommand_observed (c : BitVec 4) (n : Nat) (s : State) :
    (endCommand c n s).observed = s.observed := rfl
@[simp] theorem endCommand_turns (c : BitVec 4) (n : Nat) (s : State) : (endCommand c n s).turns = s.turns := rfl

@[simp] theorem latchCommand_params (w : Word) (s : State) : (latchCommand w s).params = s.params := rfl
@[simp] theorem latchCommand_klen (w : Word) (s : State) : (latchCommand w s).klen = s.klen := rfl
@[simp] theorem latchCommand_ilen (w : Word) (s : State) : (latchCommand w s).ilen = s.ilen := rfl
@[simp] theorem latchCommand_olen (w : Word) (s : State) : (latchCommand w s).olen = s.olen := rfl
@[simp] theorem latchCommand_busy (w : Word) (s : State) : (latchCommand w s).busy = true := rfl
@[simp] theorem latchCommand_err (w : Word) (s : State) : (latchCommand w s).err = s.err := rfl
@[simp] theorem latchCommand_pending (w : Word) (s : State) : (latchCommand w s).pending = w := rfl
@[simp] theorem latchCommand_mem (w : Word) (s : State) : (latchCommand w s).mem = s.mem := rfl
@[simp] theorem latchCommand_draws (w : Word) (s : State) : (latchCommand w s).draws = s.draws := rfl
@[simp] theorem latchCommand_host (w : Word) (s : State) : (latchCommand w s).host = s.host := rfl
@[simp] theorem latchCommand_observed (w : Word) (s : State) : (latchCommand w s).observed = s.observed := rfl
@[simp] theorem latchCommand_turns (w : Word) (s : State) : (latchCommand w s).turns = s.turns := rfl

@[simp] theorem resetCore_params (s : State) : (resetCore s).params = s.params := rfl
@[simp] theorem resetCore_klen (s : State) : (resetCore s).klen = 0 := rfl
@[simp] theorem resetCore_ilen (s : State) : (resetCore s).ilen = 0 := rfl
@[simp] theorem resetCore_olen (s : State) : (resetCore s).olen = 0 := rfl
@[simp] theorem resetCore_busy (s : State) : (resetCore s).busy = false := rfl
@[simp] theorem resetCore_err (s : State) : (resetCore s).err = 0 := rfl
@[simp] theorem resetCore_mem (s : State) : (resetCore s).mem = [] := rfl
@[simp] theorem resetCore_draws (s : State) : (resetCore s).draws = s.draws + 1 := rfl
@[simp] theorem resetCore_host (s : State) : (resetCore s).host = s.host := rfl
@[simp] theorem resetCore_observed (s : State) : (resetCore s).observed = s.observed := rfl
@[simp] theorem resetCore_turns (s : State) : (resetCore s).turns = s.turns := rfl

/-- Reading a byte needs the memory and the draw alone. -/
theorem readByte_congr {s t : State} (hm : t.mem = s.mem) (hd : t.draws = s.draws) (a : Nat) :
    t.readByte a = s.readByte a := by
  simp only [State.readByte, hm, hd]

@[simp] theorem readByte_endCommand (c : BitVec 4) (n : Nat) (s : State) (a : Nat) :
    (endCommand c n s).readByte a = s.readByte a := rfl
@[simp] theorem readByte_raiseError (e : ErrorKind) (s : State) (a : Nat) :
    (raiseError e s).readByte a = s.readByte a := rfl
@[simp] theorem readByte_latchCommand (w : Word) (s : State) (a : Nat) :
    (latchCommand w s).readByte a = s.readByte a := rfl

end Sys2Proof.Machine
end

