-- ==== Sys2Proof/Laws/Memory.lean ====
section
/-! SUPPORT. The laws of memory: a byte reads back as it was written, every other byte as before, and every operation keeps
the canonical form. -/
namespace Sys2Proof.Machine

@[simp] theorem lookup_nil (a : Nat) : Memory.lookup [] a = none := rfl

theorem lookup_insert (m : Memory) (a : Nat) (b : Byte) (a' : Nat) :
    (m.insert a b).lookup a' = if a' = a then some b else m.lookup a' := by
  induction m with
  | nil => simp [Memory.insert, Memory.lookup, eq_comm]
  | cons c rest ih =>
    obtain ⟨x, v⟩ := c
    simp only [Memory.insert]
    split
    · simp [Memory.lookup, eq_comm]
    · split
      · next h => subst h; by_cases h' : a = a' <;> simp [Memory.lookup, h', Ne.symm]
      · next h =>
        by_cases h' : x = a'
        · subst h'; simp [Memory.lookup, Ne.symm h]
        · simp [Memory.lookup, ih, h']

/-- Bytes written at consecutive addresses: each reads back, and every other byte reads as before. -/
theorem lookup_insertBytes (l : List Byte) (m : Memory) (a a' : Nat) :
    (m.insertBytes a l).lookup a' =
      if a ≤ a' ∧ a' < a + l.length then some (l.getD (a' - a) 0) else m.lookup a' := by
  induction l generalizing m a with
  | nil => rw [if_neg (by simp only [List.length_nil]; omega)]; rfl
  | cons b bs ih =>
    rw [Memory.insertBytes, ih, lookup_insert]
    by_cases h : a' = a
    · subst h; simp
    · by_cases h1 : a + 1 ≤ a' ∧ a' < a + 1 + bs.length
      · have h2 : a ≤ a' ∧ a' < a + (b :: bs).length := by simp only [List.length_cons]; omega
        obtain ⟨n, rfl⟩ : ∃ n, a' = a + 1 + n := ⟨a' - a - 1, by omega⟩
        have e1 : a + 1 + n - a = n + 1 := by omega
        rw [if_pos h1, if_pos h2, e1]
        simp
      · have h2 : ¬(a ≤ a' ∧ a' < a + (b :: bs).length) := by simp only [List.length_cons]; omega
        rw [if_neg h1, if_neg h2, if_neg h]

theorem readByte_writeByte (s : State) (a : Nat) (b : Byte) (a' : Nat) :
    (s.writeByte a b).readByte a' = if a' = a then b else s.readByte a' := by
  by_cases h : a' = a <;> simp [State.readByte, State.writeByte, lookup_insert, h]

theorem readByte_memWrite (buf : Buf) (addr : Nat) (l : List Byte) (s : State) (a : Nat) :
    (memWrite buf addr l s).readByte a =
      if bufBase buf + addr ≤ a ∧ a < bufBase buf + addr + l.length then l.getD (a - (bufBase buf + addr)) 0
      else s.readByte a := by
  by_cases h : bufBase buf + addr ≤ a ∧ a < bufBase buf + addr + l.length
  · rw [if_pos h]; simp only [State.readByte, memWrite, lookup_insertBytes, if_pos h]
  · rw [if_neg h]; simp only [State.readByte, memWrite, lookup_insertBytes, if_neg h]

/-- Every address of a memory in canonical form is above a bound, if its first is. -/
theorem wf_cons_iff (c : Host.Cell) (m : Memory) :
    Memory.wf (c :: m) = true ↔ (∀ d ∈ m, c.1 < d.1) ∧ Memory.wf m = true := by
  induction m generalizing c with
  | nil => simp [Memory.wf]
  | cons d rest ih =>
    simp only [Memory.wf, Bool.and_eq_true, decide_eq_true_eq, List.mem_cons, forall_eq_or_imp]
    constructor
    · rintro ⟨h, hw⟩
      exact ⟨⟨h, fun e he => lt_trans h ((ih d).1 hw |>.1 e he)⟩, hw⟩
    · rintro ⟨⟨h, -⟩, hw⟩
      exact ⟨h, hw⟩

theorem mem_insert {m : Memory} {a : Nat} {b : Byte} {c : Host.Cell} (h : c ∈ m.insert a b) :
    c = (a, b) ∨ c ∈ m := by
  induction m with
  | nil => simpa [Memory.insert] using h
  | cons d rest ih =>
    obtain ⟨x, v⟩ := d
    simp only [Memory.insert] at h
    split at h
    · simpa using h
    · split at h
      · rcases List.mem_cons.1 h with h | h
        · exact .inl h
        · exact .inr (List.mem_cons_of_mem _ h)
      · rcases List.mem_cons.1 h with h | h
        · exact .inr (h ▸ List.mem_cons_self)
        · exact (ih h).imp id (List.mem_cons_of_mem _)

/-- Writing a byte keeps the canonical form. -/
theorem insert_wf (m : Memory) (a : Nat) (b : Byte) (h : m.wf = true) : (m.insert a b).wf = true := by
  induction m with
  | nil => rfl
  | cons c rest ih =>
    obtain ⟨x, v⟩ := c
    have ⟨hlt, hw⟩ := (wf_cons_iff _ _).1 h
    simp only [Memory.insert]
    split
    · next hax =>
      refine (wf_cons_iff _ _).2 ⟨fun d hd => ?_, h⟩
      rcases List.mem_cons.1 hd with rfl | hd
      · exact hax
      · exact lt_trans hax (hlt d hd)
    · split
      · next hax => subst hax; exact (wf_cons_iff _ _).2 ⟨hlt, hw⟩
      · next h1 h2 =>
        refine (wf_cons_iff _ _).2 ⟨fun d hd => ?_, ih hw⟩
        rcases mem_insert hd with rfl | hd
        · show x < a; omega
        · exact hlt d hd

/-- Writing bytes keeps the canonical form. -/
theorem insertBytes_wf (l : List Byte) (m : Memory) (a : Nat) (h : m.wf = true) : (m.insertBytes a l).wf = true := by
  induction l generalizing m a with
  | nil => exact h
  | cons b bs ih => exact ih _ _ (insert_wf m a b h)

/-- An entry of a memory after a write was written or was there before. -/
theorem mem_insertBytes {l : List Byte} {m : Memory} {a : Nat} {c : Host.Cell} (h : c ∈ m.insertBytes a l) :
    (a ≤ c.1 ∧ c.1 < a + l.length) ∨ c ∈ m := by
  induction l generalizing m a with
  | nil => exact .inr h
  | cons b bs ih =>
    rcases ih h with h | h
    · left; simp only [List.length_cons]; omega
    · rcases mem_insert h with rfl | h
      · left; simp
      · exact .inr h

theorem memWrite_wf (buf : Buf) (addr : Nat) (l : List Byte) (s : State) (h : s.mem.wf = true) :
    (memWrite buf addr l s).mem.wf = true := insertBytes_wf _ _ _ h

theorem writeByte_wf (s : State) (a : Nat) (b : Byte) (h : s.mem.wf = true) : (s.writeByte a b).mem.wf = true :=
  insert_wf _ _ _ h

/-- The memory after reset has the canonical form. -/
theorem reset_mem_wf : State.reset.mem.wf = true := rfl

end Sys2Proof.Machine
end

