-- ==== Sys2Proof/Laws/Ops.lean ====
section
/-! SUPPORT. What each shared operation can do, said once: the two ends of a command, one command of the engine, one host
access, one turn of the host, and one transition. -/
namespace Sys2Proof.Machine

@[simp] theorem memRead_length (b : Buf) (addr n : Nat) (s : State) : (memRead b addr n s).length = n := by
  simp [memRead]

theorem memRead_getD (b : Buf) (addr n : Nat) (s : State) (k : Nat) (h : k < n) :
    (memRead b addr n s).getD k 0 = s.readByte (bufBase b + addr + k) := by
  simp [memRead, List.getD, h]

/-- The whole effect of an error (R305, R308). -/
theorem raiseError_failedWith (e : ErrorKind) (s : State) : FailedWith s (raiseError e s) e :=
  ⟨rfl, rfl, rfl, fun _ => rfl, ⟨rfl, rfl, rfl, rfl, rfl, rfl, rfl, rfl⟩⟩

/-- The whole effect of a successful command whose output fits in OBUF (R57, R306). -/
theorem finishOk_completedWith (out : List Byte) {s : State} (hp : SizesOk s.params)
    (h : out.length ≤ s.params.obufSize) :
    CompletedWith s (finishOk out s) out := by
  have := hp.obufEnds
  refine ⟨h, ?_, rfl, rfl, fun k hk => ?_, fun a ha => ?_, ⟨rfl, rfl, rfl, rfl, rfl, rfl, rfl, rfl⟩⟩
  · simp only [finishOk, endCommand_olen, BitVec.toNat_ofNat]
    exact Nat.mod_eq_of_lt (by simp only [Config.regWidth]; omega)
  · rw [finishOk, readByte_endCommand, readByte_memWrite, if_pos (by simp only [bufBase, Config.obufBase]; omega)]
    exact congrArg (fun n => out.getD n 0) (by simp only [bufBase, Config.obufBase]; omega)
  · rw [finishOk, readByte_endCommand, readByte_memWrite, if_neg (by simp only [bufBase, Config.obufBase]; omega)]

/-- `lengthsLegal` is the checks 3 and 4 of R74. -/
theorem lengthsLegal_iff (s : State) : lengthsLegal s = true ↔ LegalLengths s := by
  simp only [lengthsLegal, LegalLengths, Bool.and_eq_true, decide_eq_true_eq]

/-- What the engine does with a command whose lengths are legal. -/
theorem runCommand_of_legal (cmd : List Byte → List Byte → Result) {s : State} (h : LegalLengths s) :
    runCommand cmd s = .next (finishCommand (cmd (keyString s) (inputString s)) s) := by
  simp [runCommand, (lengthsLegal_iff s).2 h]

/-- What the engine does with a command whose lengths are beyond the buffers. -/
theorem runCommand_of_illegal (cmd : List Byte → List Byte → Result) {s : State} (h : ¬LegalLengths s) :
    runCommand cmd s = .next (raiseError .illegalCommand s) := by
  have : lengthsLegal s = false := by
    rw [Bool.eq_false_iff]; exact fun h' => h ((lengthsLegal_iff s).1 h')
  simp [runCommand, this]

/-- Everything one command of the engine can do (R306): it always answers a next state. -/
theorem runCommand_cases (cmd : List Byte → List Byte → Result) (s : State) :
    (LegalLengths s ∧ ∃ out, cmd (keyString s) (inputString s) = .ok out ∧ runCommand cmd s = .next (finishOk out s)) ∨
    (LegalLengths s ∧ ∃ e, cmd (keyString s) (inputString s) = .error e ∧ runCommand cmd s = .next (raiseError e s)) ∨
    (¬LegalLengths s ∧ runCommand cmd s = .next (raiseError .illegalCommand s)) := by
  by_cases h : LegalLengths s
  · rw [runCommand_of_legal cmd h]
    cases hc : cmd (keyString s) (inputString s) with
    | ok out => exact .inl ⟨h, out, rfl, rfl⟩
    | error e => exact .inr (.inl ⟨h, e, rfl, rfl⟩)
  · exact .inr (.inr ⟨h, runCommand_of_illegal cmd h⟩)

/-- What a defined access reaches (R51, R52). -/
theorem targetOf_cases {P : Config.Params} {bits off : Nat} {t : Target} (h : targetOf P bits off = .ok t) :
    (∃ r, t = .reg r ∧ bits = Config.regWidth ∧ off = regOffset r) ∨
    (∃ b, t = .byte b ∧ bits = 8 ∧ bufBase b ≤ off ∧ off < bufBase b + bufSize P b) := by
  unfold targetOf at h
  by_cases ho : off < Config.regsEnd
  · rw [if_pos ho] at h
    by_cases hb : bits = Config.regWidth
    · rw [if_neg (by simpa using hb)] at h
      left
      unfold regAt at h
      split at h
      · next r hr =>
        cases h
        refine ⟨r, rfl, hb, ?_⟩
        split_ifs at hr <;> (cases hr; assumption)
      · cases h
    · rw [if_pos hb] at h; cases h
  · rw [if_neg ho] at h
    right
    unfold bufAt at h
    split at h
    · next b hr =>
      by_cases hb : bits = 8
      · rw [if_neg (by simpa using hb)] at h
        cases h
        refine ⟨b, rfl, hb, ?_⟩
        split_ifs at hr <;> (cases hr; assumption)
      · rw [if_pos hb] at h; cases h
    · cases h

/-- What a successful host write changes, by what it reaches (R24 to R28, R58). -/
theorem hostWrite_cases {t : Target} {off : Nat} {v : Word} {s s' : State} (h : hostWrite t off v s = .ok s') :
    (t = .reg .cmd ∧ s.busy = false ∧ s' = latchCommand v s) ∨
    (t = .reg .klen ∧ s.busy = false ∧ s' = { s with klen := v }) ∨
    (t = .reg .ilen ∧ s.busy = false ∧ s' = { s with ilen := v }) ∨
    ((t = .byte .kbuf ∨ t = .byte .ibuf) ∧ s.busy = false ∧ s' = s.writeByte off (v.setWidth 8)) ∨
    ((t = .reg .status ∨ t = .reg .olen ∨ t = .byte .obuf) ∧ s' = s) := by
  have hif : ∀ {f : Fault} {u : State}, (if s.busy then .error f else .ok u : Except Fault State) = .ok s' →
      s.busy = false ∧ s' = u := by
    intro f u h
    split at h
    · cases h
    · next hb => cases h; exact ⟨by simpa using hb, rfl⟩
  rcases t with r | b
  · cases r with
    | cmd => exact .inl ⟨rfl, hif h⟩
    | status => cases h; simp
    | klen => exact .inr (.inl ⟨rfl, hif h⟩)
    | ilen => exact .inr (.inr (.inl ⟨rfl, hif h⟩))
    | olen => cases h; simp
  · cases b with
    | kbuf => exact .inr (.inr (.inr (.inl ⟨.inl rfl, hif h⟩)))
    | ibuf => exact .inr (.inr (.inr (.inl ⟨.inr rfl, hif h⟩)))
    | obuf => cases h; simp

/-- A successful read by the host changes nothing, and a successful write changes one thing: the latched word with BUSY, a
length register, one byte of KBUF or IBUF, or nothing at all. -/
theorem hostAccess_cases {a : Access} {s s' : State} {v : Option Word} (hp : SizesOk s.params)
    (h : hostAccess a s = .ok (v, s')) :
    (∃ bits off w, a = .load bits off ∧ v = some w ∧ s' = s) ∨
    (∃ bits off w, a = .store bits off w ∧ v = none ∧
      ((s.busy = false ∧ off = 0x000 ∧ s' = latchCommand w s) ∨
        (s.busy = false ∧ off = 0x008 ∧ s' = { s with klen := w }) ∨
        (s.busy = false ∧ off = 0x00C ∧ s' = { s with ilen := w }) ∨
        (s.busy = false ∧ inBuffers s.params off = true ∧ off < 0x2000 ∧ s' = s.writeByte off (w.setWidth 8)) ∨
        s' = s)) := by
  cases a with
  | load bits off =>
    simp only [hostAccess, bind, Except.bind] at h
    split at h
    · cases h
    · split at h
      · cases h
      · cases h; exact .inl ⟨bits, off, _, rfl, rfl, rfl⟩
  | store bits off w =>
    simp only [hostAccess, bind, Except.bind] at h
    split at h
    · cases h
    · next t ht =>
      split at h
      · cases h
      · next s'' hw =>
        cases h
        refine .inr ⟨bits, off, w, rfl, rfl, ?_⟩
        have hmap := targetOf_cases ht
        rcases hostWrite_cases hw with ⟨rfl, hb, rfl⟩ | ⟨rfl, hb, rfl⟩ | ⟨rfl, hb, rfl⟩ | ⟨ht', hb, rfl⟩ | ⟨-, rfl⟩
        · left; simp_all [regOffset]
        · right; left; simp_all [regOffset]
        · right; right; left; simp_all [regOffset]
        · right; right; right; left
          rcases hmap with ⟨r, rfl, -⟩ | ⟨b, rfl, -, hlo, hhi⟩
          · simp at ht'
          · have := hp.kbufEnds
            have := hp.ibufEnds
            rcases ht' with ht' | ht' <;> cases ht' <;> simp only [bufBase, bufSize, Config.kbufBase,
              Config.ibufBase] at hlo hhi <;> refine ⟨hb, ?_, by omega, rfl⟩ <;>
              simp [inBuffers, Config.kbufBase, Config.ibufBase] <;> omega
        · exact .inr (.inr (.inr (.inr rfl)))

/-- Everything the host's turn can do: nothing when its program is at its end, or the next access of its program. -/
theorem hostTurn_cases (s : State) :
    (s.host = [] ∧ hostTurn s = .next s) ∨
    (∃ op rest, s.host = op :: rest ∧
      ((∃ f, hostAccess (firstAccess op) s = .error f ∧ hostTurn s = .fault f) ∨
       (∃ v s', hostAccess (firstAccess op) s = .ok (some v, s') ∧
          hostTurn s = .next { s' with host := afterRead op v ++ rest, observed := s'.observed ++ [v] }) ∨
       (∃ s', hostAccess (firstAccess op) s = .ok (none, s') ∧ hostTurn s = .next { s' with host := rest }))) := by
  cases hh : s.host with
  | nil => left; simp [hostTurn, hh]
  | cons op rest =>
    refine .inr ⟨op, rest, rfl, ?_⟩
    cases ha : hostAccess (firstAccess op) s with
    | error f => exact .inl ⟨f, rfl, by simp [hostTurn, hh, ha]⟩
    | ok r =>
      obtain ⟨v, s'⟩ := r
      cases v with
      | some v => exact .inr (.inl ⟨v, s', rfl, by simp [hostTurn, hh, ha]⟩)
      | none => exact .inr (.inr ⟨s', rfl, by simp [hostTurn, hh, ha]⟩)

/-- Everything one step can be: a turn of the host, a turn of the engine, or a reset, of the state with that turn taken
off the schedule (R61, R341). -/
theorem step_cases (s : State) :
    (∃ rest, (s.turns = .host :: rest ∨ (s.turns = [] ∧ rest = [] ∧ s.busy = false)) ∧
      step s = hostTurn { s with turns := rest }) ∨
    (∃ rest, (s.turns = .engine :: rest ∨ (s.turns = [] ∧ rest = [])) ∧ s.busy = true ∧
      step s = coreStep { s with turns := rest }) ∨
    (∃ rest, s.turns = .engine :: rest ∧ s.busy = false ∧ step s = .next { s with turns := rest }) ∨
    (∃ rest, s.turns = .reset :: rest ∧ step s = .next (resetCore { s with turns := rest })) := by
  cases ht : s.turns with
  | nil =>
    have hs : ({ s with turns := [] } : State) = s := by rw [← ht]
    by_cases hb : s.busy = true
    · exact .inr (.inl ⟨[], .inr ⟨rfl, rfl⟩, hb, by rw [hs]; simp [step, transition, ht, hb]⟩)
    · exact .inl ⟨[], .inr ⟨rfl, rfl, by simpa using hb⟩, by rw [hs]; simp [step, transition, ht, hb]⟩
  | cons t rest =>
    cases t with
    | host => exact .inl ⟨rest, .inl rfl, by simp [step, transition, ht]⟩
    | reset => exact .inr (.inr (.inr ⟨rest, rfl, by simp [step, transition, ht]⟩))
    | engine =>
      by_cases hb : s.busy = true
      · exact .inr (.inl ⟨rest, .inl rfl, hb, by simp [step, transition, ht, engineTurn, hb]⟩)
      · exact .inr (.inr (.inl ⟨rest, rfl, by simpa using hb, by simp [step, transition, ht, engineTurn, hb]⟩))

end Sys2Proof.Machine
end

