-- ==== Sys2Proof/Laws/HostPort.lean ====
section
/-! SUPPORT. The address map as the defined accesses see it: which offsets are registers and which are buffer bytes (R51,
R52). -/
namespace Sys2Proof.Machine

theorem targetOf_reg (P : Config.Params) (r : Reg) : targetOf P Config.regWidth (regOffset r) = .ok (.reg r) := by
  cases r <;> rfl

/-- The parameters whose buffers do not overlap place each byte in its own buffer (R7, R51). -/
theorem bufAt_byte {P : Config.Params} (hp : SizesOk P) (b : Buf) {k : Nat} (h : k < bufSize P b) :
    bufAt P (bufBase b + k) = some b := by
  have := hp.kbufEnds
  have := hp.ibufEnds
  unfold bufAt
  cases b
  · rw [if_pos]
    exact ⟨Nat.le_add_right _ _, Nat.add_lt_add_left h _⟩
  · rw [if_neg, if_pos]
    · exact ⟨Nat.le_add_right _ _, Nat.add_lt_add_left h _⟩
    · simp only [bufBase, Config.kbufBase, Config.ibufBase]; omega
  · rw [if_neg, if_neg, if_pos]
    · exact ⟨Nat.le_add_right _ _, Nat.add_lt_add_left h _⟩
    · simp only [bufBase, Config.ibufBase, Config.obufBase]; omega
    · simp only [bufBase, Config.kbufBase, Config.obufBase]; omega

theorem targetOf_byte {P : Config.Params} (hp : SizesOk P) (b : Buf) {k : Nat} (h : k < bufSize P b) :
    targetOf P 8 (bufBase b + k) = .ok (.byte b) := by
  have hr : ¬bufBase b + k < Config.regsEnd := by
    cases b <;> simp only [bufBase, Config.kbufBase, Config.ibufBase, Config.obufBase, Config.regsEnd] <;> omega
  rw [targetOf, if_neg hr, bufAt_byte hp b h]
  rfl

/-- The offset lies in a buffer exactly when it is the place of one of its bytes. -/
theorem inBuffers_iff (P : Config.Params) (off : Nat) :
    inBuffers P off = true ↔ ∃ b k, k < bufSize P b ∧ off = bufBase b + k := by
  unfold inBuffers
  simp only [Bool.or_eq_true, Bool.and_eq_true, decide_eq_true_eq]
  constructor
  · rintro ((⟨h, h'⟩ | ⟨h, h'⟩) | ⟨h, h'⟩)
    · exact ⟨.kbuf, off - Config.kbufBase, Nat.sub_lt_left_of_lt_add h h', (Nat.add_sub_cancel' h).symm⟩
    · exact ⟨.ibuf, off - Config.ibufBase, Nat.sub_lt_left_of_lt_add h h', (Nat.add_sub_cancel' h).symm⟩
    · exact ⟨.obuf, off - Config.obufBase, Nat.sub_lt_left_of_lt_add h h', (Nat.add_sub_cancel' h).symm⟩
  · rintro ⟨b, k, h, rfl⟩
    cases b
    · exact .inl (.inl ⟨Nat.le_add_right _ _, Nat.add_lt_add_left h _⟩)
    · exact .inl (.inr ⟨Nat.le_add_right _ _, Nat.add_lt_add_left h _⟩)
    · exact .inr ⟨Nat.le_add_right _ _, Nat.add_lt_add_left h _⟩

/-- The accesses R52 defines: 32 bits at a register's exact offset, or 8 bits at the place of a buffer byte. -/
theorem wellFormed_iff (P : Config.Params) (a : Access) : a.wellFormed P = true ↔
    (a.bits = Config.regWidth ∧ ∃ r, a.offset = regOffset r) ∨
    (a.bits = 8 ∧ ∃ b k, k < bufSize P b ∧ a.offset = bufBase b + k) := by
  unfold Access.wellFormed
  simp only [Bool.or_eq_true, Bool.and_eq_true, decide_eq_true_eq, beq_iff_eq, inBuffers_iff]
  refine or_congr ?_ Iff.rfl
  rw [and_assoc]
  refine and_congr Iff.rfl ⟨fun ⟨h, h4⟩ => ?_, fun ⟨r, h⟩ => ?_⟩
  · simp only [Config.regsEnd] at h
    obtain h | h | h | h | h : a.offset = 0 ∨ a.offset = 4 ∨ a.offset = 8 ∨ a.offset = 12 ∨ a.offset = 16 := by omega
    exacts [⟨.cmd, h⟩, ⟨.status, h⟩, ⟨.klen, h⟩, ⟨.ilen, h⟩, ⟨.olen, h⟩]
  · rw [h]; cases r <;> decide

/-- A read of a register. -/
theorem hostAccess_load_reg (r : Reg) (s : State) :
    hostAccess (.load Config.regWidth (regOffset r)) s = (hostRead (.reg r) (regOffset r) s).map fun v => (some v, s) := by
  simp only [hostAccess, targetOf_reg, bind, Except.bind, Except.map]

/-- A read of a buffer byte. -/
theorem hostAccess_load_byte (b : Buf) {k : Nat} {s : State} (hp : SizesOk s.params)
    (h : k < bufSize s.params b) :
    hostAccess (.load 8 (bufBase b + k)) s = (hostRead (.byte b) (bufBase b + k) s).map fun v => (some v, s) := by
  simp only [hostAccess, targetOf_byte hp b h, bind, Except.bind, Except.map]

/-- A write of a register. -/
theorem hostAccess_store_reg (r : Reg) (v : Word) (s : State) :
    hostAccess (.store Config.regWidth (regOffset r) v) s = (hostWrite (.reg r) (regOffset r) v s).map fun t => (none, t) := by
  simp only [hostAccess, targetOf_reg, bind, Except.bind, Except.map]

/-- A write of a buffer byte. -/
theorem hostAccess_store_byte (b : Buf) {k : Nat} {s : State} (hp : SizesOk s.params) (h : k < bufSize s.params b)
    (v : Word) :
    hostAccess (.store 8 (bufBase b + k) v) s = (hostWrite (.byte b) (bufBase b + k) v s).map fun t => (none, t) := by
  simp only [hostAccess, targetOf_byte hp b h, bind, Except.bind, Except.map]

/-- The platform's placement of the window: the host's address of an offset leads back to the offset (R50, R51). -/
theorem windowOffset_hostAddress {off : Nat} (h : off < Config.windowSize) :
    windowOffset (hostAddress off) = some off := by
  rw [windowOffset, hostAddress, if_pos ⟨Nat.le_add_right _ _, Nat.add_lt_add_left h _⟩, Nat.add_sub_cancel_left]

end Sys2Proof.Machine
end

