-- ==== Sys2Proof/Laws/Letters.lean ====
section
/-! SUPPORT. Small laws of the letter utilities of 40_common.md. -/
namespace Sys2Proof.Machine

@[simp] theorem normalize_nil : normalize [] = [] := rfl

theorem normalize_append (a b : List Byte) : normalize (a ++ b) = normalize a ++ normalize b :=
  List.filterMap_append

theorem normalize_length_le (a : List Byte) : (normalize a).length ≤ a.length := List.length_filterMap_le _ _

@[simp] theorem letters_length (xs : List Letter) : (letters xs).length = xs.length := by simp [letters]

/-- The index of an emitted letter is the letter (R101, R102). -/
theorem letterIndex_chr26 : ∀ x : Letter, letterIndex (chr26 x) = some x := by decide

/-- Normalizing emitted letters gives the letters back. -/
@[simp] theorem normalize_letters (xs : List Letter) : normalize (letters xs) = xs := by
  induction xs with
  | nil => rfl
  | cons x xs ih =>
    rw [letters, List.map_cons, normalize, List.filterMap_cons, letterIndex_chr26]
    exact congrArg _ ih

/-- The value of a reduced integer (R8). -/
theorem letterOfInt_val (z : Int) : ((letterOfInt z).val : Int) = z % 26 := by
  simp only [letterOfInt, Fin.val_ofNat]
  omega

theorem padTo_length {α : Type} (s : List α) (m : Nat) (c : α) (hm : 0 < m) : (padTo s m c).length % m = 0 := by
  have h := Nat.mod_lt s.length hm
  simp only [padTo, List.length_append, List.length_replicate]
  by_cases h0 : s.length % m = 0
  · simp [h0]
  · rw [Nat.mod_eq_of_lt (a := m - s.length % m) (by omega)]
    have := Nat.div_add_mod s.length m
    have e : s.length + (m - s.length % m) = m * (s.length / m + 1) := by
      rw [Nat.mul_add]; omega
    rw [e]; exact Nat.mul_mod_right _ _

/-- The letters of a string of letter bytes are its normalization. -/
theorem lettersOf_eq_normalize {K : List Byte} (h : ∀ b ∈ K, letterIndex b ≠ none) :
    lettersOf K = some (normalize K) := by
  induction K with
  | nil => rfl
  | cons b bs ih =>
    obtain ⟨x, hx⟩ := Option.ne_none_iff_exists'.1 (h b List.mem_cons_self)
    have := ih fun c hc => h c (List.mem_cons_of_mem _ hc)
    simp [lettersOf, hx, this, normalize]

/-- A string that is not all letter bytes has no letters (R104). -/
theorem lettersOf_eq_none {K : List Byte} (h : ∃ b ∈ K, letterIndex b = none) : lettersOf K = none := by
  induction K with
  | nil => simp at h
  | cons b bs ih =>
    simp only [List.mem_cons, exists_eq_or_imp] at h
    rcases h with h | h
    · simp [lettersOf, h]
    · cases hb : letterIndex b <;> simp [lettersOf, hb, ih h]

end Sys2Proof.Machine
end

