-- ==== Sys2Proof/Laws/PerInstr.lean ====
section
/-! SUPPORT. Facts about every command as syntax, one lemma per constructor. -/
namespace Sys2Proof.Laws

/-- The row of a command in the opcode map: RSVD is 0 and OP is its opcode (R71, R73). -/
def OpcodeRow.Statement (i : Instr) : Prop :=
  rsvdField (encode i) = 0 ∧ opField (encode i) = opOfInstr i ∧ instrOfOp (opOfInstr i) = some i

theorem OpcodeRow.vigEnc : OpcodeRow.Statement .vigEnc := ⟨rfl, rfl, rfl⟩
theorem OpcodeRow.vigDec : OpcodeRow.Statement .vigDec := ⟨rfl, rfl, rfl⟩
theorem OpcodeRow.pfEnc : OpcodeRow.Statement .pfEnc := ⟨rfl, rfl, rfl⟩
theorem OpcodeRow.pfDec : OpcodeRow.Statement .pfDec := ⟨rfl, rfl, rfl⟩
theorem OpcodeRow.hillEnc : OpcodeRow.Statement .hillEnc := ⟨rfl, rfl, rfl⟩
theorem OpcodeRow.hillDec : OpcodeRow.Statement .hillDec := ⟨rfl, rfl, rfl⟩
theorem OpcodeRow.rfEnc : OpcodeRow.Statement .rfEnc := ⟨rfl, rfl, rfl⟩
theorem OpcodeRow.rfDec : OpcodeRow.Statement .rfDec := ⟨rfl, rfl, rfl⟩
theorem OpcodeRow.rtEnc : OpcodeRow.Statement .rtEnc := ⟨rfl, rfl, rfl⟩
theorem OpcodeRow.rtDec : OpcodeRow.Statement .rtDec := ⟨rfl, rfl, rfl⟩
theorem OpcodeRow.rotor : OpcodeRow.Statement .rotor := ⟨rfl, rfl, rfl⟩
theorem OpcodeRow.desKs : OpcodeRow.Statement .desKs := ⟨rfl, rfl, rfl⟩
theorem OpcodeRow.desEnc : OpcodeRow.Statement .desEnc := ⟨rfl, rfl, rfl⟩
theorem OpcodeRow.desDec : OpcodeRow.Statement .desDec := ⟨rfl, rfl, rfl⟩
theorem OpcodeRow.desEncRaw : OpcodeRow.Statement .desEncRaw := ⟨rfl, rfl, rfl⟩
theorem OpcodeRow.desDecRaw : OpcodeRow.Statement .desDecRaw := ⟨rfl, rfl, rfl⟩

end Sys2Proof.Laws
end

