-- ==== Sys2Proof/Tests/Slice0.lean ====
section
/-! SUPPORT. Tests of the model, each of one operation or one step. Words to decode are written out from the opcode map
(R73 of 30_encoding.md); the expected outputs of the commands are the vectors of 95_test_vectors.md, named in each
comment. After them the witnesses: for each statement with hypotheses, concrete states and operands that meet them. -/
namespace Sys2Proof.Tests
set_option Elab.async false -- one theorem after the other: each thread of its own would reserve a stack
open Sys2Proof Sys2Proof.Machine

/-- Bytes from their values. -/
def bytesN (l : List Nat) : List Byte := l.map (BitVec.ofNat 8)

/-- Reset, then the key bytes and the text bytes written, then their lengths. -/
def sample (K I : List Nat) : State :=
  { memWrite .ibuf 0 (bytesN I) (memWrite .kbuf 0 (bytesN K) State.reset) with
    klen := BitVec.ofNat 32 K.length, ilen := BitVec.ofNat 32 I.length }

/-- The status code and the output bytes after a step that answers a next state with BUSY = 0. -/
def outputOf (o : Host.Outcome State Fault Refusal) : Option (Nat × List Nat) :=
  match o with
  | .next t => if t.busy then none else some (t.err.toNat, (memRead .obuf 0 t.olen.toNat t).map fun b => b.toNat)
  | _ => none

/-- The core with `MIDDLE_STEP_MODE = ONCE` and the smallest buffers that hold a rotor setting (R6, R7). -/
def onceParams : Config.Params := ⟨6, 8, 96, { rotorParams with mode := .once }⟩

/-- The buffer sizes of the tests' states meet R7. -/
theorem spec_sizes : SizesOk specParams := ⟨by decide, by decide, by decide, by decide, by decide, by decide, by decide⟩
theorem once_sizes : SizesOk onceParams := ⟨by decide, by decide, by decide, by decide, by decide, by decide, by decide⟩

/-- One step with the command word pending. -/
def runWord (w : Nat) (K I : List Nat) : Option (Nat × List Nat) := outputOf (step ((sample K I).withFetchWord 32 w))

/-- The output of a command rule, as numbers. -/
def okBytes (r : Result) : Option (List Nat) :=
  match r with
  | .ok out => some (out.map fun b => b.toNat)
  | .error _ => none

/-! ### WellFormed: each check refuses -/

theorem test_wf_register : (Access.load 32 0x10).wellFormed specParams = true ∧ (Access.store 32 0x00 5).wellFormed specParams = true := by decide
theorem test_wf_buffers : (Access.load 8 0x13F).wellFormed specParams = true ∧ (Access.store 8 0x1000 5).wellFormed specParams = true ∧
    (Access.load 8 0x3FFF).wellFormed specParams = true := by decide
theorem test_wf_register_width : (Access.load 8 0x08).wellFormed specParams = false := by decide
theorem test_wf_register_misaligned : (Access.load 32 0x06).wellFormed specParams = false := by decide
theorem test_wf_unmapped : (Access.load 32 0x14).wellFormed specParams = false ∧ (Access.load 8 0xFF).wellFormed specParams = false ∧
    (Access.load 8 0x140).wellFormed specParams = false ∧ (Access.store 8 0x4000 0).wellFormed specParams = false := by decide
theorem test_wf_buffer_width : (Access.store 32 0x1000 0).wellFormed specParams = false ∧
    (Access.load 16 0x2000).wellFormed specParams = false := by decide
theorem test_wf_sizes : (Access.load 8 0x105).wellFormed onceParams = true ∧
    (Access.load 8 0x106).wellFormed onceParams = false := by decide
theorem test_wf_instr : Instr.all.all Instr.wellFormed = true := by decide

/-! ### Decoding: RSVD in bits 31:8 and OP in bits 7:0, each word written out from R71 and R73 -/

theorem test_decode_vigEnc : decode 0b000000000000000000000000_00110000#32 = .ok .vigEnc := by decide
theorem test_decode_vigDec : decode 0b000000000000000000000000_00110001#32 = .ok .vigDec := by decide
theorem test_decode_pfEnc : decode 0b000000000000000000000000_00110010#32 = .ok .pfEnc := by decide
theorem test_decode_pfDec : decode 0b000000000000000000000000_00110011#32 = .ok .pfDec := by decide
theorem test_decode_hillEnc : decode 0b000000000000000000000000_00110100#32 = .ok .hillEnc := by decide
theorem test_decode_hillDec : decode 0b000000000000000000000000_00110101#32 = .ok .hillDec := by decide
theorem test_decode_rfEnc : decode 0b000000000000000000000000_01000000#32 = .ok .rfEnc := by decide
theorem test_decode_rfDec : decode 0b000000000000000000000000_01000001#32 = .ok .rfDec := by decide
theorem test_decode_rtEnc : decode 0b000000000000000000000000_01000010#32 = .ok .rtEnc := by decide
theorem test_decode_rtDec : decode 0b000000000000000000000000_01000011#32 = .ok .rtDec := by decide
theorem test_decode_rotor : decode 0b000000000000000000000000_01010000#32 = .ok .rotor := by decide
theorem test_decode_desKs : decode 0b000000000000000000000000_01100000#32 = .ok .desKs := by decide
theorem test_decode_desEnc : decode 0b000000000000000000000000_01100001#32 = .ok .desEnc := by decide
theorem test_decode_desDec : decode 0b000000000000000000000000_01100010#32 = .ok .desDec := by decide
theorem test_decode_desEncRaw : decode 0b000000000000000000000000_01100011#32 = .ok .desEncRaw := by decide
theorem test_decode_desDecRaw : decode 0b000000000000000000000000_01100100#32 = .ok .desDecRaw := by decide
theorem test_decode_rsvd : decode 0b000000000000000000000001_00110000#32 = .error .reservedBits := by decide
theorem test_decode_rsvd_top : decode 0b100000000000000000000000_00110000#32 = .error .reservedBits := by decide
theorem test_decode_undefined : decode 0b000000000000000000000000_00110110#32 = .error .undefinedOpcode := by decide
theorem test_decode_table_word : decodeTableWord 32 0x60 = some .desKs ∧ decodeTableWord 8 0x43 = some .rtDec ∧
    decodeTableWord 32 0x160 = none ∧ decodeTableWord 64 0x60 = none := by decide

/-! ### The commands: vectors of 95_test_vectors.md -/

-- V-VIG-2
theorem test_vig_1 : runWord 0x30 [76, 69, 77, 79, 78] [65, 116, 116, 97, 99, 107, 32, 97, 116, 32, 100, 97, 119, 110, 33] = some (0, [76, 88, 70, 79, 80, 86, 69, 70, 82, 78, 72, 82]) := by
  decide +kernel
-- V-VIG-7
theorem test_vig_2 : runWord 0x31 [66] [65] = some (0, [90]) := by
  decide +kernel
-- V-VIG-11
theorem test_vig_3 : runWord 0x30 [76, 69, 32, 77, 79, 78] [65, 66, 67] = some (1, []) := by
  decide +kernel
-- V-PF-1
theorem test_pf_1 : runWord 0x32 [80, 76, 65, 89, 70, 65, 73, 82] [72, 69, 76, 76, 79] = some (0, [75, 71, 89, 86, 82, 86]) := by
  decide +kernel
-- V-PF-2
theorem test_pf_2 : runWord 0x33 [80, 76, 65, 89, 70, 65, 73, 82] [75, 71, 89, 86, 82, 86] = some (0, [72, 69, 76, 88, 76, 79]) := by
  decide +kernel
-- V-PF-3
theorem test_pf_3 : runWord 0x32 [80, 76, 65, 89, 70, 65, 73, 82] [88, 88] = some (0, [90, 90, 90, 90]) := by
  decide +kernel
-- V-HILL-3
theorem test_hill_1 : runWord 0x34 [2, 5, 8, 17, 3] [72, 69, 76, 76, 79] = some (0, [90, 81, 73, 82, 84, 90]) := by
  decide +kernel
-- V-HILL-10
theorem test_hill_2 : runWord 0x35 [2, 5, 8, 17, 3] [90, 81, 73] = some (0, [72, 69, 82]) := by
  decide +kernel
-- V-HILL-18
theorem test_hill_3 : runWord 0x34 [3, 6, 24, 1, 13, 16, 10, 20, 17, 15] [65, 67, 84] = some (0, [81, 82, 84]) := by
  decide +kernel
-- V-HILL-19
theorem test_hill_4 : runWord 0x35 [3, 6, 24, 1, 13, 16, 10, 20, 17, 15] [81, 82, 84] = some (0, [65, 67, 84]) := by
  decide +kernel
-- V-RF-1
theorem test_rf_1 : runWord 0x40 [3] [87, 69, 65, 82, 69, 68, 73, 83, 67, 79, 86, 69, 82, 69, 68, 70, 76, 69, 69, 65, 84, 79, 78, 67, 69] = some (0, [87, 69, 67, 82, 76, 84, 69, 69, 82, 68, 83, 79, 69, 69, 70, 69, 65, 79, 67, 65, 73, 86, 68, 69, 78]) := by
  decide +kernel
-- V-RF-4
theorem test_rf_2 : runWord 0x41 [4] [87, 73, 82, 69, 69, 69, 68, 83, 69, 69, 69, 65, 67, 65, 69, 67, 86, 68, 76, 84, 78, 82, 79, 70, 79] = some (0, [87, 69, 65, 82, 69, 68, 73, 83, 67, 79, 86, 69, 82, 69, 68, 70, 76, 69, 69, 65, 84, 79, 78, 67, 69]) := by
  decide +kernel
-- V-RT-3
theorem test_rt_1 : runWord 0x42 [66, 65, 65] [72, 69, 76, 76, 79, 87, 79, 82, 76, 68] = some (0, [69, 79, 82, 88, 76, 87, 76, 88, 72, 76, 79, 68]) := by
  decide +kernel
-- V-RT-5
theorem test_rt_2 : runWord 0x43 [67, 65, 66] [65, 66, 67, 68, 69, 70, 71] = some (0, [69, 65, 67, 70, 66, 68, 71]) := by
  decide +kernel
-- V-ROT-4
theorem test_rotor_1 : runWord 0x50 [1, 2, 3, 65, 68, 85] [65, 65, 65, 65] = some (0, [69, 81, 73, 66]) := by
  decide +kernel
-- V-ROT-6, under SUM and under ONCE
theorem test_rotor_modes : runWord 0x50 [1, 2, 3, 65, 69, 86] [65] = some (0, [82]) ∧
    outputOf (exec .rotor { sample [1, 2, 3, 65, 69, 86] [65] with params := onceParams }) = some (0, [71]) := by
  decide +kernel
-- V-DES-1: the first and the last round key, F0BEE633A04C and F0BE2EF48881 as the vector lists them
theorem test_desks : (runWord 0x60 [109, 121, 115, 101, 99, 114, 101, 116] []).map (fun r => (r.1, r.2.length, r.2.take 6, r.2.drop 90)) =
    some (0, 96, [240, 190, 230, 51, 160, 76], [240, 190, 46, 244, 136, 129]) := by
  decide +kernel
-- V-DES-2
theorem test_desenc : runWord 0x61 [109, 121, 115, 101, 99, 114, 101, 116] [72, 69, 76, 76, 79] = some (0, [61, 94, 235, 167, 204, 52, 68, 133]) := by
  decide +kernel
-- V-DES-8
theorem test_desdec : runWord 0x62 [109, 121, 115, 101, 99, 114, 101, 116] [236, 186, 14, 160, 243, 169, 6, 33] = some (0, [65, 66]) := by
  decide +kernel
-- V-DES-R1
theorem test_desencraw : runWord 0x63 [19, 52, 87, 121, 155, 188, 223, 241] [1, 35, 69, 103, 137, 171, 205, 239] = some (0, [133, 232, 19, 84, 15, 10, 180, 5]) := by
  decide +kernel
-- V-DES-R2
theorem test_desdecraw : runWord 0x64 [19, 52, 87, 121, 155, 188, 223, 241] [133, 232, 19, 84, 15, 10, 180, 5] = some (0, [1, 35, 69, 103, 137, 171, 205, 239]) := by
  decide +kernel
-- R74: a word that is no command, and lengths beyond the buffers
theorem test_illegal_word : runWord 0x36 [] [] = some (7, []) ∧ runWord 0x130 [65] [65] = some (7, []) := by decide
theorem test_illegal_lengths : outputOf (exec .desKs { State.reset with klen := 65 }) = some (7, []) ∧
    outputOf (exec .vigEnc { State.reset with ilen := 4097 }) = some (7, []) := by decide
-- V-ILL-7 in a core with other sizes (R6, R74)
theorem test_other_sizes :
    outputOf (exec .vigEnc { sample [65] [66] with params := onceParams }) = some (0, [66]) ∧
    outputOf (exec .vigEnc { sample [65] [66] with params := onceParams, klen := 7 }) = some (7, []) := by decide
-- R305: an error leaves the output buffer as it is
theorem test_error_keeps_obuf : memRead .obuf 0 2
    (raiseError .invalidKey (memWrite .obuf 0 [1, 2] State.reset)) = [1, 2] := by decide

/-! ### Memory, the host's accesses, reset -/

theorem test_memory_sorted : (memWrite .obuf 0 [1] (memWrite .kbuf 3 [7, 8] (memWrite .kbuf 0 [9] State.reset))).mem =
    [(0x100, 9), (0x103, 7), (0x104, 8), (0x2000, 1)] := by decide
theorem test_memory_overwrite : (memWrite .kbuf 0 [1] (memWrite .kbuf 0 [9] State.reset)).mem = [(0x100, 1)] := by decide
-- R25: BUSY in bit 0, ERR in bits 11:8
theorem test_status : statusWord { State.reset with busy := true, err := 7 } = 0x701 := by decide
-- R24, R58: a CMD write latches the word; CMD reads 0; a STATUS write is ignored
theorem test_cmd_write : hostAccess (.store 32 0 0x30) State.reset =
    .ok (none, { State.reset with pending := 0x30, busy := true }) := by rfl
theorem test_cmd_read : hostAccess (.load 32 0) { State.reset with pending := 5 } =
    .ok (some 0, { State.reset with pending := 5 }) := by rfl
theorem test_status_write : hostAccess (.store 32 4 0xFFF) State.reset = .ok (none, State.reset) := by rfl
-- R53
theorem test_access_width : hostAccess (.load 8 0x10) State.reset = .error .accessWidth := by rfl
theorem test_access_misaligned : hostAccess (.store 32 0x0E 1) State.reset = .error .misalignedAccess := by rfl
theorem test_access_unmapped : hostAccess (.load 8 0x200) State.reset = .error .unmappedAccess := by rfl
-- R78: a copied byte, and a wait that reads BUSY = 1 once
theorem test_copy : ((hostTurn { memWrite .obuf 2 [0x41] State.reset with host := [.copyByte 2] }) =
    .next { memWrite .obuf 2 [0x41] State.reset with host := [.access (.store 8 0x1002 0x41)], observed := [0x41] }) := by
  rfl
theorem test_wait : hostTurn { State.reset with busy := true, host := [.wait] } =
    .next { State.reset with busy := true, host := [.wait], observed := [1] } := by rfl
-- R340
theorem test_reset_turn : step { sample [65] [66] with busy := true, err := 7, turns := [.reset] } =
    .next { State.reset with draws := 1 } := by rfl

/-! ### Witnesses: states and operands that meet the hypotheses of the statements -/

/-- The sample with the command's word pending and BUSY = 1. -/
def busyWith (i : Instr) (K I : List Nat) : State := { sample K I with pending := encode i, busy := true }

/-- 64 key bytes `A` and the largest legal text length. -/
def fullBuffers : State := { sample (List.replicate 64 65) [] with ilen := 4096 }

/-- The keys of the vectors. -/
def lemon : List Nat := [76, 69, 77, 79, 78]
def playfairKey : List Nat := [80, 76, 65, 89, 70, 65, 73, 82]
def hill2 : List Nat := [2, 5, 8, 17, 3]
def hill3 : List Nat := [3, 6, 24, 1, 13, 16, 10, 20, 17, 15]
def secret : List Nat := [109, 121, 115, 101, 99, 114, 101, 116]
def rotorKey : List Nat := [1, 2, 3, 65, 65, 65]
def hello : List Nat := [72, 69, 76, 76, 79]

theorem witness_step_runs_scheduled : let s := { busyWith .desKs secret [] with turns := [.engine, .host] }
    s.busy = true ∧ decode s.pending = .ok .desKs ∧ s.turns = .engine :: [.host] := by decide +kernel
theorem witness_step_runs_unscheduled :
    (busyWith .vigEnc lemon hello).busy = true ∧ decode (busyWith .vigEnc lemon hello).pending = .ok .vigEnc ∧
    (busyWith .vigEnc lemon hello).turns = [] := by decide +kernel
theorem witness_illegal_reserved : let s := { State.reset with busy := true, pending := 0x130, turns := [.engine] }
    s.busy = true ∧ decode s.pending = .error .reservedBits ∧ s.turns = .engine :: [] := by decide +kernel
theorem witness_illegal_opcode : let s := { State.reset with busy := true, pending := 0x65 }
    s.busy = true ∧ decode s.pending = .error .undefinedOpcode ∧ s.turns = [] := by decide +kernel
theorem witness_lengths_beyond : let long := { State.reset with klen := 65 }; let large := { State.reset with ilen := 4097 }
    long.params.kbufSize < long.klen.toNat ∧ large.params.ibufSize < large.ilen.toNat := by decide
theorem witness_sizes : SizesOk State.reset.params ∧ SizesOk onceParams := ⟨spec_sizes, once_sizes⟩
theorem witness_same_snapshot : let s1 := sample lemon hello
    let s2 := memWrite .obuf 0 [1] { sample lemon hello with err := 7, olen := 3, draws := 4 }
    s1 ≠ s2 ∧ s1.params = s2.params ∧ s1.klen = s2.klen ∧ s1.ilen = s2.ilen ∧ keyString s1 = keyString s2 ∧ inputString s1 = inputString s2 := by
  decide +kernel
theorem witness_letter_texts : let s1 := sample lemon hello; let s2 := sample lemon [49]
    isLetterCommand .vigEnc = true ∧ isLetterCommand .rotor = true ∧ LegalLengths s1 ∧ LegalLengths s2 ∧
    keyString s1 = keyString s2 ∧ inputString s1 ≠ inputString s2 := by
  unfold LegalLengths; decide +kernel
theorem witness_legal_at_the_bounds : SizesOk fullBuffers.params ∧ LegalLengths fullBuffers ∧ LegalLengths State.reset ∧ IsKeyword (keyString fullBuffers) ∧
    (keyString fullBuffers).length = 64 :=
  ⟨spec_sizes, by unfold LegalLengths IsKeyword; decide +kernel⟩

theorem witness_output_letters :
    okBytes (cmdVigEnc (bytesN lemon) (bytesN hello)) = some [83, 73, 88, 90, 66] ∧
    okBytes (cmdVigDec (bytesN lemon) (bytesN [83, 73, 88, 90, 66])) = some hello ∧
    okBytes (cmdPfEnc (bytesN playfairKey) (bytesN hello)) = some [75, 71, 89, 86, 82, 86] ∧
    okBytes (cmdPfDec (bytesN playfairKey) (bytesN [75, 71, 89, 86, 82, 86])) = some [72, 69, 76, 88, 76, 79] ∧
    okBytes (cmdHillEnc (bytesN hill2) (bytesN hello)) = some [90, 81, 73, 82, 84, 90] ∧
    okBytes (cmdHillDec (bytesN hill2) (bytesN [90, 81, 73, 82, 84, 90])) = some hello := by decide +kernel
theorem witness_output_moves :
    okBytes (cmdRfEnc (bytesN [2]) (bytesN hello)) = some [72, 76, 79, 69, 76] ∧
    okBytes (cmdRfDec (bytesN [2]) (bytesN [72, 76, 79, 69, 76])) = some hello ∧
    okBytes (cmdRtEnc (bytesN [66, 65, 65]) (bytesN hello)) = some [69, 79, 76, 88, 72, 76] ∧
    okBytes (cmdRtDec (bytesN [66, 65, 65]) (bytesN [69, 79, 76, 88, 72, 76])) = some hello ∧
    okBytes (cmdRtEnc (List.replicate 64 65#8) (List.replicate 4096 48#8)) = some [] ∧
    okBytes (cmdRotor rotorParams (bytesN rotorKey) (bytesN [65])) = some [66] := by decide +kernel
theorem witness_output_des :
    okBytes (cmdDesKs (bytesN secret) []) ≠ none ∧
    okBytes (cmdDesEnc (bytesN secret) (bytesN hello)) = some [0x3D, 0x5E, 0xEB, 0xA7, 0xCC, 0x34, 0x44, 0x85] ∧
    okBytes (cmdDesDec (bytesN secret) (bytesN [0x3D, 0x5E, 0xEB, 0xA7, 0xCC, 0x34, 0x44, 0x85])) = some hello ∧
    okBytes (cmdDesEncRaw (bytesN secret) (bytesN (List.replicate 8 0))) ≠ none ∧
    okBytes (cmdDesDecRaw (bytesN secret) (bytesN (List.replicate 8 0))) ≠ none := by decide +kernel

theorem witness_byte_ranges : (0x41 ≤ (0x41#8).toNat ∧ (0x5A#8).toNat ≤ 0x5A) ∧
    (0x61 ≤ (0x61#8).toNat ∧ (0x7A#8).toNat ≤ 0x7A) ∧ (0x40#8).toNat < 0x41 ∧
    (0x5A < (0x5B#8).toNat ∧ (0x60#8).toNat < 0x61) ∧ 0x7A < (0x7B#8).toNat := by decide
theorem witness_pad_block : 0 < 1 ∧ padTo [3, 4] 4 9 = [3, 4, 9, 9] ∧ padTo [3, 4] 2 9 = [3, 4] := by decide
theorem witness_mod_inverse : Nat.gcd (1 % 26) 26 = 1 ∧ Nat.gcd (51 % 26) 26 = 1 ∧ Nat.gcd (0 % 26) 26 ≠ 1 ∧
    Nat.gcd (13 % 26) 26 ≠ 1 := by decide

theorem witness_bad_keyword : let empty := sample [] hello; let space := sample [76, 69, 32] hello
    LegalLengths empty ∧ ¬IsKeyword (keyString empty) ∧ LegalLengths space ∧ ¬IsKeyword (keyString space) ∧
    Instr.rtDec ∈ [Instr.vigEnc, .vigDec, .pfEnc, .pfDec, .rtEnc, .rtDec] := by
  unfold LegalLengths IsKeyword; decide +kernel
theorem witness_keyword : SizesOk (sample lemon hello).params ∧ LegalLengths (sample lemon hello) ∧
    IsKeyword (keyString (sample lemon hello)) :=
  ⟨spec_sizes, by unfold LegalLengths IsKeyword; decide +kernel⟩

theorem witness_matrix_letters : (0 : Letter) ≠ 9 ∧ (25 : Letter) ≠ 9 := by decide
theorem witness_pairs : ((7 : Letter), (4 : Letter)) ∈ pfPairs (bytesN hello) ∧
    ((23 : Letter), (23 : Letter)) ∈ pfPairs (bytesN [88, 88]) := by decide
/-- `jell` spells `(I, E), (L, X), (L, X)`: a pair of different letters, a repeated letter, and a last letter. -/
theorem witness_pairs_spell : PairsSpell [(8, 4), (11, 23), (11, 23)]
    ((normalize (bytesN [106, 101, 108, 108])).map fun x => if x = 9 then 8 else x) :=
  .inl ⟨by decide, [11, 11], rfl, .inr ⟨rfl, [11], rfl, .inr rfl, .inr ⟨rfl, [], rfl, .inl rfl, rfl⟩⟩⟩
theorem witness_matrix : (pfMatrix (normalize (bytesN playfairKey))).length = 25 ∧
    (pfMatrix (normalize (bytesN playfairKey))).Nodup := by decide +kernel
theorem witness_playfair_direction : ((Instr.pfEnc = .pfEnc ∧ (1 : Int) = 1) ∧ (Instr.pfDec = .pfDec ∧ (-1 : Int) = -1)) ∧
    SizesOk (sample playfairKey hello).params ∧ LegalLengths (sample playfairKey hello) ∧
    IsKeyword (keyString (sample playfairKey hello)) :=
  ⟨by decide, spec_sizes, by unfold LegalLengths IsKeyword; decide +kernel⟩
theorem witness_playfair_round_trip : let out := bytesN [75, 71, 89, 86, 82, 86]
    okBytes (cmdPfEnc (bytesN playfairKey) (bytesN hello)) = some (out.map fun b => b.toNat) ∧
    ∀ j, j < 3 → out.getD (2 * j) 0 ≠ out.getD (2 * j + 1) 0 := by decide +kernel

theorem witness_hill_bad_layout : let short := sample [2, 5, 8, 17] []; let large := sample [4, 1, 1, 1, 1] []
    LegalLengths short ∧ ¬HillLayout (keyString short) ∧ LegalLengths large ∧ ¬HillLayout (keyString large) ∧
    ¬HillLayout (keyString State.reset) := by
  unfold LegalLengths HillLayout; decide +kernel
theorem witness_hill_not_invertible : let two := sample [2, 2, 2, 4, 6] []
    let three := sample [3, 0, 0, 0, 0, 0, 0, 0, 0, 0] []
    LegalLengths two ∧ HillLayout (keyString two) ∧ Int.gcd (hillDet (keyString two)) 26 ≠ 1 ∧
    LegalLengths three ∧ HillLayout (keyString three) ∧ Int.gcd (hillDet (keyString three)) 26 ≠ 1 := by
  unfold LegalLengths HillLayout; decide +kernel
theorem witness_hill_invertible : let two := sample hill2 hello; let three := sample hill3 hello
    SizesOk two.params ∧ SizesOk three.params ∧ LegalLengths two ∧ HillLayout (keyString two) ∧ Int.gcd (hillDet (keyString two)) 26 = 1 ∧
    LegalLengths three ∧ HillLayout (keyString three) ∧ Int.gcd (hillDet (keyString three)) 26 = 1 :=
  ⟨spec_sizes, spec_sizes, by unfold LegalLengths HillLayout; decide +kernel⟩
theorem witness_hill_inverse : hillKey (bytesN hill2) = .ok ⟨2, [[5, 8], [17, 3]]⟩ ∧
    hillInverse ⟨2, [[5, 8], [17, 3]]⟩ = .ok [[9, 2], [1, 15]] := ⟨rfl, rfl⟩

theorem witness_rail_turns : 2 ≤ 2 ∧ rail 1 2 = 2 - 1 ∧ rail 2 2 = 0 ∧ 0 < rail 1 3 ∧ rail 1 3 < 3 - 1 := by decide
theorem witness_bad_rail_key : let one := sample [1] hello; let two := sample [3, 0] hello
    LegalLengths one ∧ ((keyString one).getD 0 0).toNat < 2 ∧ LegalLengths two ∧ (keyString two).length ≠ 1 := by
  unfold LegalLengths; decide +kernel
theorem witness_rail_key : let low := sample [2] hello; let high := sample [255] hello
    SizesOk low.params ∧ SizesOk high.params ∧ LegalLengths low ∧ (keyString low).length = 1 ∧ ((keyString low).getD 0 0).toNat = 2 ∧
    LegalLengths high ∧ (keyString high).length = 1 ∧ ((keyString high).getD 0 0).toNat = 255 :=
  ⟨spec_sizes, spec_sizes, by unfold LegalLengths; decide +kernel⟩

theorem witness_grid : let s := sample [66, 65, 65] hello
    SizesOk s.params ∧ LegalLengths s ∧ IsKeyword (keyString s) ∧ 3 = (keyString s).length ∧
    5 = (normalize (inputString s)).length ∧ 2 = ((normalize (inputString s)).length + 3 - 1) / 3 ∧
    [1, 2, 0] = colOrder (normalize (keyString s)) ∧
    -- the third column is one letter shorter, the first is not
    ((if 5 % 3 = 0 ∨ 2 < 5 % 3 then 2 else 2 - 1) = 1) ∧ ((if 5 % 3 = 0 ∨ 0 < 5 % 3 then 2 else 2 - 1) = 2) :=
  ⟨spec_sizes, by unfold LegalLengths IsKeyword; decide +kernel⟩

theorem witness_rotor_modes : rotorParams.mode = .sum ∧ onceParams.rotor.mode = .once ∧
    (1 : Nat) = (if (4 : Letter) = (rotorParams.table .ii).turnover then 1 else 0) ∧
    (0 : Nat) = (if (20 : Letter) = (rotorParams.table .iii).turnover then 1 else 0) := by decide
theorem witness_plugboard : let T := bytesN [65, 66, 32, 99, 100]
    plugboard T = .ok ((((plugIdentity.set 0 1).set 1 0).set 2 3).set 3 2) ∧
    ((∀ t ∈ (splitAtSpaces T).filter (fun t => !t.isEmpty), t.length = 2 ∧ ∀ b ∈ t, letterIndex b ≠ none) ∧
      (normalize T).Nodup) ∧
    (4 : Letter) ∉ normalize T ∧ [0x63#8, 0x64#8] ∈ splitAtSpaces T ∧ letterIndex 0x63#8 = some 2 ∧
    letterIndex 0x64#8 = some 3 := ⟨rfl, by decide +kernel⟩
theorem witness_rotor_settings : SizesOk (sample rotorKey hello).params ∧ LegalLengths (sample rotorKey hello) ∧
    RotorSettingsOk (keyString (sample rotorKey hello)) :=
  ⟨spec_sizes, by unfold LegalLengths; decide +kernel, by decide +kernel, by decide +kernel, by decide +kernel, by decide +kernel,
    by decide +kernel⟩
theorem witness_bad_rotor_settings : let s := sample [6, 2, 3, 65, 65, 65] hello
    SizesOk s.params ∧ LegalLengths s ∧ ¬RotorSettingsOk (keyString s) :=
  ⟨spec_sizes, by unfold LegalLengths; decide +kernel, fun h => absurd (h.selectors 0 (by decide)) (by decide +kernel)⟩
theorem spec_rotor : RotorParamsOk rotorParams :=
  ⟨fun id => by cases id <;> exact ⟨by decide +kernel, by decide +kernel⟩, by decide +kernel, by decide +kernel⟩
theorem witness_rotor_parameters : RotorParamsOk rotorParams ∧ (∀ x : Letter, rotorParams.reflector.getD x.val 0 ≠ x) ∧
    okBytes (cmdRotor rotorParams (bytesN rotorKey) (bytesN [65, 65])) = some [66, 68] :=
  ⟨spec_rotor, by decide +kernel, by decide +kernel⟩

theorem witness_permute : tablePC2.length = 48 ∧ 47 < 48 ∧ 1 ≤ 1 ∧ 64 ≤ 64 ∧ tableE.length = 48 ∧ tableIP.length = 64 := by decide
theorem witness_parity : (∀ n, n < 64 → n % 8 ≠ 7 → (0 : BitVec 64).getMsbD n = (0x0101010101010101 : BitVec 64).getMsbD n) ∧
    (0 : BitVec 64) ≠ 0x0101010101010101 := by decide +kernel
theorem witness_round_groups : 0 < 8 ∧ 7 < 8 ∧
    33 = (permute 48 tableE (0#32) ^^^ 33#48 : BitVec 48).toNat / 64 ^ (7 - 7) % 64 := by decide +kernel

theorem witness_des_key_errors : let short := sample [115] hello; let high := sample [255, 0, 0, 0, 0, 0, 0, 0] hello
    LegalLengths short ∧ (keyString short).length ≠ 8 ∧
    LegalLengths high ∧ (keyString high).length = 8 ∧ ¬AllAscii (keyString high) ∧ (inputString high).length % 8 ≠ 0 := by
  unfold LegalLengths AllAscii; decide +kernel
theorem witness_des_text_errors : let s := sample secret [0x80]
    LegalLengths s ∧ (keyString s).length = 8 ∧ AllAscii (keyString s) ∧ ¬AllAscii (inputString s) ∧
    (inputString s).length % 8 ≠ 0 := by
  unfold LegalLengths AllAscii; decide +kernel
theorem witness_des_text : let part := sample secret hello; let whole := sample secret secret
    SizesOk part.params ∧ SizesOk whole.params ∧ LegalLengths part ∧ (keyString part).length = 8 ∧ AllAscii (keyString part) ∧ AllAscii (inputString part) ∧
    LegalLengths whole ∧ (keyString whole).length = 8 ∧ AllAscii (keyString whole) ∧ (inputString whole).length % 8 = 0 :=
  ⟨spec_sizes, spec_sizes, by unfold LegalLengths AllAscii; decide +kernel⟩
theorem witness_des_raw : let s := sample secret [1, 2, 3, 4, 5, 6, 7, 0xFF]
    SizesOk s.params ∧ LegalLengths s ∧ (keyString s).length = 8 ∧ (inputString s).length % 8 = 0 ∧
    ((Instr.desEncRaw = .desEncRaw ∧ DesDir.enc = .enc) ∧ (Instr.desDecRaw = .desDecRaw ∧ DesDir.dec = .dec)) :=
  ⟨spec_sizes, by unfold LegalLengths; decide +kernel⟩
theorem witness_des_round : let RK := keySchedule (0#64)
    0 < RK.length ∧ 15 < RK.length := by decide +kernel

theorem witness_access_kinds : (Access.load 32 0x10).wellFormed specParams = true ∧ (Access.store 8 0x2000 1).wellFormed specParams = true ∧
    (Access.load 8 0x40).wellFormed specParams = false ∧ State.reset.busy = false := by decide
theorem witness_hazards : let s := busyWith .vigEnc lemon hello
    SizesOk s.params ∧ s.params = specParams ∧ s.busy = true ∧ (Access.store 32 0 1).wellFormed specParams = true ∧ hazardOf specParams (.store 32 0 1) = some .commandWriteWhileBusy ∧
    (Access.store 32 0xC 1).wellFormed specParams = true ∧ hazardOf specParams (.store 32 0xC 1) = some .operandWriteWhileBusy ∧
    (Access.store 8 0x13F 1).wellFormed specParams = true ∧ hazardOf specParams (.store 8 0x13F 1) = some .operandWriteWhileBusy ∧
    (Access.store 8 0x1FFF 1).wellFormed specParams = true ∧ hazardOf specParams (.store 8 0x1FFF 1) = some .operandWriteWhileBusy ∧
    (Access.load 8 0x2000).wellFormed specParams = true ∧ hazardOf specParams (.load 8 0x2000) = some .resultReadWhileBusy ∧
    (Access.load 32 0x10).wellFormed specParams = true ∧ hazardOf specParams (.load 32 0x10) = some .resultReadWhileBusy ∧
    (Access.load 32 4).wellFormed specParams = true ∧ hazardOf specParams (.load 32 4) = none ∧
    (Access.store 8 0x3FFF 1).wellFormed specParams = true ∧ hazardOf specParams (.store 8 0x3FFF 1) = none :=
  ⟨spec_sizes, by decide +kernel⟩
theorem witness_hazard_turn : let s := { busyWith .vigEnc lemon hello with host := [.access (.store 32 0 1)], turns := [.host] }
    SizesOk s.params ∧ s.busy = true ∧ s.host = .access (.store 32 0 1) :: [] ∧ s.turns = .host :: [] ∧
    step s = .fault .commandWriteWhileBusy := by
  exact ⟨spec_sizes, rfl, rfl, rfl, rfl⟩
theorem witness_access_offsets : SizesOk State.reset.params ∧ State.reset.busy = false ∧
    63 < State.reset.params.kbufSize ∧ 4095 < State.reset.params.ibufSize ∧ 8191 < State.reset.params.obufSize ∧
    (∃ j, j < 64 ∧ 0x13F = 0x100 + j) ∧ ∃ j, j < 4096 ∧ 0x1FFF = 0x1000 + j :=
  ⟨spec_sizes, rfl, by decide, by decide, by decide, ⟨63, by decide, rfl⟩, 4095, by decide, rfl⟩

theorem witness_host_turn_sets_busy : let s := { State.reset with host := [hostWr .cmd 0x30] }
    SizesOk s.params ∧ (s.turns = [] ∧ s.busy = false) ∧
    step s = .next { State.reset with pending := 0x30, busy := true } := ⟨spec_sizes, ⟨rfl, rfl⟩, rfl⟩
theorem witness_host_turn_while_busy : let s := { State.reset with busy := true, host := [.wait], turns := [.host] }
    SizesOk s.params ∧ s.turns.head? = some .host ∧
    step s = .next { State.reset with busy := true, host := [.wait], observed := [1] } :=
  ⟨spec_sizes, rfl, rfl⟩
theorem witness_pending_idle : let s := { State.reset with host := [hostWr .cmd 0x30] }
    s.busy = false ∧ step s = .next { State.reset with pending := 0x30, busy := true } ∧
    step { State.reset with host := [.access (.load 16 0)] } = .fault .accessWidth := ⟨rfl, rfl, rfl⟩
theorem witness_run_protocol : let s := { sample lemon hello with host := hostRun .vigEnc ++ hostResult }
    s.busy = false ∧ s.turns = [] ∧ s.host = hostRun .vigEnc ++ hostResult := ⟨rfl, rfl, rfl⟩
theorem witness_reset_turn : ({ busyWith .desKs secret [] with turns := [.reset, .host] } : State).turns =
    .reset :: [.host] := rfl
theorem witness_invariant : Inv (busyWith .vigEnc [65] [66]) ∧
    step (busyWith .vigEnc [65] [66]) = .next (finishOk [66] (busyWith .vigEnc [65] [66])) :=
  ⟨⟨spec_sizes, spec_rotor, by decide, by decide, by decide, by decide, by decide⟩, rfl⟩
theorem witness_busy_schedule : ({ busyWith .vigEnc lemon hello with turns := [.host, .engine] } : State).busy = true := rfl

end Sys2Proof.Tests
end

section
/-! PROOF. What every command is for the engine: `runCommand` over one command rule (R14, R306), and how a rule that
raises errors on its way comes to its answer (R13, R305). -/
namespace Sys2Proof.Machine

/-- The command rule `Cmd_OP(K, I)` of each command (R14); only `ROTOR` reads the parameters (R6). -/
def commandRule (P : Config.RotorParams) : Instr → List Byte → List Byte → Result
  | .vigEnc => cmdVigEnc
  | .vigDec => cmdVigDec
  | .pfEnc => cmdPfEnc
  | .pfDec => cmdPfDec
  | .hillEnc => cmdHillEnc
  | .hillDec => cmdHillDec
  | .rfEnc => cmdRfEnc
  | .rfDec => cmdRfDec
  | .rtEnc => cmdRtEnc
  | .rtDec => cmdRtDec
  | .rotor => cmdRotor P
  | .desKs => cmdDesKs
  | .desEnc => cmdDesEnc
  | .desDec => cmdDesDec
  | .desEncRaw => cmdDesEncRaw
  | .desDecRaw => cmdDesDecRaw

theorem exec_eq_runCommand (i : Instr) (s : State) : exec i s = runCommand (commandRule s.params.rotor i) s := by
  cases i <;> rfl

/-- A rule that goes on after a first part completes exactly when both parts do. -/
theorem result_bind_eq_ok {α β : Type} {x : Except ErrorKind α} {f : α → Except ErrorKind β} {b : β} :
    (x >>= f) = .ok b ↔ ∃ a, x = .ok a ∧ f a = .ok b := by
  cases x <;> simp [bind, Except.bind]

theorem orRaise_eq_ok {α : Type} {v : Option α} {e : ErrorKind} {a : α} : orRaise v e = .ok a ↔ v = some a := by
  cases v <;> simp [orRaise]

end Sys2Proof.Machine
end

section
/-! PROOF. Which errors a command can raise (R302): those that its key and text checks name. -/
namespace Sys2Proof.Machine

/-- The errors a computation can end with are among `es`. -/
def RaisesOnly {α : Type} (es : List ErrorKind) (r : Except ErrorKind α) : Prop := ∀ e, r = .error e → e ∈ es

theorem raisesOnly_ok {α : Type} {es : List ErrorKind} (a : α) : RaisesOnly es (.ok a : Except ErrorKind α) :=
  fun _ h => nomatch h

theorem raisesOnly_error {α : Type} {es : List ErrorKind} {e : ErrorKind} (he : e ∈ es) :
    RaisesOnly es (.error e : Except ErrorKind α) := by
  rintro _ ⟨⟩
  exact he

theorem RaisesOnly.bind {α β : Type} {es : List ErrorKind} {x : Except ErrorKind α} {f : α → Except ErrorKind β}
    (hx : RaisesOnly es x) (hf : ∀ a, RaisesOnly es (f a)) : RaisesOnly es (x >>= f) := by
  cases x with
  | ok a => exact hf a
  | error e => exact raisesOnly_error (hx e rfl)

theorem RaisesOnly.ite {α : Type} {es : List ErrorKind} {p : Prop} [Decidable p] {x y : Except ErrorKind α}
    (hx : RaisesOnly es x) (hy : RaisesOnly es y) : RaisesOnly es (if p then x else y) := by
  split
  · exact hx
  · exact hy

theorem orRaise_raisesOnly {α : Type} {es : List ErrorKind} {e : ErrorKind} (v : Option α) (he : e ∈ es) :
    RaisesOnly es (orRaise v e) := by
  cases v with
  | some a => exact raisesOnly_ok a
  | none => exact raisesOnly_error he

theorem keyword_raisesOnly {es : List ErrorKind} (K : List Byte) (he : .invalidKey ∈ es) :
    RaisesOnly es (keyword K) :=
  .ite (raisesOnly_error he) (orRaise_raisesOnly _ he)

theorem hillKey_raisesOnly {es : List ErrorKind} (K : List Byte) (he : .invalidKey ∈ es) :
    RaisesOnly es (hillKey K) := by
  cases K with
  | nil => exact raisesOnly_error he
  | cons n0 entries => exact .ite (raisesOnly_ok _) (raisesOnly_error he)

theorem hillInverse_raisesOnly {es : List ErrorKind} (k : HillMatrix) (he : .nonInvertibleKey ∈ es) :
    RaisesOnly es (hillInverse k) :=
  .bind (orRaise_raisesOnly _ he) fun _ => raisesOnly_ok _

theorem railKey_raisesOnly {es : List ErrorKind} (K : List Byte) (he : .invalidKey ∈ es) :
    RaisesOnly es (railKey K) := by
  unfold railKey
  split
  · exact .ite (raisesOnly_error he) (raisesOnly_ok _)
  · exact raisesOnly_error he

theorem plugPairs_raisesOnly {es : List ErrorKind} (ts : List (List Byte)) (plug used : List Letter)
    (he : .invalidConfiguration ∈ es) : RaisesOnly es (plugPairs ts plug used) := by
  induction ts generalizing plug used with
  | nil => exact raisesOnly_ok _
  | cons t ts ih =>
    rw [plugPairs]
    split
    · exact .ite (raisesOnly_error he) (ih _ _)
    · exact raisesOnly_error he

/-- Six settings and the plugboard, each checked after those before it (R205). -/
theorem rotorConfig_raisesOnly {es : List ErrorKind} (K : List Byte) (he : .invalidConfiguration ∈ es) :
    RaisesOnly es (rotorConfig K) := by
  unfold rotorConfig
  split
  · exact .bind (orRaise_raisesOnly _ he) fun _ => .bind (orRaise_raisesOnly _ he) fun _ =>
      .bind (orRaise_raisesOnly _ he) fun _ => .bind (orRaise_raisesOnly _ he) fun _ =>
      .bind (orRaise_raisesOnly _ he) fun _ => .bind (orRaise_raisesOnly _ he) fun _ =>
      .bind (plugPairs_raisesOnly _ _ _ he) fun _ => raisesOnly_ok _
  · exact raisesOnly_error he

theorem desKey_raisesOnly {es : List ErrorKind} (K : List Byte) (ascii : Bool) (hlen : .invalidKeyLength ∈ es)
    (htext : .invalidInputEncoding ∈ es) : RaisesOnly es (desKey K ascii) :=
  .ite (raisesOnly_error hlen) (.ite (raisesOnly_error htext) (raisesOnly_ok _))

/-- Every error a command rule raises is one that R302 lists for the command. -/
theorem commandRule_raisesOnly (P : Config.RotorParams) (i : Instr) (K I : List Byte) :
    RaisesOnly (errorsOf i) (commandRule P i K I) := by
  cases i with
  | vigEnc | vigDec | pfEnc | pfDec | rtEnc | rtDec =>
    exact .bind (keyword_raisesOnly K (by decide)) fun _ => raisesOnly_ok _
  | hillEnc | hillDec =>
    exact .bind (hillKey_raisesOnly K (by decide)) fun k =>
      .bind (hillInverse_raisesOnly k (by decide)) fun _ => raisesOnly_ok _
  | rfEnc | rfDec => exact .bind (railKey_raisesOnly K (by decide)) fun _ => raisesOnly_ok _
  | rotor => exact .bind (rotorConfig_raisesOnly K (by decide)) fun _ => raisesOnly_ok _
  | desKs => exact .bind (desKey_raisesOnly K true (by decide) (by decide)) fun _ => raisesOnly_ok _
  | desEnc | desDec =>
    exact .bind (desKey_raisesOnly K true (by decide) (by decide)) fun _ =>
      .ite (raisesOnly_ok _) (raisesOnly_error (by decide))
  | desEncRaw | desDecRaw =>
    exact .bind (desKey_raisesOnly K false (by decide) (by decide)) fun _ =>
      .ite (raisesOnly_ok _) (raisesOnly_error (by decide))

/-- No command raises the reserved error (R303). -/
theorem authenticationFailure_notMem_errorsOf (i : Instr) : ErrorKind.authenticationFailure ∉ errorsOf i := by
  cases i <;> decide

end Sys2Proof.Machine
end

section
/-! PROOF. How long each command's output is (R144, R178, R212, R262), from the length of every part it is made of; and so
every output fits in OBUF where the buffer sizes meet R7. -/
namespace Sys2Proof.Machine

theorem length_flatMap_of_length_eq {α β : Type} {l : List α} {f : α → List β} {n : Nat}
    (h : ∀ a ∈ l, (f a).length = n) : (l.flatMap f).length = l.length * n := by
  rw [List.length_flatMap, List.sum_eq_card_nsmul _ n (by simpa using h), List.length_map, smul_eq_mul]

theorem length_flatMap_le {α β : Type} {l : List α} {f : α → List β} {n : Nat}
    (h : ∀ a ∈ l, (f a).length ≤ n) : (l.flatMap f).length ≤ l.length * n := by
  have := List.sum_le_card_nsmul (l.map fun a => (f a).length) n (by simpa using h)
  rwa [List.length_map, smul_eq_mul, ← List.length_flatMap] at this

theorem stripTrailing_length_le {α : Type} [DecidableEq α] (s : List α) (c : α) :
    (stripTrailing s c).length ≤ s.length := by
  simpa [stripTrailing] using List.length_dropWhile_le (fun x => decide (x = c)) s.reverse

/-- Padding to whole blocks adds less than a block. -/
theorem padTo_length_lt {α : Type} (s : List α) {m : Nat} (c : α) (hm : 0 < m) :
    (padTo s m c).length < s.length + m := by
  simpa [padTo] using Nat.mod_lt _ hm

theorem blocks_length {α : Type} (n count : Nat) (l : List α) : (blocks n count l).length = count := by
  induction count generalizing l with
  | zero => rfl
  | succ count ih => simp [blocks, ih]

/-! ### The letter engines -/

theorem lettersOf_length {K : List Byte} {k : List Letter} (h : lettersOf K = some k) : k.length = K.length := by
  induction K generalizing k with
  | nil => cases h; rfl
  | cons b bs ih =>
    rw [lettersOf] at h
    split at h
    · next x xs _ hxs => cases h; simp [ih hxs]
    · cases h

theorem keyword_length {K : List Byte} {k : List Letter} (h : keyword K = .ok k) :
    k.length = K.length ∧ 0 < K.length := by
  unfold keyword at h
  split at h
  · cases h
  · next hK => exact ⟨lettersOf_length (orRaise_eq_ok.1 h), List.length_pos_of_ne_nil hK⟩

theorem vig_length (p k : List Letter) (sign : Int) : (vig p k sign).length = p.length := by simp [vig]

theorem vigenere_output_length {K I out : List Byte} (h : cmdVigEnc K I = .ok out ∨ cmdVigDec K I = .ok out) :
    out.length = (normalize I).length := by
  rcases h with h | h
  all_goals
    obtain ⟨k, -, ⟨⟩⟩ := result_bind_eq_ok.1 h
    rw [letters_length, vig_length]

theorem splitPairs_length_le (p : List Letter) : (splitPairs p).length ≤ p.length := by
  fun_induction splitPairs p with
  | case1 => simp
  | case2 a => simp
  | case3 a b rest _ ih => simp only [List.length_cons]; omega
  | case4 a b rest _ ih => simp only [List.length_cons] at ih ⊢; omega

theorem pfPair_length (m : List Letter) (d : Int) (a b : Letter) : (pfPair m d a b).length = 2 := by
  simp only [pfPair]
  split_ifs <;> rfl

theorem playfair_output_length_le {d : Int} {K I out : List Byte} (h : playfair d K I = .ok out) :
    out.length ≤ 2 * (normalize I).length := by
  obtain ⟨k, -, ⟨⟩⟩ := result_bind_eq_ok.1 h
  rw [letters_length, length_flatMap_of_length_eq fun _ _ => pfPair_length _ _ _ _, pfPairs]
  have := splitPairs_length_le ((normalize I).map foldJ)
  rw [List.length_map] at this
  omega

theorem hillKey_size {K : List Byte} {k : HillMatrix} (h : hillKey K = .ok k) :
    (k.n = 2 ∨ k.n = 3) ∧ K.length = 1 + k.n * k.n := by
  cases K with
  | nil => cases h
  | cons n0 entries =>
    simp only [hillKey] at h
    split at h
    · next hn => cases h; exact ⟨hn.1, by simp only [List.length_cons]; omega⟩
    · cases h

theorem rowTimes_length (n : Nat) (v : List Letter) (M : List (List Letter)) : (rowTimes n v M).length = n := by
  simp [rowTimes]

theorem hillApply_length_lt (p : List Letter) (M : List (List Letter)) {n : Nat} (hn : 0 < n) :
    (hillApply p M n).length < p.length + n := by
  rw [hillApply, length_flatMap_of_length_eq fun v _ => rowTimes_length n v M, blocks_length]
  exact (Nat.div_mul_le_self _ _).trans_lt (padTo_length_lt p padLetter hn)

theorem hill_output_length_lt {K I out : List Byte} (h : cmdHillEnc K I = .ok out ∨ cmdHillDec K I = .ok out) :
    ∃ n, (n = 2 ∨ n = 3) ∧ K.length = 1 + n * n ∧ out.length < (normalize I).length + n := by
  have hkey : ∃ k, hillKey K = .ok k ∧ ∃ M, out.length ≤ (hillApply (normalize I) M k.n).length := by
    rcases h with h | h
    all_goals
      obtain ⟨k, hk, h⟩ := result_bind_eq_ok.1 h
      obtain ⟨inv, -, ⟨⟩⟩ := result_bind_eq_ok.1 h
      rw [letters_length]
    · exact ⟨k, hk, k.rows, le_rfl⟩
    · exact ⟨k, hk, inv, stripTrailing_length_le _ _⟩
  obtain ⟨k, hk, M, hle⟩ := hkey
  obtain ⟨hn, hK⟩ := hillKey_size hk
  exact ⟨k.n, hn, hK, hle.trans_lt (hillApply_length_lt _ _ (by omega))⟩

theorem countP_lt_succ {α : Type} (l : List α) (f : α → Nat) (r : Nat) :
    l.countP (fun a => f a < r + 1) = l.countP (fun a => f a < r) + l.countP (fun a => f a == r) := by
  induction l with
  | nil => rfl
  | cons a l ih =>
    simp only [List.countP_cons, ih, decide_eq_true_eq, beq_iff_eq]
    split_ifs <;> omega

/-- Taken value by value, the elements with a value below `r` are as many as they are in the list. -/
theorem length_flatMap_filter_range {α : Type} (l : List α) (f : α → Nat) (r : Nat) :
    ((List.range r).flatMap fun v => l.filter fun a => f a == v).length = l.countP fun a => f a < r := by
  induction r with
  | zero => simp
  | succ r ih =>
    rw [List.range_succ, List.flatMap_append, List.length_append, ih, countP_lt_succ, List.flatMap_singleton,
      List.countP_eq_length_filter (p := fun a => f a == r)]

theorem railEncrypt_length_le (p : List Letter) (r : Nat) : (railEncrypt p r).length ≤ p.length := by
  have h := length_flatMap_filter_range p.zipIdx (fun xi => rail xi.2 r) r
  have hle := List.countP_le_length (p := fun xi => decide (rail xi.2 r < r)) (l := p.zipIdx)
  simp only [List.length_flatMap, railEncrypt, railLetters, List.length_map, List.length_zipIdx] at h hle ⊢
  omega

theorem popRails_length_le (r : Nat) (is : List Nat) (queues : List (List Letter)) :
    (popRails r is queues).length ≤ is.length := by
  induction is generalizing queues with
  | nil => rfl
  | cons i is ih =>
    rw [popRails]
    split
    · exact (ih _).trans (Nat.le_succ _)
    · exact Nat.succ_le_succ (ih _)

theorem railDecrypt_length_le (c : List Letter) (r : Nat) : (railDecrypt c r).length ≤ c.length := by
  simpa [railDecrypt] using popRails_length_le r (List.range c.length) (railQueues c r)

theorem railFence_output_length_le {K I out : List Byte} (h : cmdRfEnc K I = .ok out ∨ cmdRfDec K I = .ok out) :
    out.length ≤ (normalize I).length := by
  rcases h with h | h
  all_goals obtain ⟨r, -, ⟨⟩⟩ := result_bind_eq_ok.1 h
  · simpa using railEncrypt_length_le (normalize I) r
  · simpa using railDecrypt_length_le (normalize I) r

theorem colOrder_length (k : List Letter) : (colOrder k).length = k.length := by
  rw [colOrder, List.length_insertionSort, List.length_range]

/-- The cells of the grid are the letters and less than a row of padding (R175). -/
theorem mul_gridRows_le (len m : Nat) : m * gridRows len m ≤ len + m - 1 := Nat.mul_div_le _ _

theorem rowEncrypt_length (p k : List Letter) : (rowEncrypt p k).length = k.length * gridRows p.length k.length := by
  rw [rowEncrypt, length_flatMap_of_length_eq (n := gridRows p.length k.length) fun _ _ => by simp, colOrder_length]

theorem rowDecrypt_length_le (c k : List Letter) : (rowDecrypt c k).length ≤ k.length * gridRows c.length k.length := by
  rw [rowDecrypt, mul_comm]
  refine (length_flatMap_le (n := k.length) fun row _ => ?_).trans (by rw [List.length_range])
  exact (List.length_filterMap_le _ _).trans (by rw [List.length_range])

theorem rowTransposition_output_length_le {K I out : List Byte}
    (h : cmdRtEnc K I = .ok out ∨ cmdRtDec K I = .ok out) : out.length ≤ (normalize I).length + K.length - 1 := by
  rcases h with h | h
  all_goals
    obtain ⟨k, hk, ⟨⟩⟩ := result_bind_eq_ok.1 h
    rw [letters_length, ← (keyword_length hk).1]
  · exact (rowEncrypt_length _ _).trans_le (mul_gridRows_le _ _)
  · exact (stripTrailing_length_le _ _).trans ((rowDecrypt_length_le _ _).trans (mul_gridRows_le _ _))

theorem rotorRun_length (P : Config.RotorParams) (c : RotorSettings) (pos : Slots Letter) (p : List Letter) :
    (rotorRun P c pos p).length = p.length := by
  induction p generalizing pos with
  | nil => rfl
  | cons x xs ih => simp [rotorRun, ih]

theorem rotor_output_length {P : Config.RotorParams} {K I out : List Byte} (h : cmdRotor P K I = .ok out) :
    out.length = (normalize I).length := by
  obtain ⟨c, -, ⟨⟩⟩ := result_bind_eq_ok.1 h
  rw [letters_length, rotorRun_length]

/-! ### DES -/

theorem keyRounds_length (shifts : List Nat) (C D : BitVec 28) : (keyRounds shifts C D).length = shifts.length := by
  induction shifts generalizing C D with
  | nil => rfl
  | cons sh rest ih => simp [keyRounds, ih]

theorem keySchedule_length (k : BitVec 64) : (keySchedule k).length = 16 := keyRounds_length _ _ _

theorem bytesOfBlock_length {w : Nat} (n : Nat) (v : BitVec w) : (bytesOfBlock n v).length = n := by
  simp [bytesOfBlock]

theorem desBlocks_length (RK : List (BitVec 48)) (dir : DesDir) (T : List Byte) :
    (desBlocks RK dir T).length = T.length / 8 * 8 := by
  rw [desBlocks, length_flatMap_of_length_eq fun _ _ => bytesOfBlock_length _ _, blocks_length]

theorem desKey_length {K : List Byte} {ascii : Bool} {k : BitVec 64} (h : desKey K ascii = .ok k) : K.length = 8 := by
  unfold desKey at h
  split at h
  · cases h
  · next hK => exact not_not.1 hK

theorem desKs_output_length {K I out : List Byte} (h : cmdDesKs K I = .ok out) : out.length = 96 := by
  obtain ⟨k, -, ⟨⟩⟩ := result_bind_eq_ok.1 h
  rw [length_flatMap_of_length_eq fun _ _ => bytesOfBlock_length _ _, keySchedule_length]

/-- A text check lets an output through only unchanged. -/
theorem eq_of_check_eq_ok {p : Prop} [Decidable p] {v out : List Byte} {e : ErrorKind}
    (h : (if p then .ok v else .error e : Result) = .ok out) : out = v := by
  split at h
  · cases h; rfl
  · cases h

theorem desEnc_output_length_lt {K I out : List Byte} (h : cmdDesEnc K I = .ok out) :
    K.length = 8 ∧ out.length < I.length + 8 := by
  obtain ⟨k, hk, h⟩ := result_bind_eq_ok.1 h
  refine ⟨desKey_length hk, ?_⟩
  rw [eq_of_check_eq_ok h, desBlocks_length]
  exact (Nat.div_mul_le_self _ _).trans_lt (padTo_length_lt I _ (by decide))

theorem desDec_output_length_le {K I out : List Byte} (h : cmdDesDec K I = .ok out) : out.length ≤ I.length := by
  obtain ⟨k, -, h⟩ := result_bind_eq_ok.1 h
  rw [eq_of_check_eq_ok h]
  exact (stripTrailing_length_le _ _).trans ((desBlocks_length _ _ _).trans_le (Nat.div_mul_le_self _ _))

theorem desRaw_output_length_le {K I out : List Byte} (h : cmdDesEncRaw K I = .ok out ∨ cmdDesDecRaw K I = .ok out) :
    out.length ≤ I.length := by
  rcases h with h | h
  all_goals
    obtain ⟨k, -, h⟩ := result_bind_eq_ok.1 h
    rw [eq_of_check_eq_ok h]
    exact (desBlocks_length _ _ _).trans_le (Nat.div_mul_le_self _ _)

/-! ### Every command -/

/-- No output is longer than the three sizes that R7 holds OBUF to: twice the text, the text and the key together, and the
sixteen round keys. -/
theorem commandRule_output_length_le {P : Config.RotorParams} {i : Instr} {K I out : List Byte}
    (h : commandRule P i K I = .ok out) :
    out.length ≤ 2 * I.length ∨ out.length ≤ I.length + K.length ∨ out.length ≤ 96 := by
  have hI := normalize_length_le I
  cases i with
  | vigEnc => have := vigenere_output_length (.inl h); omega
  | vigDec => have := vigenere_output_length (.inr h); omega
  | pfEnc | pfDec => have := playfair_output_length_le h; omega
  | hillEnc => obtain ⟨n, rfl | rfl, hK, hlen⟩ := hill_output_length_lt (.inl h) <;> omega
  | hillDec => obtain ⟨n, rfl | rfl, hK, hlen⟩ := hill_output_length_lt (.inr h) <;> omega
  | rfEnc => have := railFence_output_length_le (.inl h); omega
  | rfDec => have := railFence_output_length_le (.inr h); omega
  | rtEnc => have := rowTransposition_output_length_le (.inl h); omega
  | rtDec => have := rowTransposition_output_length_le (.inr h); omega
  | rotor => have := rotor_output_length h; omega
  | desKs => have := desKs_output_length (I := I) h; omega
  | desEnc => have := desEnc_output_length_lt h; omega
  | desDec => have := desDec_output_length_le h; omega
  | desEncRaw => have := desRaw_output_length_le (.inl h); omega
  | desDecRaw => have := desRaw_output_length_le (.inr h); omega

/-- The output of a command with legal lengths fits in OBUF (R7). -/
theorem commandRule_output_fits {P : Config.RotorParams} {i : Instr} {s : State} {out : List Byte}
    (hp : SizesOk s.params) (hl : LegalLengths s)
    (h : commandRule P i (keyString s) (inputString s) = .ok out) : out.length ≤ s.params.obufSize := by
  have hbound := commandRule_output_length_le h
  obtain ⟨hK, hI⟩ := hl
  have := hp.doubled
  have := hp.joined
  have := hp.roundKeys
  simp only [keyString, inputString, memRead_length] at hbound
  omega

end Sys2Proof.Machine
end

section
/-! PROOF. What a command leaves in ERR, OLEN and OBUF is a function of its snapshot (R56). -/
namespace Sys2Proof.Machine

/-- OLEN after a completed command is at most the length of its output, whatever the size of OBUF. -/
theorem finishOk_olen_le (out : List Byte) (s : State) : (finishOk out s).olen.toNat ≤ out.length := by
  simpa [finishOk] using Nat.mod_le _ _

/-- The output bytes of a completed command. -/
theorem readByte_finishOk_output (out : List Byte) (s : State) {k : Nat} (h : k < out.length) :
    (finishOk out s).readByte (0x2000 + k) = out.getD k 0 := by
  rw [finishOk, readByte_endCommand, readByte_memWrite, if_pos]
  · simp only [bufBase, Config.obufBase, Nat.add_zero, Nat.add_sub_cancel_left]
  · simp only [bufBase, Config.obufBase]; omega

/-- Two ends of commands agree in ERR, OLEN and the output bytes `OBUF[0..OLEN)`. -/
def SameResult (t1 t2 : State) : Prop :=
  t1.err = t2.err ∧ t1.olen = t2.olen ∧ ∀ k, k < t1.olen.toNat → t1.readByte (0x2000 + k) = t2.readByte (0x2000 + k)

theorem raiseError_sameResult (e : ErrorKind) (s1 s2 : State) : SameResult (raiseError e s1) (raiseError e s2) :=
  ⟨rfl, rfl, fun k hk => absurd hk (by simp [raiseError])⟩

theorem finishOk_sameResult (out : List Byte) (s1 s2 : State) : SameResult (finishOk out s1) (finishOk out s2) := by
  refine ⟨rfl, rfl, fun k hk => ?_⟩
  have hout : k < out.length := hk.trans_le (finishOk_olen_le out s1)
  rw [readByte_finishOk_output out s1 hout, readByte_finishOk_output out s2 hout]

theorem finishCommand_sameResult (r : Result) (s1 s2 : State) :
    SameResult (finishCommand r s1) (finishCommand r s2) := by
  cases r with
  | ok out => exact finishOk_sameResult out s1 s2
  | error e => exact raiseError_sameResult e s1 s2

/-- Settles O7: a command is a rule applied to the snapshot, and both of its ends write what the rule answers. -/
theorem commandDependsOnlyOnItsSnapshot : Obligations.CommandDependsOnlyOnItsSnapshot := by
  intro i s1 s2 hparams hklen hilen hkey hinput
  have hlegal : LegalLengths s1 ↔ LegalLengths s2 := by simp only [LegalLengths, hparams, hklen, hilen]
  rw [exec_eq_runCommand, exec_eq_runCommand, hparams]
  by_cases h : LegalLengths s1
  · rw [runCommand_of_legal _ h, runCommand_of_legal _ (hlegal.1 h), hkey, hinput]
    exact ⟨_, _, rfl, rfl, finishCommand_sameResult _ s1 s2⟩
  · rw [runCommand_of_illegal _ h, runCommand_of_illegal _ (mt hlegal.2 h)]
    exact ⟨_, _, rfl, rfl, raiseError_sameResult _ s1 s2⟩

end Sys2Proof.Machine
end

section
/-! PROOF. The invariant, kept by each operation of the core and of the host, and so by every step. -/
namespace Sys2Proof.Machine

/-- The invariant speaks of the parameters, the memory, ERR and OLEN alone. -/
theorem Inv.congr {s t : State} (hs : Inv s) (hparams : t.params = s.params) (hmem : t.mem = s.mem)
    (herr : t.err = s.err) (holen : t.olen = s.olen) : Inv t where
  sizes := hparams ▸ hs.sizes
  rotor := hparams ▸ hs.rotor
  memWf := hmem ▸ hs.memWf
  memMapped := by rw [hmem, hparams]; exact hs.memMapped
  codeDefined := herr ▸ hs.codeDefined
  outputFits := by rw [holen, hparams]; exact hs.outputFits
  failedEmpty := by rw [herr, holen]; exact hs.failedEmpty

theorem inv_resetCore {s : State} (hs : Inv s) : Inv (resetCore s) where
  sizes := hs.sizes
  rotor := hs.rotor
  memWf := rfl
  memMapped := by simp
  codeDefined := .inl (by simp)
  outputFits := by simp
  failedEmpty _ := rfl

theorem inv_writeByte {s : State} (hs : Inv s) {off : Nat} (hoff : inBuffers s.params off = true) (b : Byte) :
    Inv (s.writeByte off b) where
  sizes := hs.sizes
  rotor := hs.rotor
  memWf := writeByte_wf s off b hs.memWf
  memMapped c hc := by
    obtain rfl | hc := mem_insert hc
    · exact hoff
    · exact hs.memMapped c hc
  codeDefined := hs.codeDefined
  outputFits := hs.outputFits
  failedEmpty := hs.failedEmpty

/-- Every code but the reserved one is a code the invariant allows (R301, R303). -/
theorem errorCode_defined {e : ErrorKind} (he : e ≠ .authenticationFailure) :
    (errorCode e).toNat ≤ 5 ∨ (errorCode e).toNat = 7 := by
  cases e with
  | authenticationFailure => exact absurd rfl he
  | _ => decide

theorem inv_raiseError {s : State} (hs : Inv s) {e : ErrorKind} (he : e ≠ .authenticationFailure) :
    Inv (raiseError e s) where
  sizes := hs.sizes
  rotor := hs.rotor
  memWf := hs.memWf
  memMapped := hs.memMapped
  codeDefined := errorCode_defined he
  outputFits := by simp [raiseError]
  failedEmpty _ := rfl

theorem inv_finishOk {s : State} (hs : Inv s) {out : List Byte} (hout : out.length ≤ s.params.obufSize) :
    Inv (finishOk out s) where
  sizes := hs.sizes
  rotor := hs.rotor
  memWf := memWrite_wf .obuf 0 out s hs.memWf
  memMapped c hc := by
    obtain ⟨hlo, hhi⟩ | hc := mem_insertBytes hc
    · have hcell : c.1 - Config.obufBase < s.params.obufSize ∧ c.1 = Config.obufBase + (c.1 - Config.obufBase) := by
        simp only [bufBase] at hlo hhi; omega
      exact (inBuffers_iff s.params c.1).2 ⟨.obuf, c.1 - Config.obufBase, hcell⟩
    · exact hs.memMapped c hc
  codeDefined := .inl (by simp [finishOk, okCode])
  outputFits := (finishOk_olen_le out s).trans hout
  failedEmpty h := absurd rfl h

/-- A command keeps the invariant: its output fits in OBUF, and its error is not the reserved one. -/
theorem inv_exec {i : Instr} {s t : State} (hs : Inv s) (h : exec i s = .next t) : Inv t := by
  rw [exec_eq_runCommand] at h
  obtain ⟨hl, out, hout, hrun⟩ | ⟨-, e, he, hrun⟩ | ⟨-, hrun⟩ := runCommand_cases (commandRule s.params.rotor i) s
  all_goals
    rw [hrun] at h
    cases h
  · exact inv_finishOk hs (commandRule_output_fits hs.sizes hl hout)
  · refine inv_raiseError hs fun hauth => authenticationFailure_notMem_errorsOf i ?_
    exact hauth ▸ commandRule_raisesOnly _ _ _ _ e he
  · exact inv_raiseError hs (by decide)

theorem inv_coreStep {s t : State} (hs : Inv s) (h : coreStep s = .next t) : Inv t := by
  unfold coreStep at h
  split at h
  · exact inv_exec hs h
  · cases h
    exact inv_raiseError hs (by decide)

theorem inv_hostAccess {a : Access} {s t : State} {v : Option Word} (hs : Inv s)
    (h : hostAccess a s = .ok (v, t)) : Inv t := by
  obtain ⟨_, _, _, -, -, rfl⟩ | ⟨_, off, w, -, -, hstore⟩ := hostAccess_cases hs.sizes h
  · exact hs
  · obtain ⟨-, -, rfl⟩ | ⟨-, -, rfl⟩ | ⟨-, -, rfl⟩ | ⟨-, hoff, -, rfl⟩ | rfl := hstore
    · exact hs.congr rfl rfl rfl rfl
    · exact hs.congr rfl rfl rfl rfl
    · exact hs.congr rfl rfl rfl rfl
    · exact inv_writeByte hs hoff _
    · exact hs

theorem inv_hostTurn {s t : State} (hs : Inv s) (h : hostTurn s = .next t) : Inv t := by
  obtain ⟨-, hturn⟩ | ⟨op, rest, -, ⟨f, -, hturn⟩ | ⟨v, s', hacc, hturn⟩ | ⟨s', hacc, hturn⟩⟩ := hostTurn_cases s
  all_goals
    rw [hturn] at h
    cases h
  · exact hs
  all_goals exact (inv_hostAccess hs hacc).congr rfl rfl rfl rfl

/-- Settles O59, by the kinds of step: a turn of the host, a command of the engine, an idle turn, a reset. -/
theorem stepKeepsTheInvariant : Obligations.StepKeepsTheInvariant := by
  intro s t hs h
  have hturn : ∀ rest, Inv { s with turns := rest } := fun _ => hs.congr rfl rfl rfl rfl
  obtain ⟨rest, -, hstep⟩ | ⟨rest, -, -, hstep⟩ | ⟨rest, -, -, hstep⟩ | ⟨rest, -, hstep⟩ := step_cases s
  all_goals rw [hstep] at h
  · exact inv_hostTurn (hturn rest) h
  · exact inv_coreStep (hturn rest) h
  · cases h
    exact hturn rest
  · cases h
    exact inv_resetCore (hturn rest)

end Sys2Proof.Machine
end

section
/-! PROOF. `Permute` bit by bit (R10): the value it builds has one bit for each entry of its table. -/
namespace Sys2Proof.Machine

theorem desBit_eq_toNat {w : Nat} (v : BitVec w) (i : Nat) : desBit v i = (v.getMsbD (i - 1)).toNat := by
  unfold desBit
  cases v.getMsbD (i - 1) <;> rfl

/-- Shifting a bit in at the right moves every other bit one place up. -/
theorem testBit_mul_two_add_toNat (x : Nat) (b : Bool) (j : Nat) :
    (x * 2 + b.toNat).testBit j = if j = 0 then b else x.testBit (j - 1) := by
  cases j with
  | zero => cases b <;> simp [Nat.testBit_zero]
  | succ j =>
    have hhalf : (x * 2 + b.toNat) / 2 = x := by have := b.toNat_lt; omega
    simp [Nat.testBit_succ, hhalf]

/-- The value of a table's bits, the first entry the most significant: bit `j` is named by the entry `j` places from the
end. -/
theorem testBit_foldl_desBit {n : Nat} (v : BitVec n) (T : List Nat) {j : Nat} (hj : j < T.length) :
    (T.foldl (fun acc i => acc * 2 + desBit v i) 0).testBit j = v.getMsbD (T.getD (T.length - 1 - j) 0 - 1) := by
  induction T using List.reverseRecOn generalizing j with
  | nil => simp at hj
  | append_singleton T i ih =>
    rw [List.foldl_append, List.foldl_cons, List.foldl_nil, desBit_eq_toNat, testBit_mul_two_add_toNat]
    rw [List.length_append, List.length_singleton] at hj ⊢
    cases j with
    | zero => simp
    | succ j =>
      have hidx : T.length + 1 - 1 - (j + 1) = T.length - 1 - j := by omega
      rw [if_neg (by omega), Nat.add_sub_cancel, ih (by omega), hidx, List.getD_append _ _ _ _ (by omega)]

/-- Settles O40: bit `k` from the top is bit `m - 1 - k` from the bottom, which entry `k` of the table names. -/
theorem permuteTakesTheNamedBits : Obligations.PermuteTakesTheNamedBits := by
  intro n m T v
  constructor
  · rintro k rfl hk
    have hidx : T.length - 1 - (T.length - 1 - k) = k := by omega
    rw [permute, BitVec.getMsbD_eq_getLsbD, BitVec.getLsbD_ofNat, testBit_foldl_desBit v T (by omega), hidx]
    simp [hk]
    omega
  · intro k hk1 hkn
    have hidx : n - 1 - (k - 1) = n - k := by omega
    rw [BitVec.getMsbD_eq_getLsbD, hidx, decide_eq_true (by omega), Bool.true_and]

end Sys2Proof.Machine
end

section
/-! PROOF. The host's side of the register window (10_state.md): what each access returns and changes, what no turn of the
host can do to the results, and that PENDING cannot be seen while BUSY = 0. -/
namespace Sys2Proof.Machine

/-! ### The parameters and the state of reset -/

theorem specParams_sizesOk : SizesOk specParams where
  blocks := by decide
  doubled := by decide
  joined := by decide
  roundKeys := by decide
  kbufEnds := by decide
  ibufEnds := by decide
  obufEnds := by decide

/-- The rotors of R200 are bijections, and reflector B is an involution (R201). -/
theorem rotorParams_ok : RotorParamsOk rotorParams where
  wiring id := by cases id <;> exact ⟨rfl, by decide⟩
  reflector := ⟨rfl, by decide⟩

theorem inv_reset : Inv State.reset where
  sizes := specParams_sizesOk
  rotor := rotorParams_ok
  memWf := reset_mem_wf
  memMapped _ hc := nomatch hc
  codeDefined := .inl (Nat.zero_le 5)
  outputFits := Nat.zero_le _
  failedEmpty _ := rfl

/-- Settles O57: the values are those of the definition, and the invariant is `inv_reset`. -/
theorem resetStateMeetsTheInvariant : Obligations.ResetStateMeetsTheInvariant :=
  ⟨rfl, rfl, rfl, rfl, by decide, inv_reset, by decide, rfl, rfl, rfl⟩

/-! ### What each access returns and changes -/

theorem hostAccess_of_no_target {a : Access} {s : State} {f : Fault}
    (h : targetOf s.params a.bits a.offset = .error f) : hostAccess a s = .error f := by
  cases a with
  | load bits off => exact congrArg (· >>= _) h
  | store bits off v => exact congrArg (· >>= _) h

theorem hostAccess_load_of_target {bits off : Nat} {s : State} {t : Target} (h : targetOf s.params bits off = .ok t) :
    hostAccess (.load bits off) s = (hostRead t off s).map fun v => (some v, s) := by
  simp only [hostAccess, h, bind, Except.bind, Except.map]

theorem hostAccess_store_of_target {bits off : Nat} {s : State} {t : Target} (h : targetOf s.params bits off = .ok t)
    (v : Word) : hostAccess (.store bits off v) s = (hostWrite t off v s).map fun s' => (none, s') := by
  simp only [hostAccess, h, bind, Except.bind, Except.map]

/-- STATUS is BUSY in bit 0 and ERR from bit 8 on (R25): the two fields do not overlap. -/
theorem statusWord_toNat (s : State) : (statusWord s).toNat = (if s.busy then 1 else 0) + s.err.toNat * 256 := by
  have herr : s.err.toNat < 2 ^ 4 := s.err.isLt
  have hbusy : (BitVec.ofBool s.busy).toNat < 2 ^ 8 := by have := (BitVec.ofBool s.busy).isLt; omega
  have hfits (n : Nat) (hn : n < 2 ^ 32) : n % 2 ^ Config.regWidth = n := Nat.mod_eq_of_lt hn
  have hval : (BitVec.ofBool s.busy).toNat = if s.busy then 1 else 0 := by cases s.busy <;> rfl
  rw [statusWord, BitVec.toNat_or, BitVec.toNat_shiftLeft, BitVec.toNat_setWidth, BitVec.toNat_setWidth,
    Nat.shiftLeft_eq, hfits s.err.toNat (by omega), hfits _ (by omega), hfits _ (by omega), Nat.lor_comm, Nat.mul_comm,
    ← Nat.two_pow_add_eq_or_of_lt hbusy, hval, Nat.add_comm, Nat.mul_comm]

/-- A read of a buffer byte while idle returns the byte (R58). -/
theorem hostAccess_load_byte_idle (b : Buf) {k : Nat} {s : State} (hp : SizesOk s.params) (hb : s.busy = false)
    (h : k < bufSize s.params b) :
    hostAccess (.load 8 (bufBase b + k)) s = .ok (some ((s.readByte (bufBase b + k)).setWidth 32), s) := by
  rw [hostAccess_load_byte b hp h]
  cases b with
  | kbuf | ibuf => rfl
  | obuf => simp [hostRead, hb, Except.map]

/-- A write of a byte of KBUF or IBUF while idle stores the low byte of the value (R58). -/
theorem hostAccess_store_byte_idle {b : Buf} (hbuf : b ≠ .obuf) {k : Nat} {s : State} (hp : SizesOk s.params)
    (hb : s.busy = false) (h : k < bufSize s.params b) (w : Word) :
    hostAccess (.store 8 (bufBase b + k) w) s = .ok (none, s.writeByte (bufBase b + k) (w.setWidth 8)) := by
  rw [hostAccess_store_byte b hp h]
  cases b with
  | kbuf | ibuf => simp [hostWrite, hb, Except.map]
  | obuf => exact absurd rfl hbuf

/-- Storing a byte changes that byte and nothing else. -/
theorem writeByte_effects (s : State) (a : Nat) (b : Byte) :
    (s.writeByte a b).readByte a = b ∧ (∀ a', a' ≠ a → (s.writeByte a b).readByte a' = s.readByte a') ∧
      CommandFrame s (s.writeByte a b) ∧ (s.writeByte a b).busy = s.busy ∧ (s.writeByte a b).err = s.err ∧
      (s.writeByte a b).olen = s.olen :=
  ⟨by rw [readByte_writeByte, if_pos rfl], fun a' h => by rw [readByte_writeByte, if_neg h],
    ⟨rfl, rfl, rfl, rfl, rfl, rfl, rfl, rfl⟩, rfl, rfl, rfl⟩

/-- Settles O53: register by register, then buffer by buffer, from the laws of the address map. -/
theorem hostAccessEffects : Obligations.HostAccessEffects := by
  refine ⟨fun s => ⟨_, hostAccess_load_reg .status s, statusWord_toNat s⟩, fun s w k hp hb => ?_⟩
  refine ⟨hostAccess_load_reg .cmd s, hostAccess_load_reg .klen s, hostAccess_load_reg .ilen s,
    (hostAccess_load_reg .olen s).trans ?olenRead, (hostAccess_store_reg .cmd w s).trans ?cmdWrite,
    hostAccess_store_reg .status w s, (hostAccess_store_reg .klen w s).trans ?klenWrite,
    (hostAccess_store_reg .ilen w s).trans ?ilenWrite, hostAccess_store_reg .olen w s,
    hostAccess_load_byte_idle .kbuf hp hb, hostAccess_load_byte_idle .ibuf hp hb, hostAccess_load_byte_idle .obuf hp hb,
    fun hk => hostAccess_store_byte .obuf hp hk w, ?operandWrite⟩
  case olenRead => simp [hostRead, hb, Except.map]
  case cmdWrite => simp [hostWrite, hb, Except.map, latchCommand]
  case klenWrite | ilenWrite => simp [hostWrite, hb, Except.map]
  case operandWrite =>
    rintro a (⟨j, hj, rfl⟩ | ⟨j, hj, rfl⟩)
    · exact ⟨_, hostAccess_store_byte_idle (b := .kbuf) (by decide) hp hb hj w, writeByte_effects s _ _⟩
    · exact ⟨_, hostAccess_store_byte_idle (b := .ibuf) (by decide) hp hb hj w, writeByte_effects s _ _⟩

/-! ### A turn of the host -/

theorem step_of_host_turn {s : State} {rest : List Turn} (h : s.turns = .host :: rest) :
    step s = hostTurn { s with turns := rest } := by
  simp [step, transition, h]

theorem step_of_unscheduled_idle {s : State} (h : s.turns = []) (hb : s.busy = false) : step s = hostTurn s := by
  simp [step, transition, h, hb]

theorem step_of_engine_turn_idle {s : State} {rest : List Turn} (h : s.turns = .engine :: rest) (hb : s.busy = false) :
    step s = .next { s with turns := rest } := by
  simp [step, transition, engineTurn, h, hb]

theorem step_of_reset_turn {s : State} {rest : List Turn} (h : s.turns = .reset :: rest) :
    step s = .next (resetCore { s with turns := rest }) := by
  simp [step, transition, h]

theorem hostTurn_of_end {s : State} (h : s.host = []) : hostTurn s = .next s := by
  simp [hostTurn, h]

section
variable {s s' : State} {op : HostOp} {rest : List HostOp}

theorem hostTurn_of_fault {f : Fault} (hop : s.host = op :: rest) (h : hostAccess (firstAccess op) s = .error f) :
    hostTurn s = .fault f := by
  simp [hostTurn, hop, h]

theorem hostTurn_of_read {v : Word} (hop : s.host = op :: rest)
    (h : hostAccess (firstAccess op) s = .ok (some v, s')) :
    hostTurn s = .next { s' with host := afterRead op v ++ rest, observed := s'.observed ++ [v] } := by
  simp [hostTurn, hop, h]

theorem hostTurn_of_write (hop : s.host = op :: rest) (h : hostAccess (firstAccess op) s = .ok (none, s')) :
    hostTurn s = .next { s' with host := rest } := by
  simp [hostTurn, hop, h]

end

theorem firstAccess_eq_store {op : HostOp} {bits off : Nat} {w : Word} (h : firstAccess op = .store bits off w) :
    op = .access (.store bits off w) := by
  cases op with
  | access a => exact congrArg _ h
  | wait | copyByte _ | readOutput => cases h

/-- A completed write at offset 0 is 32 bits wide (R52). -/
theorem bits_of_store_cmd {bits : Nat} {w : Word} {s s' : State} {v : Option Word}
    (h : hostAccess (.store bits 0x000 w) s = .ok (v, s')) : bits = 32 := by
  cases htarget : targetOf s.params bits 0x000 with
  | error f => cases (hostAccess_of_no_target (a := .store bits 0x000 w) htarget).symm.trans h
  | ok t =>
    obtain ⟨_, -, hbits, -⟩ | ⟨b, -, -, hbase, -⟩ := targetOf_cases htarget
    · exact hbits
    · cases b <;> exact absurd hbase (by decide)

/-- No access of the host changes ERR, OLEN or a byte of OBUF (R22, R28, R58). -/
theorem hostAccess_keeps_results {a : Access} {s s' : State} {v : Option Word} (hp : SizesOk s.params)
    (h : hostAccess a s = .ok (v, s')) :
    s'.err = s.err ∧ s'.olen = s.olen ∧ ∀ a', 0x2000 ≤ a' → s'.readByte a' = s.readByte a' := by
  obtain ⟨_, _, _, -, -, rfl⟩ | ⟨_, off, w, -, -, hstore⟩ := hostAccess_cases hp h
  · exact ⟨rfl, rfl, fun _ _ => rfl⟩
  · obtain ⟨-, -, rfl⟩ | ⟨-, -, rfl⟩ | ⟨-, -, rfl⟩ | ⟨-, -, hoff, rfl⟩ | rfl := hstore
    · exact ⟨rfl, rfl, fun _ _ => rfl⟩
    · exact ⟨rfl, rfl, fun _ _ => rfl⟩
    · exact ⟨rfl, rfl, fun _ _ => rfl⟩
    · exact ⟨rfl, rfl, fun a' ha' => by rw [readByte_writeByte, if_neg (by omega)]⟩
    · exact ⟨rfl, rfl, fun _ _ => rfl⟩

/-- An access of the host leaves BUSY as it is, or is the CMD write that sets it (R22, R24). -/
theorem hostAccess_busy {a : Access} {s s' : State} {v : Option Word} (hp : SizesOk s.params)
    (h : hostAccess a s = .ok (v, s')) :
    s'.busy = s.busy ∨ (s.busy = false ∧ ∃ w, a = .store 32 0x000 w ∧ v = none ∧ s' = latchCommand w s) := by
  obtain ⟨_, _, _, -, -, rfl⟩ | ⟨bits, off, w, rfl, hv, hstore⟩ := hostAccess_cases hp h
  · exact .inl rfl
  · obtain ⟨hb, rfl, rfl⟩ | ⟨-, -, rfl⟩ | ⟨-, -, rfl⟩ | ⟨-, -, -, rfl⟩ | rfl := hstore
    · obtain rfl := bits_of_store_cmd h
      exact .inr ⟨hb, w, rfl, hv, rfl⟩
    all_goals exact .inl rfl

/-- What a turn of the host cannot do: write a result, clear BUSY, or set BUSY but by a CMD write. -/
theorem hostTurn_keeps {s t : State} (hp : SizesOk s.params) (h : hostTurn s = .next t) :
    (t.err = s.err ∧ t.olen = s.olen ∧ ∀ a, 0x2000 ≤ a → t.readByte a = s.readByte a) ∧
    (t.busy = s.busy ∨
      (s.busy = false ∧ ∃ w rest, s.host = .access (.store 32 0x000 w) :: rest ∧ t.pending = w ∧ t.host = rest)) := by
  obtain ⟨-, hturn⟩ | ⟨op, rest, hop, ⟨f, -, hturn⟩ | ⟨v, s', hacc, hturn⟩ | ⟨s', hacc, hturn⟩⟩ := hostTurn_cases s
  all_goals
    rw [hturn] at h
    cases h
  · exact ⟨⟨rfl, rfl, fun _ _ => rfl⟩, .inl rfl⟩
  all_goals
    have hresults := hostAccess_keeps_results hp hacc
    have hbusy := hostAccess_busy hp hacc
    refine ⟨hresults, hbusy.imp_right ?_⟩
  · rintro ⟨-, w, -, hv, -⟩
    cases hv
  · rintro ⟨hb, w, hfirst, -, rfl⟩
    exact ⟨hb, w, rest, firstAccess_eq_store hfirst ▸ hop, rfl, rfl⟩

/-- Settles O54: such a step is `hostTurn` of the state with its turn taken off. -/
theorem hostSetsBusyOnlyByCmd : Obligations.HostSetsBusyOnlyByCmd := by
  intro s t hp hhost h
  obtain ⟨rest, hturn⟩ : ∃ rest, hostTurn { s with turns := rest } = .next t := by
    obtain hhead | ⟨hnil, hb⟩ := hhost
    · obtain ⟨rest, hturns⟩ := List.head?_eq_some_iff.1 hhead
      exact ⟨rest, step_of_host_turn hturns ▸ h⟩
    · exact ⟨s.turns, step_of_unscheduled_idle hnil hb ▸ h⟩
  obtain ⟨⟨herr, holen, hobuf⟩, hbusy⟩ := hostTurn_keeps (s := { s with turns := rest }) hp hturn
  refine ⟨herr, holen, hobuf, fun hb => ?_, fun hb hset => ?_⟩
  · obtain hsame | ⟨hidle, -⟩ := hbusy
    · exact hsame.trans hb
    · cases hb.symm.trans hidle
  · obtain hsame | ⟨-, hcmd⟩ := hbusy
    · cases hset.symm.trans (hsame.trans hb)
    · exact hcmd

/-! ### PENDING while BUSY = 0 -/

/-- Two outcomes that fault alike, or reach states that agree but for PENDING, and there too where BUSY is set. -/
inductive AgreeButPending : Host.Outcome State Fault Refusal → Host.Outcome State Fault Refusal → Prop where
  | fault (f : Fault) : AgreeButPending (.fault f) (.fault f)
  | next (t : State) (p : Word) (h : t.busy = true → p = t.pending) :
      AgreeButPending (.next t) (.next { t with pending := p })

theorem AgreeButPending.elim {o o' : Host.Outcome State Fault Refusal} (h : AgreeButPending o o') :
    (∀ f, o = .fault f → o' = .fault f) ∧
    (∀ t, o = .next t → ∃ p, o' = .next { t with pending := p } ∧ (t.busy = true → p = t.pending)) := by
  cases h with
  | fault f => exact ⟨fun _ hf => hf, nofun⟩
  | next t p hp =>
    refine ⟨nofun, ?_⟩
    rintro _ ⟨⟩
    exact ⟨p, rfl, hp⟩

/-- The state with another word in PENDING, unless BUSY says that the word there was latched. -/
def replaceUnlatched (w : Word) (s : State) : State := { s with pending := if s.busy then s.pending else w }

theorem replaceUnlatched_of_idle (w : Word) {s : State} (hb : s.busy = false) :
    replaceUnlatched w s = { s with pending := w } := by
  simp [replaceUnlatched, hb]

/-- No read returns PENDING. -/
theorem hostRead_pending (t : Target) (off : Nat) (s : State) (w : Word) :
    hostRead t off { s with pending := w } = hostRead t off s := by
  rcases t with r | b
  · cases r <;> rfl
  · cases b <;> rfl

/-- A write to an idle core commutes with a change of PENDING, and the CMD write overwrites it. -/
theorem hostWrite_pending (t : Target) (off : Nat) (v : Word) {s : State} (hb : s.busy = false) (w : Word) :
    hostWrite t off v { s with pending := w } = (hostWrite t off v s).map (replaceUnlatched w) := by
  rcases t with r | b
  · cases r <;> simp [hostWrite, replaceUnlatched, latchCommand, Except.map, hb]
  · cases b <;> simp [hostWrite, replaceUnlatched, State.writeByte, Except.map, hb]

theorem hostAccess_pending (a : Access) {s : State} (hb : s.busy = false) (w : Word) :
    hostAccess a { s with pending := w } = (hostAccess a s).map (Prod.map id (replaceUnlatched w)) := by
  cases htarget : targetOf s.params a.bits a.offset with
  | error f =>
    rw [hostAccess_of_no_target htarget, hostAccess_of_no_target (s := { s with pending := w }) htarget]
    rfl
  | ok t =>
    cases a with
    | load bits off =>
      change targetOf s.params bits off = .ok t at htarget
      rw [hostAccess_load_of_target htarget, hostAccess_load_of_target (s := { s with pending := w }) htarget,
        hostRead_pending, ← replaceUnlatched_of_idle w hb]
      cases hostRead t off s <;> rfl
    | store bits off v =>
      change targetOf s.params bits off = .ok t at htarget
      rw [hostAccess_store_of_target htarget, hostAccess_store_of_target (s := { s with pending := w }) htarget,
        hostWrite_pending t off v hb]
      cases hostWrite t off v s <;> rfl

theorem hostTurn_pending {s : State} (hb : s.busy = false) (w : Word) :
    AgreeButPending (hostTurn s) (hostTurn { s with pending := w }) := by
  have hlatched (t : State) (ht : t.busy = true) : (if t.busy then t.pending else w) = t.pending := if_pos ht
  have hpending (op : HostOp) := hostAccess_pending (firstAccess op) hb w
  obtain ⟨hend, hturn⟩ | ⟨op, rest, hop, ⟨f, hacc, hturn⟩ | ⟨v, s', hacc, hturn⟩ | ⟨s', hacc, hturn⟩⟩ := hostTurn_cases s
  · rw [hturn, hostTurn_of_end (s := { s with pending := w }) hend]
    exact .next s w (by simp [hb])
  · rw [hturn, hostTurn_of_fault (s := { s with pending := w }) hop (by rw [hpending, hacc]; rfl)]
    exact .fault f
  · rw [hturn, hostTurn_of_read (s := { s with pending := w }) hop (by rw [hpending, hacc]; rfl)]
    exact .next _ _ (hlatched s')
  · rw [hturn, hostTurn_of_write (s := { s with pending := w }) hop (by rw [hpending, hacc]; rfl)]
    exact .next _ _ (hlatched s')

/-- Settles O55, by whose turn the step is: an idle engine does nothing, and a reset overwrites PENDING. -/
theorem pendingIsUnobservableWhileIdle : Obligations.PendingIsUnobservableWhileIdle := by
  intro s w hb
  suffices h : AgreeButPending (step s) (step { s with pending := w }) from h.elim
  have hidle : s.busy = true → w = s.pending := by simp [hb]
  cases hturns : s.turns with
  | nil =>
    rw [step_of_unscheduled_idle hturns hb, step_of_unscheduled_idle (s := { s with pending := w, turns := [] }) rfl hb,
      ← hturns]
    exact hostTurn_pending hb w
  | cons turn rest =>
    cases turn with
    | host =>
      rw [step_of_host_turn hturns, step_of_host_turn (s := { s with pending := w, turns := .host :: rest }) rfl]
      exact hostTurn_pending (s := { s with turns := rest }) hb w
    | engine =>
      rw [step_of_engine_turn_idle hturns hb,
        step_of_engine_turn_idle (s := { s with pending := w, turns := .engine :: rest }) rfl hb]
      exact .next { s with turns := rest } w hidle
    | reset =>
      rw [step_of_reset_turn hturns, step_of_reset_turn (s := { s with pending := w, turns := .reset :: rest }) rfl]
      exact .next _ 0 nofun

end Sys2Proof.Machine
end

section
/-! PROOF. The memory of the core (20_memory.md): the snapshot of the strings (R56), the two ways a command ends (R57),
and which accesses of the window have a step (R52, R53). -/
namespace Sys2Proof.Machine

/-! ### The snapshot and the ends of a command -/

/-- Settles O8: both strings are `memRead` from the first byte of their buffer. -/
theorem snapshotReadsTheBuffers : Obligations.SnapshotReadsTheBuffers := fun s =>
  ⟨memRead_length .kbuf 0 s.klen.toNat s, memRead_length .ibuf 0 s.ilen.toNat s,
    memRead_getD .kbuf 0 s.klen.toNat s, memRead_getD .ibuf 0 s.ilen.toNat s⟩

/-- Every command can end with `IllegalCommand`, by the length checks of R74. -/
theorem illegalCommand_mem_errorsOf (i : Instr) : ErrorKind.illegalCommand ∈ errorsOf i := by
  cases i <;> decide

/-- Settles O6, by what the engine does with a command: its rule's output fits in OBUF, its rule's error is one of its
own, and lengths beyond the buffers are an `IllegalCommand`. -/
theorem commandEndsInOutputOrItsOwnError : Obligations.CommandEndsInOutputOrItsOwnError := by
  intro i s hp
  have hexec := exec_eq_runCommand i s
  obtain ⟨hl, out, hout, hrun⟩ | ⟨-, e, he, hrun⟩ | ⟨-, hrun⟩ :=
    runCommand_cases (commandRule s.params.rotor i) s
  · exact .inl ⟨out, _, hexec.trans hrun, finishOk_completedWith out hp (commandRule_output_fits hp hl hout)⟩
  · exact .inr ⟨e, commandRule_raisesOnly _ i _ _ e he, _, hexec.trans hrun, raiseError_failedWith e s⟩
  · exact .inr ⟨_, illegalCommand_mem_errorsOf i, _, hexec.trans hrun, raiseError_failedWith .illegalCommand s⟩

/-! ### The accesses that have a step -/

/-- Some buffer holds the offset, whatever the sizes of the buffers. -/
theorem bufAt_isSome (P : Config.Params) (off : Nat) : (bufAt P off).isSome = inBuffers P off := by
  rw [Bool.eq_iff_iff]
  simp only [bufAt, inBuffers, Bool.or_eq_true, Bool.and_eq_true, decide_eq_true_eq]
  split_ifs <;> simp [*]

/-- The buffers lie past the registers (R51). -/
theorem regsEnd_le_of_inBuffers {P : Config.Params} {off : Nat} (h : inBuffers P off = true) :
    Config.regsEnd ≤ off := by
  obtain ⟨b, k, -, rfl⟩ := (inBuffers_iff P off).1 h
  exact Nat.le_add_right_of_le (by cases b <;> decide)

/-- A byte access of a buffer offset reaches a buffer, also where the sizes let two buffers overlap. -/
theorem targetOf_of_inBuffers {P : Config.Params} {off : Nat} (h : inBuffers P off = true) :
    ∃ b, targetOf P 8 off = .ok (.byte b) := by
  obtain ⟨b, hb⟩ := Option.isSome_iff_exists.1 ((bufAt_isSome P off).trans h)
  exact ⟨b, by rw [targetOf, if_neg (regsEnd_le_of_inBuffers h).not_gt, hb]; rfl⟩

/-- The accesses that reach something are those R52 defines. -/
theorem targetOf_eq_ok_iff (P : Config.Params) (a : Access) :
    (∃ t, targetOf P a.bits a.offset = .ok t) ↔ a.wellFormed P = true := by
  rw [wellFormed_iff, ← inBuffers_iff]
  constructor
  · rintro ⟨t, ht⟩
    obtain ⟨r, -, hbits, hoff⟩ | ⟨b, -, hbits, hlo, hhi⟩ := targetOf_cases ht
    · exact .inl ⟨hbits, r, hoff⟩
    · exact .inr ⟨hbits, (inBuffers_iff P a.offset).2 ⟨b, a.offset - bufBase b, by omega, by omega⟩⟩
  · rintro (⟨hbits, r, hoff⟩ | ⟨hbits, hoff⟩)
    · exact ⟨.reg r, by rw [hbits, hoff, targetOf_reg]⟩
    · obtain ⟨b, hb⟩ := targetOf_of_inBuffers hoff
      exact ⟨.byte b, by rw [hbits, hb]⟩

/-- The names of the accesses that reach nothing (R53; log entry 8). -/
theorem targetOf_fault {P : Config.Params} {bits off : Nat} {f : Fault} (h : targetOf P bits off = .error f) :
    f = .accessWidth ∨ f = .misalignedAccess ∨ f = .unmappedAccess := by
  unfold targetOf at h
  split at h
  · split at h
    · cases h; exact .inl rfl
    · split at h <;> cases h
      exact .inr (.inl rfl)
  · split at h
    · split at h <;> cases h
      exact .inl rfl
    · cases h; exact .inr (.inr rfl)

/-- While idle no read is a hazard (R352). -/
theorem hostRead_of_idle (t : Target) (off : Nat) {s : State} (hb : s.busy = false) :
    ∃ v, hostRead t off s = .ok v := by
  rcases t with r | b
  · cases r <;> simp [hostRead, hb]
  · cases b <;> simp [hostRead, hb]

/-- While idle no write is a hazard (R350, R351). -/
theorem hostWrite_of_idle (t : Target) (off : Nat) (v : Word) {s : State} (hb : s.busy = false) :
    ∃ s', hostWrite t off v s = .ok s' := by
  rcases t with r | b
  · cases r <;> simp [hostWrite, hb]
  · cases b <;> simp [hostWrite, hb]

/-- Settles O51: an access has a step while idle exactly when it reaches something. -/
theorem onlyDefinedAccessesHaveAStep : Obligations.OnlyDefinedAccessesHaveAStep := by
  refine fun a s => ⟨fun hwf hb => ?_, fun hwf => ?_⟩
  · obtain ⟨t, ht⟩ := (targetOf_eq_ok_iff s.params a).2 hwf
    cases a with
    | load bits off =>
      obtain ⟨v, hv⟩ := hostRead_of_idle t off hb
      exact ⟨some v, s, by rw [hostAccess_load_of_target (bits := bits) (off := off) ht, hv]; rfl, rfl⟩
    | store bits off w =>
      obtain ⟨s', hs'⟩ := hostWrite_of_idle t off w hb
      exact ⟨none, s', by rw [hostAccess_store_of_target (bits := bits) (off := off) ht, hs']; rfl, rfl⟩
  · cases ht : targetOf s.params a.bits a.offset with
    | ok t => exact absurd ((targetOf_eq_ok_iff s.params a).1 ⟨t, ht⟩) (by simp [hwf])
    | error f => exact ⟨f, hostAccess_of_no_target ht, targetOf_fault ht⟩

end Sys2Proof.Machine
end

section
/-! PROOF. The command words (30_encoding.md): decode accepts exactly the encodings (R71, R73 to R75). -/
namespace Sys2Proof

/-- The rows of the opcode map, for every command. -/
theorem opcodeRow (i : Instr) : Laws.OpcodeRow.Statement i := by
  cases i
  open Laws.OpcodeRow in
  exacts [vigEnc, vigDec, pfEnc, pfDec, hillEnc, hillDec, rfEnc, rfDec, rtEnc, rtDec, rotor, desKs, desEnc, desDec,
    desEncRaw, desDecRaw]

/-- The opcode map read backwards: no opcode stands for two commands, and no command has two opcodes (R73). -/
theorem instrOfOp_eq_some_iff {op : BitVec 8} {i : Instr} : instrOfOp op = some i ↔ op = opOfInstr i := by
  constructor
  · intro h
    apply BitVec.eq_of_toNat_eq
    unfold instrOfOp at h
    split at h <;> cases h <;> assumption
  · rintro rfl
    obtain ⟨-, -, hmap⟩ := opcodeRow i
    exact hmap

/-- RSVD is 0 exactly when the word is below 256 (R71). -/
theorem rsvdField_eq_zero_iff {w : Word} : rsvdField w = 0 ↔ w.toNat < 256 := by
  have hw : w.toNat < 2 ^ 32 := w.isLt
  rw [rsvdField, ← BitVec.toNat_inj, BitVec.extractLsb'_toNat, Nat.shiftRight_eq_div_pow]
  change w.toNat / 2 ^ 8 % 2 ^ 24 = 0 ↔ w.toNat < 256
  omega

/-- A word with RSVD = 0 is its OP, widened (R71). -/
theorem eq_setWidth_opField {w : Word} (h : rsvdField w = 0) : w = (opField w).setWidth Config.regWidth := by
  have hw : w.toNat < 256 := rsvdField_eq_zero_iff.1 h
  apply BitVec.eq_of_toNat_eq
  simp only [opField, BitVec.toNat_setWidth, BitVec.extractLsb'_toNat, Nat.shiftRight_zero, Config.regWidth]
  omega

theorem eq_encode_iff {w : Word} {i : Instr} : w = encode i ↔ rsvdField w = 0 ∧ opField w = opOfInstr i := by
  constructor
  · rintro rfl
    obtain ⟨hrsvd, hop, -⟩ := opcodeRow i
    exact ⟨hrsvd, hop⟩
  · rintro ⟨hrsvd, hop⟩
    rw [eq_setWidth_opField hrsvd, hop, encode]

/-- R74, check 1. -/
theorem decode_of_reserved {w : Word} (h : rsvdField w ≠ 0) : decode w = .error .reservedBits := if_pos h

theorem decode_of_opcode {w : Word} {i : Instr} (h : rsvdField w = 0) (hop : instrOfOp (opField w) = some i) :
    decode w = .ok i := by
  rw [decode, if_neg (not_not_intro h), hop]

/-- R74, check 2, reached only where check 1 passes. -/
theorem decode_of_no_opcode {w : Word} (h : rsvdField w = 0) (hop : instrOfOp (opField w) = none) :
    decode w = .error .undefinedOpcode := by
  rw [decode, if_neg (not_not_intro h), hop]

theorem decode_eq_ok_iff {w : Word} {i : Instr} : decode w = .ok i ↔ w = encode i := by
  rw [eq_encode_iff, ← instrOfOp_eq_some_iff]
  by_cases h : rsvdField w = 0
  · cases hop : instrOfOp (opField w) with
    | some j => simp [decode_of_opcode h hop, h]
    | none => simp [decode_of_no_opcode h hop]
  · exact iff_of_false (by simp [decode_of_reserved h]) fun hw => h hw.1

theorem decode_encode (i : Instr) : decode (encode i) = .ok i := decode_eq_ok_iff.2 rfl

theorem decode_eq_reservedBits_iff {w : Word} : decode w = .error .reservedBits ↔ 256 ≤ w.toNat := by
  rw [← not_lt, ← rsvdField_eq_zero_iff]
  by_cases h : rsvdField w = 0
  · cases hop : instrOfOp (opField w) with
    | some i => simp [decode_of_opcode h hop, h]
    | none => simp [decode_of_no_opcode h hop, h]
  · exact iff_of_true (decode_of_reserved h) h

/-- The second refusal is what the encodings and the first one leave over. -/
theorem decode_eq_undefinedOpcode_iff {w : Word} :
    decode w = .error .undefinedOpcode ↔ w.toNat < 256 ∧ ∀ i, w ≠ encode i := by
  rw [← not_le, ← decode_eq_reservedBits_iff]
  simp only [ne_eq, ← decode_eq_ok_iff]
  cases h : decode w with
  | ok i => simp
  | error e => cases e <;> simp

/-- Settles O2, from the three answers of `decode`; the 240 undefined values of OP are counted. -/
theorem decodeAcceptsExactlyTheTable : Obligations.DecodeAcceptsExactlyTheTable :=
  ⟨fun _ => ⟨fun _ => decode_eq_ok_iff, decode_eq_reservedBits_iff, decode_eq_undefinedOpcode_iff⟩, by decide +kernel⟩

/-- Settles O1: eight of the words are encodings, and the other three are refused. -/
theorem decodeSampleWords : Obligations.DecodeSampleWords :=
  ⟨decode_encode .vigEnc, decode_encode .pfDec, decode_encode .hillEnc, decode_encode .rfDec, decode_encode .rtEnc,
    decode_encode .rotor, decode_encode .desKs, decode_encode .desDecRaw,
    rfl, decode_of_reserved (by decide), decode_of_reserved (by decide)⟩

end Sys2Proof
end

section
/-! PROOF. The engine's step on a command word: a word that is no command and lengths beyond the buffers end with
`IllegalCommand` (R74, R75), and `run` leaves its command done (R78). -/
namespace Sys2Proof.Machine

/-! ### The engine's step -/

theorem step_of_unscheduled_busy {s : State} (h : s.turns = []) (hb : s.busy = true) : step s = coreStep s := by
  simp [step, transition, h, hb]

theorem step_of_engine_turn_busy {s : State} {rest : List Turn} (h : s.turns = .engine :: rest) (hb : s.busy = true) :
    step s = coreStep { s with turns := rest } := by
  simp [step, transition, engineTurn, h, hb]

/-- While BUSY = 1 the engine moves at the head of the schedule, or first where nothing is scheduled (log entry 5). -/
theorem step_of_engine_busy {s : State} {rest : List Turn} (hb : s.busy = true)
    (h : s.turns = .engine :: rest ∨ (s.turns = [] ∧ rest = [])) : step s = coreStep { s with turns := rest } := by
  obtain hturns | ⟨hturns, rfl⟩ := h
  · exact step_of_engine_turn_busy hturns hb
  · rw [step_of_unscheduled_busy hturns hb, ← hturns]

theorem coreStep_of_command {s : State} {i : Instr} (h : decode s.pending = .ok i) : coreStep s = exec i s := by
  simp [coreStep, h]

theorem coreStep_of_illegal {s : State} {e : DecodeError} (h : decode s.pending = .error e) :
    coreStep s = .next (raiseError .illegalCommand s) := by
  simp [coreStep, h, runIllegal]

/-- Settles O4: the engine's step on such a word is `raiseError`. -/
theorem illegalWordEndsWithIllegalCommand : Obligations.IllegalWordEndsWithIllegalCommand :=
  fun s rest _ hb hdecode hturns =>
    ⟨_, (step_of_engine_busy hb hturns).trans (coreStep_of_illegal (s := { s with turns := rest }) hdecode),
      raiseError_failedWith .illegalCommand _⟩

/-- Settles O5: all sixteen commands are `runCommand` of a rule, and it checks the lengths before the rule. -/
theorem lengthsBeyondBuffersAreIllegal : Obligations.LengthsBeyondBuffersAreIllegal := by
  intro i s hbeyond
  have hillegal : ¬LegalLengths s := by
    rintro ⟨hklen, hilen⟩
    omega
  exact ⟨_, (exec_eq_runCommand i s).trans (runCommand_of_illegal _ hillegal), raiseError_failedWith .illegalCommand s⟩

/-! ### `run` (R78) -/

/-- Both ends of a command clear BUSY and keep to the command's frame (R306), whatever the sizes of the buffers. -/
theorem finishCommand_frame (r : Result) (s : State) :
    (finishCommand r s).busy = false ∧ CommandFrame s (finishCommand r s) := by
  cases r with
  | ok out => exact ⟨rfl, ⟨rfl, rfl, rfl, rfl, rfl, rfl, rfl, rfl⟩⟩
  | error e => exact ⟨rfl, (raiseError_failedWith e s).frame⟩

/-- Every command answers a next state, with BUSY clear and nothing outside the core changed (R306). -/
theorem exec_ends (i : Instr) (s : State) : ∃ u, exec i s = .next u ∧ u.busy = false ∧ CommandFrame s u := by
  rw [exec_eq_runCommand]
  by_cases h : LegalLengths s
  · exact ⟨_, runCommand_of_legal _ h, finishCommand_frame _ s⟩
  · exact ⟨_, runCommand_of_illegal _ h, finishCommand_frame (.error .illegalCommand) s⟩

/-- Bit 0 of STATUS is BUSY (R25). -/
theorem statusWord_bit_zero (s : State) : (statusWord s).getLsbD 0 = s.busy := by
  simp [statusWord]

section
variable {s : State} {rest : List HostOp}

/-- The host writes CMD while BUSY = 0: the word is latched and the core is busy (R24). -/
theorem step_of_cmd_write {w : Word} (hb : s.busy = false) (ht : s.turns = []) (hh : s.host = hostWr .cmd w :: rest) :
    step s = .next { s with pending := w, busy := true, host := rest } := by
  have hwrite : hostAccess (.store Config.regWidth (regOffset .cmd) w) s = .ok (none, latchCommand w s) := by
    rw [hostAccess_store_reg]
    simp [hostWrite, hb, Except.map]
  exact (step_of_unscheduled_idle ht hb).trans (hostTurn_of_write hh hwrite)

/-- A wait that reads STATUS with BUSY = 0 is over (R78). -/
theorem step_of_wait_idle (hb : s.busy = false) (ht : s.turns = []) (hh : s.host = .wait :: rest) :
    step s = .next { s with host := rest, observed := s.observed ++ [statusWord s] } := by
  have hread : hostAccess (firstAccess .wait) s = .ok (some (statusWord s), s) := hostAccess_load_reg .status s
  have hdone : afterRead .wait (statusWord s) = [] := if_neg (by rw [statusWord_bit_zero, hb]; decide)
  rw [step_of_unscheduled_idle ht hb, hostTurn_of_read hh hread, hdone, List.nil_append]

end

/-- With nothing scheduled, a busy engine runs the command its word decodes to (R306). -/
theorem step_of_pending_command {s u : State} {i : Instr} (hexec : exec i s = .next u) (ht : s.turns = [])
    (hb : s.busy = true) (hdecode : decode s.pending = .ok i) : step s = .next u := by
  rw [step_of_unscheduled_busy ht hb, coreStep_of_command hdecode, hexec]

theorem run_succ_of_next (M : Host.Core) {s t : M.State} (n : Nat) (h : M.step s = .next t) :
    M.run (n + 1) s = M.run n t := by
  simp only [Host.Core.run, h]

theorem run_succ_of_step {s t : State} (n : Nat) (h : step s = .next t) :
    Host.Core.run core (n + 1) s = Host.Core.run core n t := run_succ_of_next core n h

/-- Settles O56, one lemma for each of the three steps: the CMD write, the command, the read that ends the wait. -/
theorem runProtocolEndsWithTheCommandDone : Obligations.RunProtocolEndsWithTheCommandDone := by
  intro s i rest hb ht hh
  have hwrite := step_of_cmd_write (rest := .wait :: rest) hb ht hh
  obtain ⟨u, hexec, hub, hframe⟩ :=
    exec_ends i { s with pending := encode i, busy := true, host := .wait :: rest }
  have hcommand := step_of_pending_command hexec ht rfl (decode_encode i)
  have hwait := step_of_wait_idle hub (hframe.turns.trans ht) hframe.host
  refine ⟨u, hexec, hub, ?_⟩
  calc Host.Core.run core 3 s
    _ = Host.Core.run core 2 _ := run_succ_of_step 2 hwrite
    _ = Host.Core.run core 1 u := run_succ_of_step 1 hcommand
    _ = Host.Core.run core 0 _ := run_succ_of_step 0 hwait
    _ = _ := rfl

end Sys2Proof.Machine
end

section
/-! PROOF. The letter and number-theory utilities (40_common.md): letter bytes and Normalize (R101, R103), the keyword of
the six keyword commands (R104), gcd and modular inverse (R105, R106), StripTrailing and PadTo (R110, R111). -/
namespace Sys2Proof.Machine

/-! ### Letter bytes and Normalize -/

theorem normalize_singleton (b : Byte) : normalize [b] = (letterIndex b).toList := by
  cases h : letterIndex b with
  | some x => exact List.filterMap_cons_some h
  | none => exact List.filterMap_cons_none h

section
variable {b : Byte}

/-- The reduction mod 26 in `letterIndex` does nothing to an index, here of an uppercase letter. -/
theorem letterIndex_of_upper (h : 0x41 ≤ b.toNat ∧ b.toNat ≤ 0x5A) :
    ∃ x, letterIndex b = some x ∧ x.val = b.toNat - 0x41 :=
  ⟨_, if_pos h, Nat.mod_eq_of_lt (by omega)⟩

theorem letterIndex_of_lower (h : 0x61 ≤ b.toNat ∧ b.toNat ≤ 0x7A) :
    ∃ x, letterIndex b = some x ∧ x.val = b.toNat - 0x61 :=
  ⟨Fin.ofNat 26 (b.toNat - 0x61), by rw [letterIndex, if_neg (by omega), if_pos h], Nat.mod_eq_of_lt (by omega)⟩

theorem letterIndex_of_not_letter (h : b.toNat < 0x41 ∨ (0x5A < b.toNat ∧ b.toNat < 0x61) ∨ 0x7A < b.toNat) :
    letterIndex b = none := by
  rw [letterIndex, if_neg (by omega), if_neg (by omega)]

end

/-- Settles O11, from `letterIndex` on each range of bytes. -/
theorem normalizeKeepsTheLetterBytes : Obligations.NormalizeKeepsTheLetterBytes := by
  refine ⟨fun b => ⟨fun h => ?upper, fun h => ?lower, fun h => ?other⟩, fun b bs => normalize_append [b] bs⟩
  case upper =>
    obtain ⟨x, hx, hval⟩ := letterIndex_of_upper h
    rw [normalize_singleton, hx, Option.toList_some, List.map_singleton, hval]
  case lower =>
    obtain ⟨x, hx, hval⟩ := letterIndex_of_lower h
    rw [normalize_singleton, hx, Option.toList_some, List.map_singleton, hval]
  case other => rw [normalize_singleton, letterIndex_of_not_letter h, Option.toList_none]

/-! ### StripTrailing and PadTo -/

section
variable {α : Type} [DecidableEq α] (s : List α) (c : α)

theorem stripTrailing_eq_rdropWhile : stripTrailing s c = s.rdropWhile (fun x => decide (x = c)) := rfl

/-- What StripTrailing removes is a run of `c` (R110). -/
theorem stripTrailing_append_replicate : ∃ n, s = stripTrailing s c ++ List.replicate n c := by
  have hrun : s.rtakeWhile (fun x => decide (x = c)) = List.replicate _ c :=
    List.eq_replicate_of_mem fun x hx => by simpa using List.mem_rtakeWhile_imp hx
  exact ⟨_, by rw [← hrun, stripTrailing_eq_rdropWhile, List.rdropWhile_append_rtakeWhile]⟩

/-- StripTrailing removes every trailing `c` (R110). -/
theorem getLast?_stripTrailing_ne : (stripTrailing s c).getLast? ≠ some c := by
  intro h
  have hne : stripTrailing s c ≠ [] := fun hnil => by simp [hnil] at h
  have hlast : (stripTrailing s c).getLast hne = c := by rwa [List.getLast?_eq_some_getLast hne, Option.some_inj] at h
  exact List.rdropWhile_last_not (fun x => decide (x = c)) s hne (decide_eq_true hlast)

end

/-- Settles O12; the number of elements PadTo adds is a remainder mod `m`. -/
theorem stripAndPadAtTheEnd : Obligations.StripAndPadAtTheEnd := fun _ _ s c =>
  ⟨stripTrailing_append_replicate s c, getLast?_stripTrailing_ne s c,
    fun m hm => ⟨_, Nat.mod_lt _ hm, rfl, padTo_length s m c hm⟩⟩

/-! ### Euclid's loop -/

/-- Enough fuel is any number above the second one, which falls in each round. -/
theorem gcdLoop_eq_gcd {fuel a b : Nat} (h : b < fuel) : gcdLoop fuel a b = Nat.gcd a b := by
  induction fuel generalizing a b with
  | zero => omega
  | succ fuel ih =>
    rw [gcdLoop]
    split
    · next hb => rw [hb, Nat.gcd_zero_right]
    · next hb =>
      have hlt : a % b < b := Nat.mod_lt a (Nat.pos_of_ne_zero hb)
      rw [ih (by omega), Nat.gcd_comm b, ← Nat.gcd_rec, Nat.gcd_comm]

/-- Settles O13: `gcd` runs the loop with the fuel `b + 1`. -/
theorem euclidComputesTheGcd : Obligations.EuclidComputesTheGcd := fun _ b => gcdLoop_eq_gcd (Nat.lt_succ_self b)

/-! ### The modular inverse -/

/-- The remainders of the extended loop are those of Euclid's loop (R106). -/
theorem modInvLoop_fst (fuel r0 r1 : Nat) (s0 s1 : Int) : (modInvLoop fuel r0 r1 s0 s1).1 = gcdLoop fuel r0 r1 := by
  induction fuel generalizing r0 r1 s0 s1 with
  | zero => rfl
  | succ fuel ih =>
    rw [modInvLoop, gcdLoop]
    split
    · rfl
    · rw [ih, ← Nat.mod_eq_sub_div_mul]

/-- The extended loop keeps `a · s ≡ r` for each of its two pairs `(r, s)`, and so for the pair it ends with (R106). -/
theorem modInvLoop_modEq {a m : Int} {fuel r0 r1 : Nat} {s0 s1 : Int} (h0 : a * s0 ≡ r0 [ZMOD m])
    (h1 : a * s1 ≡ r1 [ZMOD m]) :
    a * (modInvLoop fuel r0 r1 s0 s1).2 ≡ (modInvLoop fuel r0 r1 s0 s1).1 [ZMOD m] := by
  induction fuel generalizing r0 r1 s0 s1 with
  | zero => exact h0
  | succ fuel ih =>
    rw [modInvLoop]
    split
    · exact h0
    · apply ih h1
      have hq := h0.sub (h1.mul_left ((r0 / r1 : Nat) : Int))
      rw [Nat.cast_sub (Nat.div_mul_le_self r0 r1), Nat.cast_mul, mul_sub, mul_left_comm]
      exact hq

/-- The pair the extended loop of ModInv ends with, from `m` and `a mod m` (R106). -/
def modInvPair (a m : Nat) : Nat × Int := modInvLoop (m + 1) m (a % m) 0 1

theorem modInv_eq_ite (a m : Nat) :
    modInv a m = if (modInvPair a m).1 = 1 then some ((modInvPair a m).2 % (m : Int)).toNat else none := rfl

theorem modInvPair_fst (a : Nat) {m : Nat} (hm : 0 < m) : (modInvPair a m).1 = Nat.gcd (a % m) m := by
  have hfuel : a % m < m + 1 := Nat.lt_succ_of_lt (Nat.mod_lt a hm)
  rw [modInvPair, modInvLoop_fst, gcdLoop_eq_gcd hfuel, Nat.gcd_comm]

theorem mul_modInvPair_snd_modEq (a m : Nat) : (a : Int) * (modInvPair a m).2 ≡ (modInvPair a m).1 [ZMOD m] := by
  apply modInvLoop_modEq
  · rw [mul_zero]
    exact (Int.modEq_zero_iff_dvd.2 dvd_rfl).symm
  · rw [mul_one, Int.natCast_mod]
    exact (Int.mod_modEq a m).symm

theorem modInv_of_gcd_ne_one {a m : Nat} (hm : 0 < m) (h : Nat.gcd (a % m) m ≠ 1) : modInv a m = none := by
  rw [modInv_eq_ite, if_neg (by rwa [modInvPair_fst a hm])]

theorem modInv_of_gcd_eq_one {a m : Nat} (hm : 0 < m) (h : Nat.gcd (a % m) m = 1) :
    ∃ x, modInv a m = some x ∧ x < m ∧ a * x ≡ 1 [MOD m] := by
  have hm' : (0 : Int) < m := Int.natCast_pos.2 hm
  have hfst : (modInvPair a m).1 = 1 := (modInvPair_fst a hm).trans h
  obtain ⟨x, hx⟩ := Int.eq_ofNat_of_zero_le (Int.emod_nonneg (modInvPair a m).2 hm'.ne')
  have hmod : (x : Int) ≡ (modInvPair a m).2 [ZMOD m] := hx ▸ Int.mod_modEq _ _
  refine ⟨x, by rw [modInv_eq_ite, if_pos hfst, hx, Int.toNat_natCast], ?_, ?_⟩
  · exact Int.ofNat_lt.1 (hx ▸ Int.emod_lt_of_pos _ hm')
  · rw [← Int.natCast_modEq_iff, Nat.cast_mul]
    calc (a : Int) * x
      _ ≡ a * (modInvPair a m).2 [ZMOD m] := hmod.mul_left _
      _ ≡ (modInvPair a m).1 [ZMOD m] := mul_modInvPair_snd_modEq a m
      _ = (1 : Nat) := by rw [hfst]

/-- Settles O14: the inverse is not 0, and two inverses of a unit are the same residue. -/
theorem modInvIsTheUniqueInverse : Obligations.ModInvIsTheUniqueInverse := by
  refine fun a => ⟨fun h => ?_, modInv_of_gcd_ne_one (by decide)⟩
  obtain ⟨x, hinv, hlt, hax⟩ := modInv_of_gcd_eq_one (by decide) h
  have hcoprime : Nat.gcd 26 a = 1 := by rwa [Nat.gcd_rec]
  have hpos : x ≠ 0 := by
    rintro rfl
    rw [Nat.mul_zero] at hax
    exact absurd hax (by decide)
  refine ⟨x, hinv, Nat.pos_of_ne_zero hpos, hlt, hax, fun y _ hy hay => ?_⟩
  have hproducts : a * y ≡ a * x [MOD 26] := Eq.trans hay hax.symm
  have hyx : y ≡ x [MOD 26] := hproducts.cancel_left_of_coprime hcoprime
  exact hyx.eq_of_lt_of_lt hy hlt

/-! ### The keyword -/

/-- What is no keyword is empty or holds a byte that is no letter (R104). -/
theorem keyword_of_not_isKeyword {K : List Byte} (h : ¬IsKeyword K) : keyword K = .error .invalidKey := by
  by_cases hK : K = []
  · exact if_pos hK
  · have hbad : ∃ b ∈ K, letterIndex b = none := by
      by_contra hall
      push Not at hall
      exact h ⟨hK, hall⟩
    rw [keyword, if_neg hK, lettersOf_eq_none hbad, orRaise]

/-- An error of a command rule is the error of its command, where the lengths are legal (R305). -/
theorem failsWith_of_rule_error {i : Instr} {s : State} {e : ErrorKind} (hl : LegalLengths s)
    (h : commandRule s.params.rotor i (keyString s) (inputString s) = .error e) : FailsWith i s e :=
  ⟨raiseError e s, by rw [exec_eq_runCommand, runCommand_of_legal _ hl, h, finishCommand], raiseError_failedWith e s⟩

/-- The rules of the six keyword commands begin with the keyword (R104). -/
theorem commandRule_of_keyword_error {i : Instr} (hi : i ∈ [Instr.vigEnc, .vigDec, .pfEnc, .pfDec, .rtEnc, .rtDec])
    {K : List Byte} {e : ErrorKind} (h : keyword K = .error e) (P : Config.RotorParams) (I : List Byte) :
    commandRule P i K I = .error e := by
  simp only [List.mem_cons, List.not_mem_nil, or_false] at hi
  rcases hi with rfl | rfl | rfl | rfl | rfl | rfl
  all_goals exact congrArg (· >>= _) h

/-- Settles O15: all six rules ask for the keyword first, and it is the one error they raise. -/
theorem badKeywordIsInvalidKey : Obligations.BadKeywordIsInvalidKey := fun _ _ hi hl hK =>
  failsWith_of_rule_error hl (commandRule_of_keyword_error hi (keyword_of_not_isKeyword hK) _ _)

end Sys2Proof.Machine
end

section
/-! PROOF. The Vigenère commands (R130 to R132 of 41_polyalphabetic.md), and the facts about keywords, letters and the end
of a completing command that the other letter engines use as well. -/
namespace Sys2Proof.Machine

/-! ### Commands that complete -/

/-- The output of a command rule is the output of its command, where the sizes and the lengths are legal (R57, R306). -/
theorem completesWith_of_rule_ok {i : Instr} {s : State} {out : List Byte} (hp : SizesOk s.params) (hl : LegalLengths s)
    (h : commandRule s.params.rotor i (keyString s) (inputString s) = .ok out) : CompletesWith i s out :=
  ⟨finishOk out s, by rw [exec_eq_runCommand, runCommand_of_legal _ hl, h, finishCommand],
    finishOk_completedWith out hp (commandRule_output_fits hp hl h)⟩

/-- A keyword is read as its normalization (R104). -/
theorem keyword_of_isKeyword {K : List Byte} (h : IsKeyword K) : keyword K = .ok (normalize K) := by
  rw [keyword, if_neg h.1, lettersOf_eq_normalize h.2, orRaise]

theorem normalize_length_of_isKeyword {K : List Byte} (h : IsKeyword K) : (normalize K).length = K.length :=
  (keyword_length (keyword_of_isKeyword h)).1

/-! ### Letters -/

theorem chr26_toNat (x : Letter) : (chr26 x).toNat = 65 + x.val := by
  rw [chr26, BitVec.toNat_ofNat]
  omega

theorem letters_getD (xs : List Letter) (d : Letter) {j : Nat} (h : j < xs.length) :
    (letters xs).getD j 0 = chr26 (xs.getD j d) := by
  simp [letters, List.getD, h]

/-- Every letter is its own residue (R8). -/
theorem letterOfInt_eq_of_modEq {z : Int} {x : Letter} (h : z ≡ (x.val : Int) [ZMOD 26]) : letterOfInt z = x := by
  have hval := letterOfInt_val z
  have hmod : z % 26 = (x.val : Int) % 26 := h
  apply Fin.ext
  omega

/-! ### The running key -/

theorem vig_getD (p k : List Letter) (sign : Int) {j : Nat} (h : j < p.length) :
    (vig p k sign).getD j 0 =
      letterOfInt (((p.getD j 0).val : Int) + sign * ((k.getD (j % k.length) 0).val : Int)) := by
  simp [vig, List.getD, h]

/-- Subtracting what was added gives the letter back (R132). -/
theorem vig_vig (p k : List Letter) : vig (vig p k 1) k (-1) = p := by
  have hlen : (vig (vig p k 1) k (-1)).length = p.length := by rw [vig_length, vig_length]
  refine List.ext_getElem hlen fun j _ hj => ?_
  have hj' : j < (vig p k 1).length := by rwa [vig_length]
  rw [← List.getD_eq_getElem _ 0, ← List.getD_eq_getElem _ 0, vig_getD _ _ _ hj', vig_getD _ _ _ hj]
  apply letterOfInt_eq_of_modEq
  rw [letterOfInt_val]
  refine ((Int.mod_modEq _ _).add_right _).trans ?_
  rw [one_mul, neg_one_mul, add_neg_cancel_right]

theorem letterOfInt_add_val (x y : Letter) :
    (letterOfInt ((x.val : Int) + 1 * (y.val : Int))).val = (x.val + y.val) % 26 := by
  have hval := letterOfInt_val ((x.val : Int) + 1 * (y.val : Int))
  omega

theorem letterOfInt_sub_val (x y : Letter) :
    (letterOfInt ((x.val : Int) + -1 * (y.val : Int))).val = (x.val + 26 - y.val) % 26 := by
  have hval := letterOfInt_val ((x.val : Int) + -1 * (y.val : Int))
  omega

/-- Settles O16: the letters of `vig`, with the sign of each command. -/
theorem vigenereAddsTheRunningKey : Obligations.VigenereAddsTheRunningKey := by
  intro s hp hl hK
  have hkey := keyword_of_isKeyword hK
  rw [← normalize_length_of_isKeyword hK]
  refine ⟨⟨_, completesWith_of_rule_ok hp hl (result_bind_eq_ok.2 ⟨_, hkey, rfl⟩), ?_, fun j hj => ?encLetter⟩,
    ⟨_, completesWith_of_rule_ok hp hl (result_bind_eq_ok.2 ⟨_, hkey, rfl⟩), ?_, fun j hj => ?decLetter⟩⟩
  case encLetter =>
    rw [letters_length] at hj
    rw [letters_getD _ 0 hj, chr26_toNat, vig_getD _ _ _ (by rwa [vig_length] at hj), letterOfInt_add_val]
  case decLetter =>
    rw [letters_length] at hj
    rw [letters_getD _ 0 hj, chr26_toNat, vig_getD _ _ _ (by rwa [vig_length] at hj), letterOfInt_sub_val]
  all_goals rw [letters_length, vig_length]

/-- Settles O17: the key is the same, and the letters of the ciphertext are those of `vig`. -/
theorem vigenereRoundTrip : Obligations.VigenereRoundTrip := by
  intro K I out h
  obtain ⟨k, hk, ⟨⟩⟩ := result_bind_eq_ok.1 h
  refine result_bind_eq_ok.2 ⟨k, hk, ?_⟩
  rw [normalize_letters, vig_vig]

end Sys2Proof.Machine
end

section
/-! PROOF. The Playfair commands (R133 to R137 of 41_polyalphabetic.md): the matrix, the pairs, the rule for one pair, and
its inverse. -/
namespace Sys2Proof.Machine

/-! ### The matrix -/

theorem mem_keepFirst {kept l : List Letter} {x : Letter} : x ∈ keepFirst kept l ↔ x ∈ kept ∨ x ∈ l := by
  fun_induction keepFirst kept l with
  | case1 kept => simp
  | case2 kept y ys hy ih =>
    rw [ih, List.mem_cons]
    refine ⟨Or.imp_right .inr, ?_⟩
    rintro (h | rfl | h)
    exacts [.inl h, .inl hy, .inr h]
  | case3 kept y ys hy ih => rw [ih, List.mem_append, List.mem_singleton, List.mem_cons, or_assoc]

theorem keepFirst_nodup {kept : List Letter} (l : List Letter) (h : kept.Nodup) : (keepFirst kept l).Nodup := by
  fun_induction keepFirst kept l with
  | case1 kept => exact h
  | case2 kept y ys hy ih => exact ih h
  | case3 kept y ys hy ih =>
    refine ih (List.nodup_append.2 ⟨h, List.nodup_singleton y, fun a ha b hb => ?_⟩)
    rw [List.mem_singleton.1 hb]
    exact fun hay => hy (hay ▸ ha)

/-- A letter that stands further to the left already does not change which of two letters comes first. -/
theorem idxOf_lt_idxOf_insert {l r : List Letter} {z : Letter} (hz : z ∈ l) (x y : Letter) :
    (l ++ z :: r).idxOf x < (l ++ z :: r).idxOf y ↔ (l ++ r).idxOf x < (l ++ r).idxOf y := by
  have hskip : ∀ w, w ∉ l → (l ++ z :: r).idxOf w = (l ++ r).idxOf w + 1 := fun w hw => by
    rw [List.idxOf_append_of_notMem hw, List.idxOf_append_of_notMem hw, List.idxOf_cons_ne _ (by rintro rfl; exact hw hz),
      Nat.add_succ]
  have hleft : ∀ (t : List Letter) (w : Letter), w ∈ l → (l ++ t).idxOf w < l.length := fun t w hw => by
    rw [List.idxOf_append_of_mem hw]
    exact List.idxOf_lt_length_iff.2 hw
  have hright : ∀ w, w ∉ l → l.length ≤ (l ++ r).idxOf w := fun w hw => by
    rw [List.idxOf_append_of_notMem hw]
    exact Nat.le_add_right _ _
  by_cases hx : x ∈ l <;> by_cases hy : y ∈ l
  · simp only [List.idxOf_append_of_mem hx, List.idxOf_append_of_mem hy]
  · have := hleft r x hx
    have := hleft (z :: r) x hx
    have := hright y hy
    have := hskip y hy
    omega
  · have := hleft r y hy
    have := hleft (z :: r) y hy
    have := hright x hx
    have := hskip x hx
    omega
  · rw [hskip x hx, hskip y hy, Nat.add_lt_add_iff_right]

/-- The kept letters stand in the order in which they first occur (R133). -/
theorem idxOf_keepFirst_lt {kept l : List Letter} (x y : Letter) :
    (keepFirst kept l).idxOf x < (keepFirst kept l).idxOf y ↔ (kept ++ l).idxOf x < (kept ++ l).idxOf y := by
  fun_induction keepFirst kept l with
  | case1 kept => rw [List.append_nil]
  | case2 kept z zs hz ih => rw [ih, idxOf_lt_idxOf_insert hz]
  | case3 kept z zs hz ih => rw [ih, List.append_assoc, List.singleton_append]

theorem foldJ_ne (x : Letter) : foldJ x ≠ 9 := by
  unfold foldJ
  split
  · decide
  · assumption

theorem foldJ_of_ne {x : Letter} (h : x ≠ 9) : foldJ x = x := if_neg h

theorem mem_lettersButJ {x : Letter} : x ∈ lettersButJ ↔ x ≠ 9 := by
  simp [lettersButJ]

theorem mem_pfMatrix {k : List Letter} {x : Letter} : x ∈ pfMatrix k ↔ x ≠ 9 := by
  rw [pfMatrix, mem_keepFirst, List.mem_append, mem_lettersButJ]
  refine ⟨?_, fun h => .inr (.inr h)⟩
  rintro (h | h | h)
  · cases h
  · obtain ⟨z, -, rfl⟩ := List.mem_map.1 h
    exact foldJ_ne z
  · exact h

theorem pfMatrix_nodup (k : List Letter) : (pfMatrix k).Nodup := keepFirst_nodup _ List.nodup_nil

/-- The matrix is a rearrangement of the letters but `J`. -/
theorem pfMatrix_length (k : List Letter) : (pfMatrix k).length = 25 := by
  have hperm : (pfMatrix k).Perm lettersButJ :=
    (List.perm_ext_iff_of_nodup (pfMatrix_nodup k) ((List.nodup_finRange 26).filter _)).2
      fun x => mem_pfMatrix.trans mem_lettersButJ.symm
  rw [hperm.length_eq]
  decide

/-- Settles O18, from what `keepFirst` keeps and in which order. -/
theorem playfairMatrixHoldsEachLetterOnce : Obligations.PlayfairMatrixHoldsEachLetterOnce := fun k =>
  ⟨pfMatrix_length k, pfMatrix_nodup k, fun h => mem_pfMatrix.1 h rfl, fun x y _ _ => idxOf_keepFirst_lt x y⟩

/-! ### The pairs -/

theorem pairsSpell_nil {pairs : List (Letter × Letter)} : PairsSpell pairs [] ↔ pairs = [] := by
  cases pairs with
  | nil => simp [PairsSpell]
  | cons ab pairs => simp [PairsSpell]

/-- A letter and a different next one are a pair (R134). -/
theorem pairsSpell_cons_of_ne {a b : Letter} {rest : List Letter} {pairs : List (Letter × Letter)} (hne : b ≠ a) :
    PairsSpell pairs (a :: b :: rest) ↔ ∃ pairs', pairs = (a, b) :: pairs' ∧ PairsSpell pairs' rest := by
  constructor
  · cases pairs with
    | nil => rintro ⟨⟩
    | cons ab pairs =>
      rintro (⟨-, _, ⟨⟩, h⟩ | ⟨-, _, ⟨⟩, hnil | hhead, -⟩)
      · exact ⟨pairs, rfl, h⟩
      · cases hnil
      · exact absurd (Option.some.inj hhead) hne
  · rintro ⟨pairs', rfl, h⟩
    exact .inl ⟨hne, rest, rfl, h⟩

/-- A letter that ends the text or stands before its equal is paired with `X` (R134). -/
theorem pairsSpell_cons_of_pad {a : Letter} {rest : List Letter} {pairs : List (Letter × Letter)}
    (hpad : rest = [] ∨ rest.head? = some a) :
    PairsSpell pairs (a :: rest) ↔ ∃ pairs', pairs = (a, padLetter) :: pairs' ∧ PairsSpell pairs' rest := by
  constructor
  · cases pairs with
    | nil => rintro ⟨⟩
    | cons ab pairs =>
      obtain ⟨a', b'⟩ := ab
      rintro (⟨hne, _, ⟨⟩, -⟩ | ⟨rfl, _, ⟨⟩, -, h⟩)
      · obtain hnil | hhead := hpad
        · cases hnil
        · exact absurd (Option.some.inj hhead) hne
      · exact ⟨pairs, rfl, h⟩
  · rintro ⟨pairs', rfl, h⟩
    exact .inr ⟨rfl, rest, rfl, hpad, h⟩

/-- The pairs that spell a text are those `splitPairs` makes (R134). -/
theorem pairsSpell_iff {p : List Letter} {pairs : List (Letter × Letter)} :
    PairsSpell pairs p ↔ pairs = splitPairs p := by
  fun_induction splitPairs p generalizing pairs with
  | case1 => exact pairsSpell_nil
  | case2 a => simp only [pairsSpell_cons_of_pad (.inl rfl), pairsSpell_nil, exists_eq_right]
  | case3 a b rest hne ih => simp only [pairsSpell_cons_of_ne hne, ih, exists_eq_right]
  | case4 a b rest heq ih =>
    have hpad : b :: rest = [] ∨ (b :: rest).head? = some a := .inr (congrArg some (not_not.1 heq))
    simp only [pairsSpell_cons_of_pad hpad, ih, exists_eq_right]

/-- Where the letters of a pair come from; only `X` before `X` makes an equal pair (R134). -/
theorem of_mem_splitPairs {p : List Letter} {a b : Letter} (h : (a, b) ∈ splitPairs p) :
    a ∈ p ∧ (b ∈ p ∨ b = padLetter) ∧ (a = b → a = padLetter) := by
  fun_induction splitPairs p with
  | case1 => cases h
  | case2 x =>
    obtain ⟨rfl, rfl⟩ := Prod.mk.inj (List.mem_singleton.1 h)
    exact ⟨List.mem_cons_self, .inr rfl, id⟩
  | case3 x y rest hne ih =>
    obtain hhead | htail := List.mem_cons.1 h
    · obtain ⟨rfl, rfl⟩ := Prod.mk.inj hhead
      exact ⟨List.mem_cons_self, .inl (by simp), fun heq => absurd heq.symm hne⟩
    · obtain ⟨ha, hb, heq⟩ := ih htail
      exact ⟨by simp [ha], hb.imp_left fun hb => by simp [hb], heq⟩
  | case4 x y rest hyx ih =>
    obtain hhead | htail := List.mem_cons.1 h
    · obtain ⟨rfl, rfl⟩ := Prod.mk.inj hhead
      exact ⟨List.mem_cons_self, .inr rfl, id⟩
    · obtain ⟨ha, hb, heq⟩ := ih htail
      exact ⟨.tail x ha, hb.imp_left (.tail x), heq⟩

theorem of_mem_pfPairs {I : List Byte} {a b : Letter} (h : (a, b) ∈ pfPairs I) :
    a ≠ 9 ∧ b ≠ 9 ∧ (a = b → a = padLetter) := by
  have hfold : ∀ x ∈ (normalize I).map foldJ, x ≠ 9 := fun x hx => by
    obtain ⟨z, -, rfl⟩ := List.mem_map.1 hx
    exact foldJ_ne z
  obtain ⟨ha, hb, heq⟩ := of_mem_splitPairs h
  refine ⟨hfold a ha, ?_, heq⟩
  obtain hb | rfl := hb
  · exact hfold b hb
  · decide

/-- Settles O19: `splitPairs` makes the only pairs that spell a text, out of letters of the text and `X`. -/
theorem playfairPairsAreEqualOnlyAsXX : Obligations.PlayfairPairsAreEqualOnlyAsXX := fun _ =>
  ⟨pairsSpell_iff.2 rfl, fun _ => pairsSpell_iff.1, fun _ _ => of_mem_pfPairs⟩

/-! ### One pair -/

section
variable {m : List Letter} {r c ra ca rb cb : Nat}

/-- The place of a letter in the matrix. -/
theorem idxOf_getD_place (hlen : m.length = 25) (hm : m.Nodup) (hr : r < 5) (hc : c < 5) :
    m.idxOf (m.getD (5 * r + c) 0) = 5 * r + c := by
  rw [List.getD_eq_getElem _ _ (by omega)]
  exact hm.idxOf_getElem _ _

/-- Every letter of the matrix has a place. -/
theorem exists_place {a : Letter} (hlen : m.length = 25) (ha : a ∈ m) :
    ∃ r c, r < 5 ∧ c < 5 ∧ a = m.getD (5 * r + c) 0 := by
  have hlt := List.idxOf_lt_length_iff.2 ha
  refine ⟨m.idxOf a / 5, m.idxOf a % 5, by omega, Nat.mod_lt _ (by decide), ?_⟩
  rw [Nat.div_add_mod, List.getD_eq_getElem _ _ hlt, List.getElem_idxOf]

theorem place_mem (hlen : m.length = 25) (hr : r < 5) (hc : c < 5) : m.getD (5 * r + c) 0 ∈ m := by
  rw [List.getD_eq_getElem _ _ (by omega)]
  exact List.getElem_mem _

end

/-- One step along a row or column and one step back, as residues (R135). -/
theorem shift5_eq (x : Nat) {d : Int} {u : Nat} (h : (d = 1 ∧ u = 1) ∨ (d = -1 ∧ u = 4)) : shift5 x d = (x + u) % 5 := by
  unfold shift5
  omega

/-- Settles O20: the places of the two letters decide the case. -/
theorem playfairPairRule : Obligations.PlayfairPairRule := by
  intro m ra ca rb cb hlen hm hra hca hrb hcb d u hd
  have hrow : ∀ r c, c < 5 → (5 * r + c) / 5 = r := by omega
  have hcol : ∀ r c, c < 5 → (5 * r + c) % 5 = c := by omega
  simp only [pfPair, pfAt, idxOf_getD_place hlen hm hra hca, idxOf_getD_place hlen hm hrb hcb, hrow _ _ hca, hcol _ _ hca,
    hrow _ _ hcb, hcol _ _ hcb, shift5_eq _ hd]

/-- For two letters of the matrix the rule in one direction gives two letters of the matrix, and the rule in the other
direction gives them back (R135). -/
theorem pfPair_pfPair_neg {m : List Letter} (hlen : m.length = 25) (hm : m.Nodup) {a b : Letter} (ha : a ∈ m)
    (hb : b ∈ m) {d : Int} (hd : d = 1 ∨ d = -1) :
    ∃ x y, x ∈ m ∧ y ∈ m ∧ pfPair m d a b = [x, y] ∧ pfPair m (-d) x y = [a, b] := by
  obtain ⟨ra, ca, hra, hca, rfl⟩ := exists_place hlen ha
  obtain ⟨rb, cb, hrb, hcb, rfl⟩ := exists_place hlen hb
  obtain ⟨u, v, hu, hv, huv⟩ : ∃ u v, ((d = 1 ∧ u = 1) ∨ (d = -1 ∧ u = 4)) ∧ ((-d = 1 ∧ v = 1) ∨ (-d = -1 ∧ v = 4)) ∧
      u + v = 5 := by
    obtain rfl | rfl := hd
    exacts [⟨1, 4, by decide⟩, ⟨4, 1, by decide⟩]
  have hlt : ∀ z, (z + u) % 5 < 5 := fun z => Nat.mod_lt _ (by decide)
  have hback : ∀ z, z < 5 → ((z + u) % 5 + v) % 5 = z := by omega
  rw [playfairPairRule m ra ca rb cb hlen hm hra hca hrb hcb d u hu]
  by_cases hr : ra = rb
  · subst hr
    refine ⟨_, _, place_mem hlen hra (hlt ca), place_mem hlen hra (hlt cb), if_pos rfl, ?_⟩
    rw [playfairPairRule m _ _ _ _ hlen hm hra (hlt ca) hra (hlt cb) _ v hv, if_pos rfl, hback ca hca, hback cb hcb]
  · by_cases hc : ca = cb
    · subst hc
      refine ⟨_, _, place_mem hlen (hlt ra) hca, place_mem hlen (hlt rb) hca, by rw [if_neg hr, if_pos rfl], ?_⟩
      rw [playfairPairRule m _ _ _ _ hlen hm (hlt ra) hca (hlt rb) hca _ v hv, if_neg (by omega), if_pos rfl,
        hback ra hra, hback rb hrb]
    · refine ⟨_, _, place_mem hlen hra hcb, place_mem hlen hrb hca, by rw [if_neg hr, if_neg hc], ?_⟩
      rw [playfairPairRule m _ _ _ _ hlen hm hra hcb hrb hca _ v hv, if_neg hr, if_neg (Ne.symm hc)]

/-! ### The text -/

/-- The rule for one pair under a keyword's matrix, on letters that are not `J` (R135). -/
theorem pfPair_pfMatrix (k : List Letter) {a b : Letter} (ha : a ≠ 9) (hb : b ≠ 9) {d : Int} (hd : d = 1 ∨ d = -1) :
    ∃ x y, x ≠ 9 ∧ y ≠ 9 ∧ pfPair (pfMatrix k) d a b = [x, y] ∧ pfPair (pfMatrix k) (-d) x y = [a, b] := by
  obtain ⟨x, y, hx, hy, h⟩ :=
    pfPair_pfPair_neg (pfMatrix_length k) (pfMatrix_nodup k) (mem_pfMatrix.2 ha) (mem_pfMatrix.2 hb) hd
  exact ⟨x, y, mem_pfMatrix.1 hx, mem_pfMatrix.1 hy, h⟩

/-- The letters of the pairs in order, each pair taken through the rule (R136, R137). -/
def pfLetters (m : List Letter) (d : Int) (pairs : List (Letter × Letter)) : List Letter :=
  pairs.flatMap fun ab => pfPair m d ab.1 ab.2

theorem playfair_of_keyword {K : List Byte} {k : List Letter} (h : keyword K = .ok k) (d : Int) (I : List Byte) :
    playfair d K I = .ok (letters (pfLetters (pfMatrix k) d (pfPairs I))) :=
  result_bind_eq_ok.2 ⟨k, h, rfl⟩

theorem pfLetters_length (m : List Letter) (d : Int) (pairs : List (Letter × Letter)) :
    (pfLetters m d pairs).length = 2 * pairs.length := by
  rw [pfLetters, length_flatMap_of_length_eq fun _ _ => pfPair_length _ _ _ _, mul_comm]

/-- No `J` comes out of pairs without `J` (R133). -/
theorem ne_of_mem_pfLetters {k : List Letter} {d : Int} (hd : d = 1 ∨ d = -1) {pairs : List (Letter × Letter)}
    (hJ : ∀ ab ∈ pairs, ab.1 ≠ 9 ∧ ab.2 ≠ 9) {z : Letter} (hz : z ∈ pfLetters (pfMatrix k) d pairs) : z ≠ 9 := by
  obtain ⟨ab, hab, hz⟩ := List.mem_flatMap.1 hz
  obtain ⟨ha, hb⟩ := hJ ab hab
  obtain ⟨x, y, hx, hy, hxy, -⟩ := pfPair_pfMatrix k ha hb hd
  rw [hxy, List.mem_pair] at hz
  obtain rfl | rfl := hz
  exacts [hx, hy]

theorem pfPairs_ne {I : List Byte} : ∀ ab ∈ pfPairs I, ab.1 ≠ 9 ∧ ab.2 ≠ 9 := fun _ hab =>
  have ⟨ha, hb, _⟩ := of_mem_pfPairs hab
  ⟨ha, hb⟩

/-- `0x4A` is the byte of the letter `J` alone. -/
theorem eq_of_chr26_eq_J : ∀ x : Letter, chr26 x = 0x4A#8 → x = 9 := by decide

/-- Settles O21: both commands are `playfair` in one direction, and the rule stays within the matrix. -/
theorem playfairEnciphersThePairs : Obligations.PlayfairEnciphersThePairs := by
  intro i d s hi hp hl hK
  have hrule := playfair_of_keyword (keyword_of_isKeyword hK) d (inputString s)
  have hcmd : commandRule s.params.rotor i (keyString s) (inputString s) = playfair d (keyString s) (inputString s) := by
    obtain ⟨rfl, rfl⟩ | ⟨rfl, rfl⟩ := hi
    exacts [rfl, rfl]
  refine ⟨_, completesWith_of_rule_ok hp hl (hcmd.trans hrule), ?_, ?_, fun hJ => ?_⟩
  · rw [letters, pfLetters, List.map_flatMap]
  · rw [letters_length, pfLetters_length]
  · obtain ⟨z, hz, hzJ⟩ := List.mem_map.1 hJ
    exact ne_of_mem_pfLetters (hi.imp And.right And.right) pfPairs_ne hz (eq_of_chr26_eq_J z hzJ)

/-- The letters of enciphered pairs, none of which repeats a letter, are cut into the same pairs again, and decryption
gives the pairs' letters back (R134, R135). -/
theorem pfLetters_splitPairs (k : List Letter) {pairs : List (Letter × Letter)} (hJ : ∀ ab ∈ pairs, ab.1 ≠ 9 ∧ ab.2 ≠ 9)
    (hne : ∀ j, 2 * j + 1 < (pfLetters (pfMatrix k) 1 pairs).length →
      (pfLetters (pfMatrix k) 1 pairs).getD (2 * j) 0 ≠ (pfLetters (pfMatrix k) 1 pairs).getD (2 * j + 1) 0) :
    pfLetters (pfMatrix k) (-1) (splitPairs ((pfLetters (pfMatrix k) 1 pairs).map foldJ)) =
      pairs.flatMap fun ab => [ab.1, ab.2] := by
  induction pairs with
  | nil => rfl
  | cons ab pairs ih =>
    obtain ⟨ha, hb⟩ := hJ ab List.mem_cons_self
    obtain ⟨x, y, hx, hy, hxy, hback⟩ := pfPair_pfMatrix k ha hb (.inl rfl)
    have hcons : pfLetters (pfMatrix k) 1 (ab :: pairs) = x :: y :: pfLetters (pfMatrix k) 1 pairs := by
      rw [pfLetters, List.flatMap_cons, hxy]
      rfl
    rw [hcons] at hne ⊢
    have hyx : y ≠ x := (hne 0 (by simp)).symm
    have hrest := ih (fun ab hab => hJ ab (.tail _ hab)) fun j hj =>
      hne (j + 1) (by simp only [List.length_cons]; omega)
    rw [List.map_cons, List.map_cons, foldJ_of_ne hx, foldJ_of_ne hy, splitPairs, if_pos hyx, pfLetters, List.flatMap_cons,
      hback, ← pfLetters, hrest, List.flatMap_cons]

/-- Settles O22: unequal bytes are unequal letters, so the ciphertext falls into the same pairs. -/
theorem playfairRoundTrip : Obligations.PlayfairRoundTrip := by
  intro K I out h hne
  obtain ⟨k, hk, ⟨⟩⟩ := result_bind_eq_ok.1 h
  refine (playfair_of_keyword hk (-1) _).trans ?_
  rw [pfPairs, normalize_letters]
  refine congrArg (fun l => Except.ok (letters l)) (pfLetters_splitPairs k pfPairs_ne fun j hj heq => ?_)
  refine hne j (by rwa [letters_length]) ?_
  calc (letters (pfLetters (pfMatrix k) 1 (pfPairs I))).getD (2 * j) 0
    _ = chr26 ((pfLetters (pfMatrix k) 1 (pfPairs I)).getD (2 * j) 0) := letters_getD _ 0 (Nat.lt_of_succ_lt hj)
    _ = chr26 ((pfLetters (pfMatrix k) 1 (pfPairs I)).getD (2 * j + 1) 0) := congrArg chr26 heq
    _ = (letters (pfLetters (pfMatrix k) 1 (pfPairs I))).getD (2 * j + 1) 0 := (letters_getD _ 0 hj).symm

end Sys2Proof.Machine
end

section
/-! PROOF. The Hill commands (R138 to R143 of 41_polyalphabetic.md). A matrix over the letters is read as a matrix over the
integers mod 26, where the library knows determinants and adjugates, and a block of text as a row vector. -/
namespace Sys2Proof.Machine

/-! ### Letters as residues mod 26 -/

/-- A letter as an integer mod 26 (R100, R108). -/
def residue (x : Letter) : ZMod 26 := (x.val : ZMod 26)

theorem residue_letterOfInt (z : Int) : residue (letterOfInt z) = z := by
  calc residue (letterOfInt z)
    _ = (((letterOfInt z).val : Int) : ZMod 26) := (Int.cast_natCast _).symm
    _ = ((z % 26 : Int) : ZMod 26) := by rw [letterOfInt_val]
    _ = z := ZMod.intCast_mod z 26

theorem residue_eq_natCast_iff {x : Letter} {n : Nat} : residue x = n ↔ x.val = n % 26 := by
  rw [residue, ZMod.natCast_eq_natCast_iff', Nat.mod_eq_of_lt x.isLt]

theorem residue_injective : Function.Injective residue := fun x y h => by
  rw [residue.eq_def y, residue_eq_natCast_iff, Nat.mod_eq_of_lt y.isLt] at h
  exact Fin.ext h

/-- A sum over the first `n` naturals, as the model writes it and as the library does. -/
theorem list_sum_range {α : Type} [AddCommMonoid α] (n : Nat) (f : Nat → α) :
    ((List.range n).map f).sum = ∑ i : Fin n, f i := by
  rw [Fin.sum_univ_eq_sum_range f n]
  rfl

/-! ### Integer matrices -/

/-- A list of rows as an `n × n` matrix. -/
def intMatrix (n : Nat) (M : List (List Int)) : Matrix (Fin n) (Fin n) Int := .of fun r c => intEntry M r c

theorem matrixOf_getD_getD {α : Type} {n r c : Nat} (f : Nat → Nat → α) (d : α) (hr : r < n) (hc : c < n) :
    ((matrixOf n f).getD r []).getD c d = f r c := by
  simp [matrixOf, List.getD, hr, hc]

theorem getD_eraseIdx {α : Type} (l : List α) (d : α) (i r : Nat) :
    (l.eraseIdx i).getD r d = l.getD (if r < i then r else r + 1) d := by
  rw [List.getD_eq_getElem?_getD, List.getElem?_eraseIdx, List.getD_eq_getElem?_getD]
  split <;> rfl

/-- The entries of a matrix without row `i` and column `j` (R139). -/
theorem intEntry_minor (M : List (List Int)) (i j r c : Nat) :
    intEntry (minor M i j) r c = intEntry M (if r < i then r else r + 1) (if c < j then c else c + 1) := by
  have hrow : (minor M i j).getD r [] = ((M.eraseIdx i).getD r []).eraseIdx j :=
    List.getD_map (M.eraseIdx i) [] fun row => row.eraseIdx j
  rw [intEntry, hrow, getD_eraseIdx, getD_eraseIdx, intEntry]

/-- Removing a row and a column is taking the submatrix that skips them (R139). -/
theorem intMatrix_minor {n : Nat} (M : List (List Int)) (i j : Fin (n + 1)) :
    intMatrix n (minor M i j) = (intMatrix (n + 1) M).submatrix i.succAbove j.succAbove := by
  ext r c
  have hval : ∀ (p : Fin (n + 1)) (x : Fin n), (p.succAbove x).val = if x.val < p.val then x.val else x.val + 1 :=
    fun p x => by
      simp only [Fin.succAbove, Fin.lt_def, Fin.val_castSucc]
      split <;> rfl
  simp only [intMatrix, Matrix.of_apply, Matrix.submatrix_apply, intEntry_minor, hval]

theorem det2_eq (M : List (List Int)) : det2 M = (intMatrix 2 M).det := by
  rw [Matrix.det_fin_two]
  rfl

/-- `Det` is the determinant (R139). -/
theorem det_eq {n : Nat} (hn : n = 2 ∨ n = 3) (M : List (List Int)) : det n M = (intMatrix n M).det := by
  obtain rfl | rfl := hn
  · exact det2_eq M
  · rw [Matrix.det_fin_three]
    simp [det, det3, intMatrix]
    ring

/-- `Adj` is the adjugate (R139). -/
theorem intMatrix_adjugate {n : Nat} (hn : n = 2 ∨ n = 3) (M : List (List Int)) :
    intMatrix n (adjugate n M) = (intMatrix n M).adjugate := by
  obtain rfl | rfl := hn
  · rw [Matrix.adjugate_fin_two]
    ext r c
    fin_cases r <;> fin_cases c <;> rfl
  · ext r c
    rw [Matrix.adjugate_fin_succ_eq_det_submatrix, ← intMatrix_minor, ← det2_eq]
    exact matrixOf_getD_getD _ 0 r.isLt c.isLt

/-! ### Matrices mod 26 -/

/-- A matrix over the letters as an `n × n` matrix mod 26 (R139). -/
def residues (n : Nat) (M : List (List Letter)) : Matrix (Fin n) (Fin n) (ZMod 26) :=
  .of fun r c => residue (letterEntry M r c)

theorem intEntry_toInts (M : List (List Letter)) (r c : Nat) :
    intEntry (toInts M) r c = ((letterEntry M r c).val : Int) := by
  have hrow : (toInts M).getD r [] = (M.getD r []).map fun x => (x.val : Int) :=
    List.getD_map M [] fun row : List Letter => row.map fun x : Letter => (x.val : Int)
  rw [intEntry, hrow]
  exact List.getD_map (M.getD r []) 0 fun x => (x.val : Int)

theorem intMatrix_toInts (n : Nat) (M : List (List Letter)) :
    (Int.castRingHom (ZMod 26)).mapMatrix (intMatrix n (toInts M)) = residues n M := by
  ext r c
  simp [intMatrix, residues, residue, intEntry_toInts]

theorem det_toInts {n : Nat} (hn : n = 2 ∨ n = 3) (M : List (List Letter)) :
    ((det n (toInts M) : Int) : ZMod 26) = (residues n M).det := by
  rw [det_eq hn, ← intMatrix_toInts, ← RingHom.map_det, eq_intCast]

theorem adjugate_toInts {n : Nat} (hn : n = 2 ∨ n = 3) (M : List (List Letter)) (r c : Fin n) :
    ((intEntry (adjugate n (toInts M)) r c : Int) : ZMod 26) = (residues n M).adjugate r c := by
  rw [← intMatrix_toInts, ← RingHom.map_adjugate, ← intMatrix_adjugate hn]
  rfl

/-! ### The key -/

theorem blocks_getD {α : Type} {n count r : Nat} (l : List α) (h : r < count) :
    (blocks n count l).getD r [] = (l.drop (n * r)).take n := by
  induction count generalizing l r with
  | zero => omega
  | succ count ih =>
    cases r with
    | zero => rfl
    | succ r => rw [blocks, List.getD_cons_succ, ih _ (by omega), List.drop_drop, Nat.mul_succ, Nat.add_comm]

theorem blocks_getD_getD {α : Type} {n count r c : Nat} (l : List α) (d : α) (hr : r < count) (hc : c < n) :
    ((blocks n count l).getD r []).getD c d = l.getD (n * r + c) d := by
  rw [blocks_getD l hr, List.getD_eq_getElem?_getD, List.getElem?_take_of_lt hc, List.getElem?_drop,
    List.getD_eq_getElem?_getD]

/-- A byte string of the layout of R138 is a key of its size. -/
theorem hillKey_of_layout {K : List Byte} (h : HillLayout K) :
    ∃ k, hillKey K = .ok k ∧ k.n = (K.getD 0 0).toNat := by
  cases K with
  | nil => simp [HillLayout] at h
  | cons n0 entries =>
    simp only [HillLayout, List.getD_cons_zero, List.length_cons] at h
    refine ⟨_, if_pos ?_, rfl⟩
    rcases h with ⟨hn, hlen⟩ | ⟨hn, hlen⟩ <;> rw [hn] <;> omega

theorem hillKey_of_not_layout {K : List Byte} (h : ¬HillLayout K) : hillKey K = .error .invalidKey := by
  cases K with
  | nil => rfl
  | cons n0 entries =>
    refine if_neg fun ⟨hn, hlen⟩ => h ?_
    simp only [HillLayout, List.getD_cons_zero, List.length_cons]
    rcases hn with hn | hn <;> rw [hn] at hlen <;> omega

section
variable {K : List Byte} {k : HillMatrix} (hk : hillKey K = .ok k)
include hk

theorem hillKey_n : k.n = (K.getD 0 0).toNat := by
  cases K with
  | nil => cases hk
  | cons n0 entries =>
    rw [hillKey] at hk
    split at hk
    · cases hk; rfl
    · cases hk

/-- The matrix of a key has the key's bytes mod 26, row by row (R138). -/
theorem residue_letterEntry_hillKey {r c : Nat} (hr : r < k.n) (hc : c < k.n) :
    residue (letterEntry k.rows r c) = (hillByte K k.n r c : ZMod 26) := by
  cases K with
  | nil => cases hk
  | cons n0 entries =>
    rw [hillKey] at hk
    split at hk
    · cases hk
      have hrow : ((blocks n0.toNat n0.toNat entries).map fun row => row.map fun b => letterOfInt b.toNat).getD r [] =
          ((blocks n0.toNat n0.toNat entries).getD r []).map fun b => letterOfInt b.toNat :=
        List.getD_map _ [] fun row : List Byte => row.map fun b => letterOfInt b.toNat
      have hbyte : (n0 :: entries).getD (1 + n0.toNat * r + c) 0 = entries.getD (n0.toNat * r + c) 0 := by
        rw [Nat.add_assoc, Nat.add_comm 1, List.getD_cons_succ]
      rw [hillByte, hbyte, ← blocks_getD_getD entries 0 hr hc, ← residue_letterOfInt, letterEntry, hrow]
      exact congrArg residue (List.getD_map _ (0 : Byte) fun b => letterOfInt b.toNat)
    · cases hk

/-- The determinant of a key is that of its bytes (R139). -/
theorem hillDet_cast : ((hillDet K : Int) : ZMod 26) = (residues k.n k.rows).det := by
  have hsize := (hillKey_size hk).1
  have hn := hillKey_n hk
  have hentry := fun r c => residue_letterEntry_hillKey hk (r := r) (c := c)
  obtain ⟨n, rows⟩ := k
  obtain rfl | rfl := hsize
  · rw [hillDet, ← hn, if_pos rfl, Matrix.det_fin_two]
    simp [residues, hentry]
  · rw [hillDet, ← hn, if_neg (by simp), Matrix.det_fin_three]
    simp [residues, hentry]
    ring

/-- The check of HillInverse is that the determinant of the key's bytes is coprime to 26 (R140). -/
theorem gcd_det_eq : Nat.gcd ((det k.n (toInts k.rows) % 26).toNat % 26) 26 = Int.gcd (hillDet K) 26 := by
  have hmod : det k.n (toInts k.rows) % 26 = hillDet K % 26 :=
    (ZMod.intCast_eq_intCast_iff' _ _ 26).1 ((det_toInts (hillKey_size hk).1 _).trans (hillDet_cast hk).symm)
  obtain ⟨x, hx⟩ := Int.eq_ofNat_of_zero_le (Int.emod_nonneg (hillDet K) (by decide : (26 : Int) ≠ 0))
  have hlt : x < 26 := by omega
  calc Nat.gcd ((det k.n (toInts k.rows) % 26).toNat % 26) 26
    _ = Nat.gcd x 26 := by rw [hmod, hx, Int.toNat_natCast, Nat.mod_eq_of_lt hlt]
    _ = Int.gcd (hillDet K % 26) 26 := by rw [hx]; rfl
    _ = Int.gcd (hillDet K) 26 := Int.gcd_emod ..

theorem hillInverse_of_coprime (h : Int.gcd (hillDet K) 26 = 1) : ∃ inv, hillInverse k = .ok inv := by
  obtain ⟨x, hx, -⟩ := modInv_of_gcd_eq_one (by decide) ((gcd_det_eq hk).trans h)
  exact ⟨_, result_bind_eq_ok.2 ⟨x, orRaise_eq_ok.2 hx, rfl⟩⟩

theorem hillInverse_of_not_coprime (h : Int.gcd (hillDet K) 26 ≠ 1) : hillInverse k = .error .nonInvertibleKey := by
  rw [hillInverse, modInv_of_gcd_ne_one (by decide) (by rwa [gcd_det_eq hk])]
  rfl

end

/-- A rule whose first part completes is the rest of it. -/
theorem result_bind_of_ok {α β : Type} {x : Except ErrorKind α} {a : α} (h : x = .ok a) (f : α → Except ErrorKind β) :
    (x >>= f) = f a := by
  rw [h]
  rfl

/-- Settles O23: the layout is checked first, and each failed check is the error of both rules. -/
theorem hillKeyErrors : Obligations.HillKeyErrors := by
  intro i s hi hl
  refine ⟨fun hlayout => failsWith_of_rule_error hl ?_, fun hlayout hdet => failsWith_of_rule_error hl ?_⟩
  · have hkey := hillKey_of_not_layout hlayout
    obtain rfl | rfl := hi
    all_goals exact congrArg (· >>= _) hkey
  · obtain ⟨k, hk, -⟩ := hillKey_of_layout hlayout
    have hinv := hillInverse_of_not_coprime hk hdet
    obtain rfl | rfl := hi
    all_goals exact (result_bind_of_ok hk _).trans (congrArg (· >>= _) hinv)

/-! ### The inverse -/

theorem mul_modEq_one_of_modInv {a x : Nat} (h : modInv a 26 = some x) : a * x ≡ 1 [MOD 26] := by
  by_cases hgcd : Nat.gcd (a % 26) 26 = 1
  · obtain ⟨y, hy, -, hay⟩ := modInv_of_gcd_eq_one (by decide) hgcd
    rw [hy, Option.some_inj] at h
    rwa [← h]
  · rw [modInv_of_gcd_ne_one (by decide) hgcd] at h
    cases h

/-- What HillInverse answers: the adjugate times an inverse of the determinant, where there is one (R140). -/
theorem hillInverse_eq_ok {k : HillMatrix} {inv : List (List Letter)} (h : hillInverse k = .ok inv) :
    ∃ dinv : Nat, ((det k.n (toInts k.rows) : Int) : ZMod 26) * dinv = 1 ∧
      inv = matrixOf k.n fun r c => letterOfInt ((dinv : Int) * intEntry (adjugate k.n (toInts k.rows)) r c) := by
  obtain ⟨dinv, hdinv, ⟨⟩⟩ := result_bind_eq_ok.1 h
  refine ⟨dinv, ?_, rfl⟩
  have hmod := mul_modEq_one_of_modInv (orRaise_eq_ok.1 hdinv)
  obtain ⟨x, hx⟩ := Int.eq_ofNat_of_zero_le (Int.emod_nonneg (det k.n (toInts k.rows)) (by decide : (26 : Int) ≠ 0))
  rw [hx, Int.toNat_natCast] at hmod
  calc ((det k.n (toInts k.rows) : Int) : ZMod 26) * dinv
    _ = ((det k.n (toInts k.rows) % 26 : Int) : ZMod 26) * dinv :=
      congrArg (· * (dinv : ZMod 26)) (ZMod.intCast_mod _ 26).symm
    _ = ((x * dinv : Nat) : ZMod 26) := by rw [hx, Int.cast_natCast, Nat.cast_mul]
    _ = ((1 : Nat) : ZMod 26) := (ZMod.natCast_eq_natCast_iff _ _ 26).2 hmod
    _ = 1 := Nat.cast_one

/-- The product with the inverse is the identity, since `A · adj A = det A · 1` (R140). -/
theorem residues_mul_inverse {k : HillMatrix} {inv : List (List Letter)} (hn : k.n = 2 ∨ k.n = 3)
    (h : hillInverse k = .ok inv) : residues k.n k.rows * residues k.n inv = 1 := by
  obtain ⟨dinv, hdet, rfl⟩ := hillInverse_eq_ok h
  have hinv : residues k.n (matrixOf k.n fun r c =>
      letterOfInt ((dinv : Int) * intEntry (adjugate k.n (toInts k.rows)) r c)) =
        (dinv : ZMod 26) • (residues k.n k.rows).adjugate := by
    ext r c
    rw [residues, Matrix.of_apply, letterEntry, matrixOf_getD_getD _ 0 r.isLt c.isLt, residue_letterOfInt,
      Int.cast_mul, Int.cast_natCast, adjugate_toInts hn, Matrix.smul_apply, smul_eq_mul]
  rw [det_toInts hn, mul_comm] at hdet
  rw [hinv, Matrix.mul_smul, Matrix.mul_adjugate, smul_smul, hdet, one_smul]

/-- A sum of naturals as the statements write it, mod 26. -/
theorem cast_list_sum (n : Nat) (f : Nat → Nat) :
    ((((List.range n).map f).sum : Nat) : ZMod 26) = ∑ i : Fin n, (f i : ZMod 26) := by
  rw [list_sum_range, Nat.cast_sum]

/-- Settles O24: the entries of the product. -/
theorem hillInverseIsTheInverse : Obligations.HillInverseIsTheInverse := by
  intro K k inv hk hinv r c hr hc
  have hentry := congrFun₂ (residues_mul_inverse (hillKey_size hk).1 hinv) ⟨r, hr⟩ ⟨c, hc⟩
  have hone : ((1 : Matrix (Fin k.n) (Fin k.n) (ZMod 26)) ⟨r, hr⟩ ⟨c, hc⟩) =
      ((if r = c then 1 else 0 : Nat) : ZMod 26) := by
    simp only [Matrix.one_apply, Nat.cast_ite, Nat.cast_one, Nat.cast_zero, Fin.mk.injEq]
  have hsum : ((((List.range k.n).map fun j => (letterEntry k.rows r j).val * (letterEntry inv j c).val).sum : Nat) :
      ZMod 26) = ((if r = c then 1 else 0 : Nat) : ZMod 26) := by
    rw [cast_list_sum, ← hone, ← hentry, Matrix.mul_apply]
    exact Finset.sum_congr rfl fun j _ => Nat.cast_mul _ _
  have hmod := (ZMod.natCast_eq_natCast_iff' _ _ 26).1 hsum
  rw [hmod]
  split <;> rfl

/-! ### Multiplying the blocks -/

section
variable {α : Type} (s : List α) {m : Nat} (c : α)

/-- The length of the padded text is that of the blocks it takes (R111). -/
theorem padTo_length_eq (hm : 0 < m) : (padTo s m c).length = m * ((s.length + m - 1) / m) := by
  have hlt := padTo_length_lt s c hm
  have hle : s.length ≤ (padTo s m c).length := by simp [padTo]
  obtain ⟨q, hq⟩ := Nat.dvd_of_mod_eq_zero (padTo_length s m c hm)
  have hdiv : (s.length + m - 1) / m = q := by
    apply Nat.div_eq_of_lt_le
    · rw [mul_comm]; omega
    · rw [Nat.succ_mul, mul_comm]; omega
  rw [hdiv, hq]

/-- Beyond the text the padding and the default are the same letter. -/
theorem padTo_getD (i : Nat) : (padTo s m c).getD i c = s.getD i c := by
  by_cases hi : i < s.length
  · rw [padTo, List.getD_append _ _ _ _ hi]
  · rw [padTo, List.getD_append_right _ _ _ _ (not_lt.1 hi), List.getD_eq_default s _ (not_lt.1 hi),
      List.getD_eq_getElem?_getD, List.getElem?_getD_replicate_default_eq]

/-- A run of `c` at the end makes no difference to what is left without it (R110). -/
theorem stripTrailing_append_replicate_eq [DecidableEq α] (n : Nat) :
    stripTrailing (s ++ List.replicate n c) c = stripTrailing s c := by
  induction n with
  | zero => rw [List.replicate_zero, List.append_nil]
  | succ n ih =>
    rw [List.replicate_succ', ← List.append_assoc, stripTrailing_eq_rdropWhile,
      List.rdropWhile_concat_pos (fun x => decide (x = c)) _ _ (decide_eq_true rfl), ← stripTrailing_eq_rdropWhile, ih]

end

/-- Lists of one length put together: element `j` of the one at `b`. -/
theorem getD_flatMap_of_length_eq {α β : Type} {f : α → List β} {n : Nat} (l : List α) (a : α) (d : β)
    (h : ∀ a ∈ l, (f a).length = n) {b j : Nat} (hb : b < l.length) (hj : j < n) :
    (l.flatMap f).getD (n * b + j) d = (f (l.getD b a)).getD j d := by
  induction l generalizing b with
  | nil => cases hb
  | cons x l ih =>
    have hx := h x List.mem_cons_self
    rw [List.flatMap_cons]
    cases b with
    | zero => rw [List.getD_append _ _ _ _ (by omega), Nat.mul_zero, Nat.zero_add, List.getD_cons_zero]
    | succ b =>
      rw [List.getD_append_right _ _ _ _ (by rw [hx, Nat.mul_succ]; omega), List.getD_cons_succ,
        ← ih (fun a ha => h a (.tail x ha)) (Nat.lt_of_succ_lt_succ hb), hx]
      congr 1
      rw [Nat.mul_succ]; omega

section
variable {n : Nat} (p : List Letter) (M : List (List Letter))

theorem hillApply_length (hn : 0 < n) : (hillApply p M n).length = n * ((p.length + n - 1) / n) := by
  rw [hillApply, length_flatMap_of_length_eq fun v _ => rowTimes_length n v M, blocks_length, padTo_length_eq p _ hn,
    Nat.mul_div_cancel_left _ hn, mul_comm]

/-- Block `b` of a text as a row vector mod 26, with `X` beyond the text (R141). -/
def blockRow (n : Nat) (p : List Letter) (b : Nat) : Fin n → ZMod 26 := fun i => residue (p.getD (n * b + i) padLetter)

theorem residue_rowTimes (v : List Letter) (j : Fin n) :
    residue ((rowTimes n v M).getD j padLetter) = ∑ i : Fin n, residue (v.getD i 0) * residue (letterEntry M i j) := by
  have hj : (rowTimes n v M).getD j padLetter =
      letterOfInt ((List.range n).map fun i => ((v.getD i 0).val : Int) * ((letterEntry M i j).val : Int)).sum := by
    simp [rowTimes, List.getD]
  rw [hj, residue_letterOfInt, list_sum_range, Int.cast_sum]
  refine Finset.sum_congr rfl fun i _ => ?_
  rw [Int.cast_mul, Int.cast_natCast, Int.cast_natCast, residue, residue]

/-- Each block of the result is that block of the text times the matrix (R141). -/
theorem blockRow_hillApply {b : Nat} (hb : b < (p.length + n - 1) / n) :
    blockRow n (hillApply p M n) b = Matrix.vecMul (blockRow n p b) (residues n M) := by
  ext j
  have hn : 0 < n := j.pos
  have hlen := padTo_length_eq p padLetter hn
  have hcount : (padTo p n padLetter).length / n = (p.length + n - 1) / n := by rw [hlen, Nat.mul_div_cancel_left _ hn]
  have hrow := getD_flatMap_of_length_eq (f := fun v => rowTimes n v M)
    (blocks n ((padTo p n padLetter).length / n) (padTo p n padLetter)) [] padLetter (fun v _ => rowTimes_length n v M)
    (by rwa [blocks_length, hcount]) j.isLt
  rw [blockRow, hillApply, hrow, residue_rowTimes, Matrix.vecMul, dotProduct]
  refine Finset.sum_congr rfl fun i _ => congrArg (· * residue (letterEntry M i j)) ?_
  have hi : n * b + i < (padTo p n padLetter).length := by
    rw [hlen]
    calc n * b + i < n * b + n := by omega
      _ = n * (b + 1) := rfl
      _ ≤ n * ((p.length + n - 1) / n) := Nat.mul_le_mul_left n hb
  rw [blocks_getD_getD _ _ (by rwa [hcount]) i.isLt, blockRow, ← padTo_getD p padLetter (m := n),
    List.getD_eq_getElem _ _ hi, List.getD_eq_getElem _ _ hi]

/-- Letter `j` of block `b`, where `w` has the entries of column `j` of the matrix mod 26 (R141). -/
theorem hillApply_getD_val {b j : Nat} (w : Nat → Nat) (hw : ∀ r, r < n → residue (letterEntry M r j) = w r) (hj : j < n)
    (hlt : n * b + j < (hillApply p M n).length) :
    ((hillApply p M n).getD (n * b + j) 0).val =
      ((List.range n).map fun r => (p.getD (n * b + r) padLetter).val * w r).sum % 26 := by
  have hn : 0 < n := Nat.zero_lt_of_lt hj
  have hb : b < (p.length + n - 1) / n := by
    rw [hillApply_length p M hn] at hlt
    exact Nat.lt_of_mul_lt_mul_left (Nat.lt_of_le_of_lt (Nat.le_add_right _ j) hlt)
  rw [← residue_eq_natCast_iff, cast_list_sum]
  calc residue ((hillApply p M n).getD (n * b + j) 0)
    _ = blockRow n (hillApply p M n) b ⟨j, hj⟩ := by
      rw [blockRow, List.getD_eq_getElem _ _ hlt, List.getD_eq_getElem _ _ hlt]
    _ = ∑ r : Fin n, residue (p.getD (n * b + r) padLetter) * residue (letterEntry M r j) := by
      rw [blockRow_hillApply p M hb]
      rfl
    _ = ∑ r : Fin n, (((p.getD (n * b + r) padLetter).val * w r : Nat) : ZMod 26) :=
      Finset.sum_congr rfl fun r _ => by rw [hw r r.isLt, Nat.cast_mul, residue]

/-- A matrix and then one that undoes it give the padded text back (R143). -/
theorem hillApply_hillApply {M' : List (List Letter)} (hn : 0 < n) (h : residues n M * residues n M' = 1) :
    hillApply (hillApply p M n) M' n = padTo p n padLetter := by
  have hlen := hillApply_length p M hn
  have hceil : (n * ((p.length + n - 1) / n) + n - 1) / n = (p.length + n - 1) / n := by
    rw [Nat.add_sub_assoc hn, Nat.mul_add_div hn, Nat.div_eq_of_lt (Nat.sub_lt hn Nat.one_pos), Nat.add_zero]
  have hlen' : (hillApply (hillApply p M n) M' n).length = n * ((p.length + n - 1) / n) := by
    rw [hillApply_length _ M' hn, hlen, hceil]
  refine List.ext_getElem (hlen'.trans (padTo_length_eq p _ hn).symm) fun x hx hx' => ?_
  have hb : x / n < (p.length + n - 1) / n := Nat.div_lt_of_lt_mul (by rwa [hlen'] at hx)
  have hrow : blockRow n (hillApply (hillApply p M n) M' n) (x / n) = blockRow n p (x / n) := by
    rw [blockRow_hillApply _ M' (by rwa [hlen, hceil]), blockRow_hillApply p M hb, Matrix.vecMul_vecMul, h,
      Matrix.vecMul_one]
  have hentry := residue_injective (congrFun hrow ⟨x % n, Nat.mod_lt x hn⟩)
  simp only [Nat.div_add_mod] at hentry
  rwa [← padTo_getD p padLetter (m := n), List.getD_eq_getElem _ _ hx, List.getD_eq_getElem _ _ hx'] at hentry

end

/-- What HILL_ENC and HILL_DEC answer to a key that HillInverse accepts (R142, R143). -/
theorem cmdHillEnc_of_key {K : List Byte} {k : HillMatrix} {inv : List (List Letter)} (hk : hillKey K = .ok k)
    (hinv : hillInverse k = .ok inv) (I : List Byte) :
    cmdHillEnc K I = .ok (letters (hillApply (normalize I) k.rows k.n)) :=
  result_bind_eq_ok.2 ⟨k, hk, result_bind_eq_ok.2 ⟨inv, hinv, rfl⟩⟩

theorem cmdHillDec_of_key {K : List Byte} {k : HillMatrix} {inv : List (List Letter)} (hk : hillKey K = .ok k)
    (hinv : hillInverse k = .ok inv) (I : List Byte) :
    cmdHillDec K I = .ok (letters (stripTrailing (hillApply (normalize I) inv k.n) padLetter)) :=
  result_bind_eq_ok.2 ⟨k, hk, result_bind_eq_ok.2 ⟨inv, hinv, rfl⟩⟩

/-- Settles O25: the entries of the key's matrix are its bytes mod 26. -/
theorem hillEncMultipliesRowVectors : Obligations.HillEncMultipliesRowVectors := by
  intro s hp hl hlayout hdet
  obtain ⟨k, hk, hkn⟩ := hillKey_of_layout hlayout
  obtain ⟨inv, hinv⟩ := hillInverse_of_coprime hk hdet
  have hn : 0 < k.n := by have := (hillKey_size hk).1; omega
  rw [← hkn]
  refine ⟨_, completesWith_of_rule_ok hp hl (cmdHillEnc_of_key hk hinv _), ?_, ?_⟩
  · rw [letters_length, hillApply_length _ _ hn]
  · rintro n b j rfl hj hlt
    rw [letters_length] at hlt
    rw [letters_getD _ 0 hlt, chr26_toNat, hillApply_getD_val _ _ _ (fun r hr => ?_) hj hlt]
    · rfl
    · rw [residue_letterEntry_hillKey hk hr hj, hillByte, Int.cast_natCast]

/-- Settles O26: the product is `hillApply` with the inverse, before the strip. -/
theorem hillDecMultipliesByTheInverse : Obligations.HillDecMultipliesByTheInverse := by
  intro s hp hl hlayout hdet
  obtain ⟨k, hk, hkn⟩ := hillKey_of_layout hlayout
  obtain ⟨inv, hinv⟩ := hillInverse_of_coprime hk hdet
  have hn : 0 < k.n := by have := (hillKey_size hk).1; omega
  exact ⟨k, inv, _, _, hk, hinv, completesWith_of_rule_ok hp hl (cmdHillDec_of_key hk hinv _), rfl, hkn,
    hillApply_length _ _ hn, fun b j hj hlt => hillApply_getD_val _ _ _ (fun r _ => rfl) hj hlt⟩

/-- Settles O27: the two products cancel to the padded text, and the padding is stripped. -/
theorem hillRoundTrip : Obligations.HillRoundTrip := by
  intro K I out h
  obtain ⟨k, hk, h⟩ := result_bind_eq_ok.1 h
  obtain ⟨inv, hinv, ⟨⟩⟩ := result_bind_eq_ok.1 h
  have hsize := (hillKey_size hk).1
  rw [cmdHillDec_of_key hk hinv, normalize_letters,
    hillApply_hillApply _ _ (by omega) (residues_mul_inverse hsize hinv), padTo, stripTrailing_append_replicate_eq]

end Sys2Proof.Machine
end

section
/-! PROOF. The exact lengths of the outputs, where they are not only bounds (R144, R178, R262): the rails and the grid take
every letter of the text, and the DES commands whole blocks. -/
namespace Sys2Proof.Machine

/-! ### Rail Fence -/

theorem rail_lt {r : Nat} (hr : 2 ≤ r) (i : Nat) : rail i r < r := by
  have hmod : i % (2 * (r - 1)) < 2 * (r - 1) := Nat.mod_lt i (by omega)
  simp only [rail]
  split <;> omega

theorem two_le_of_railKey {K : List Byte} {r : Nat} (h : railKey K = .ok r) : 2 ≤ r := by
  unfold railKey at h
  split at h
  · split at h
    · cases h
    · next hb => cases h; exact not_lt.1 hb
  · cases h

/-- Every letter lies on one of the rails (R172). -/
theorem railEncrypt_length (p : List Letter) {r : Nat} (hr : 2 ≤ r) : (railEncrypt p r).length = p.length := by
  have h := length_flatMap_filter_range p.zipIdx (fun xi => rail xi.2 r) r
  have hall : p.zipIdx.countP (fun xi => rail xi.2 r < r) = p.zipIdx.length :=
    List.countP_eq_length.2 fun xi _ => decide_eq_true (rail_lt hr xi.2)
  rw [hall, List.length_zipIdx] at h
  simpa only [railEncrypt, railLetters, List.length_flatMap, List.length_map] using h

/-- Slices that the list is long enough for have their lengths. -/
theorem slices_getD_length {α : Type} {ns : List Nat} {l : List α} (h : ns.sum ≤ l.length) (j : Nat) :
    ((slices ns l).getD j []).length = ns.getD j 0 := by
  induction ns generalizing l j with
  | nil => rfl
  | cons n ns ih =>
    rw [List.sum_cons] at h
    cases j with
    | zero => rw [slices, List.getD_cons_zero, List.getD_cons_zero, List.length_take]; omega
    | succ j => rw [slices, List.getD_cons_succ, List.getD_cons_succ, ih (by rw [List.length_drop]; omega)]

theorem railCount_eq_countP (len r row : Nat) : railCount len r row = (List.range len).countP fun i => rail i r == row :=
  List.countP_eq_length_filter.symm

theorem sum_railCount {r : Nat} (hr : 2 ≤ r) (len : Nat) :
    ((List.range r).map fun row => railCount len r row).sum = len := by
  have h := length_flatMap_filter_range (List.range len) (fun i => rail i r) r
  have hall : (List.range len).countP (fun i => rail i r < r) = (List.range len).length :=
    List.countP_eq_length.2 fun i _ => decide_eq_true (rail_lt hr i)
  rw [hall, List.length_range, List.length_flatMap] at h
  exact h

/-- Before the second walk each queue has as many letters as the walk will take from it (R173). -/
theorem railQueues_getD_length (c : List Letter) {r : Nat} (hr : 2 ≤ r) (row : Nat) :
    ((railQueues c r).getD row []).length = (List.range c.length).countP fun i => rail i r == row := by
  rw [railQueues, slices_getD_length (sum_railCount hr c.length).le]
  by_cases hrow : row < r
  · rw [← railCount_eq_countP]
    simp [List.getD, hrow]
  · have hnone : (List.range c.length).countP (fun i => rail i r == row) = 0 :=
      List.countP_eq_zero.2 fun i _ hi => hrow (by rw [← beq_iff_eq.1 hi]; exact rail_lt hr i)
    rw [hnone, List.getD_eq_default _ _ (by simpa using hrow)]

/-- While each queue has the letters the walk will take from it, no queue runs empty (R173). -/
theorem popRails_length {r : Nat} {is : List Nat} {queues : List (List Letter)}
    (h : ∀ row, (queues.getD row []).length = is.countP fun i => rail i r == row) :
    (popRails r is queues).length = is.length := by
  induction is generalizing queues with
  | nil => rfl
  | cons i is ih =>
    have hi := h (rail i r)
    rw [List.countP_cons_of_pos (by simp)] at hi
    rw [popRails]
    split
    · next hempty => rw [hempty] at hi; cases hi
    · next x q hq =>
      rw [hq, List.length_cons, Nat.add_right_cancel_iff] at hi
      rw [List.length_cons, List.length_cons, ih fun row => ?_]
      have hlt : rail i r < queues.length := by
        by_contra hge
        rw [List.getD_eq_default _ _ (not_lt.1 hge)] at hq
        cases hq
      rw [List.getD_eq_getElem?_getD, List.getElem?_set]
      by_cases hrow : rail i r = row
      · rw [if_pos hrow, if_pos hlt, Option.getD_some, hi, hrow]
      · rw [if_neg hrow, ← List.getD_eq_getElem?_getD, h row, List.countP_cons_of_neg (by simpa using hrow)]

theorem railDecrypt_length (c : List Letter) {r : Nat} (hr : 2 ≤ r) : (railDecrypt c r).length = c.length := by
  rw [railDecrypt, popRails_length (railQueues_getD_length c hr), List.length_range]

theorem railFence_output_length {K I out : List Byte} (h : cmdRfEnc K I = .ok out ∨ cmdRfDec K I = .ok out) :
    out.length = (normalize I).length := by
  rcases h with h | h
  all_goals
    obtain ⟨r, hr, ⟨⟩⟩ := result_bind_eq_ok.1 h
    rw [letters_length]
  · exact railEncrypt_length _ (two_le_of_railKey hr)
  · exact railDecrypt_length _ (two_le_of_railKey hr)

/-! ### Row Transposition -/

theorem gridRows_eq (len : Nat) {m : Nat} (hm : 0 < m) :
    gridRows len m = len / m + if len % m = 0 then 0 else 1 := by
  have hdiv := Nat.div_add_mod' len m
  have hlt := Nat.mod_lt len hm
  apply Nat.div_eq_of_lt_le
  · split <;> rw [Nat.add_mul] <;> omega
  · rw [Nat.succ_mul]
    split <;> simp only [Nat.add_mul, Nat.add_zero] <;> omega

theorem le_gridRows_mul (len : Nat) {m : Nat} (hm : 0 < m) : len ≤ gridRows len m * m := by
  have hdiv := Nat.div_add_mod' len m
  have hlt := Nat.mod_lt len hm
  rw [gridRows_eq len hm]
  split <;> rw [Nat.add_mul] <;> omega

/-- A column has a letter of each whole row, and one more where the short last row reaches it (R177). -/
theorem columnLength_eq {len m col : Nat} (hcol : col < m) :
    columnLength len m col = len / m + if col < len % m then 1 else 0 := by
  rw [columnLength, gridRows_eq len (Nat.zero_lt_of_lt hcol)]
  generalize len / m = q
  split_ifs <;> omega

/-- The grid has a cell in a row and column exactly when the text has a letter for it (R177). -/
theorem lt_columnLength_iff {len m row col : Nat} (hcol : col < m) :
    row < columnLength len m col ↔ row * m + col < len := by
  have hdiv := Nat.div_add_mod' len m
  rw [columnLength_eq hcol]
  obtain hlt | rfl | hgt := lt_trichotomy row (len / m)
  · have hle : row * m + m ≤ len / m * m := by rw [← Nat.succ_mul]; exact Nat.mul_le_mul_right m hlt
    constructor <;> intro <;> omega
  · split <;> omega
  · have hmod := Nat.mod_lt len (Nat.zero_lt_of_lt hcol)
    have hle : len / m * m + m ≤ row * m := by rw [← Nat.succ_mul]; exact Nat.mul_le_mul_right m hgt
    split <;> omega

theorem countP_lt_range (len n : Nat) : (List.range n).countP (fun i => i < len) = min n len := by
  induction n with
  | zero => simp
  | succ n ih =>
    simp only [List.range_succ, List.countP_append, ih, List.countP_singleton, decide_eq_true_eq]
    split <;> omega

/-- Row by row, the cells below `len` are as many as they are in the whole grid. -/
theorem sum_countP_rows (len m rows : Nat) :
    ((List.range rows).map fun row => (List.range m).countP fun col => row * m + col < len).sum = min (rows * m) len := by
  rw [← countP_lt_range]
  induction rows with
  | zero => simp
  | succ rows ih =>
    rw [List.range_succ, List.map_append, List.sum_append, ih, Nat.succ_mul, List.range_add, List.countP_append,
      List.countP_map, List.map_singleton, List.sum_singleton]
    rfl

/-- Reading the grid gives every letter of the text (R177). -/
theorem rowDecrypt_length (c : List Letter) {k : List Letter} (hk : 0 < k.length) :
    (rowDecrypt c k).length = c.length := by
  have hrow : ∀ row, ((List.range k.length).filterMap fun col =>
      if row < columnLength c.length k.length col then some ((columnAt (gridColumns c k) col).getD row 0)
      else none).length = (List.range k.length).countP fun col => row * k.length + col < c.length := fun row => by
    rw [List.length_filterMap_eq_countP]
    refine List.countP_congr fun col hcol => ?_
    rw [decide_eq_true_eq, ← lt_columnLength_iff (List.mem_range.1 hcol)]
    split <;> simp [*]
  rw [rowDecrypt, List.length_flatMap]
  simp only [hrow, sum_countP_rows]
  exact Nat.min_eq_right (le_gridRows_mul _ hk)

theorem rtDec_output_length {K I out : List Byte} (h : cmdRtDec K I = .ok out) : out.length ≤ (normalize I).length := by
  obtain ⟨k, hk, ⟨⟩⟩ := result_bind_eq_ok.1 h
  obtain ⟨hlen, hpos⟩ := keyword_length hk
  rw [letters_length]
  exact (stripTrailing_length_le _ _).trans (rowDecrypt_length _ (hlen ▸ hpos)).le

/-! ### DES -/

theorem of_check_eq_ok {p : Prop} [Decidable p] {v out : List Byte} {e : ErrorKind}
    (h : (if p then .ok v else .error e : Result) = .ok out) : p := by
  by_contra hp
  rw [if_neg hp] at h
  cases h

theorem desEnc_output_length {K I out : List Byte} (h : cmdDesEnc K I = .ok out) :
    out.length = 8 * ((I.length + 7) / 8) := by
  obtain ⟨k, -, h⟩ := result_bind_eq_ok.1 h
  rw [eq_of_check_eq_ok h, desBlocks_length, desPad, padTo_length_eq I _ (by decide)]
  omega

theorem desRaw_output_length {K I out : List Byte} (h : cmdDesEncRaw K I = .ok out ∨ cmdDesDecRaw K I = .ok out) :
    out.length = I.length := by
  rcases h with h | h
  all_goals
    obtain ⟨k, -, h⟩ := result_bind_eq_ok.1 h
    have hwhole := of_check_eq_ok h
    rw [eq_of_check_eq_ok h, desBlocks_length]
    omega

/-! ### Every command -/

/-- Settles O10: the length rule of each command, and the bound of R7 that all of them meet. -/
theorem outputLengthBounds : Obligations.OutputLengthBounds := by
  intro P K I out hp
  have hI := normalize_length_le I
  have hdoubled := hp.doubled
  have hjoined := hp.joined
  have hkeys := hp.roundKeys
  have hblocks := hp.blocks
  refine ⟨fun h => ?vig, fun h => ?pf, fun h => ?hill, fun h => ?rf, fun h => ?rtEnc, fun h => ?rtDec, fun h => ?rotor,
    desKs_output_length, fun h => ?desEnc, desDec_output_length_le, desRaw_output_length, fun hK hText h => ?all⟩
  case vig => have := vigenere_output_length h; omega
  case pf =>
    have : out.length ≤ 2 * (normalize I).length := h.elim playfair_output_length_le playfair_output_length_le
    omega
  case hill => obtain ⟨n, hn, -, hlen⟩ := hill_output_length_lt h; omega
  case rf => have := railFence_output_length h; omega
  case rtEnc => have := rowTransposition_output_length_le (.inl h); omega
  case rtDec => exact (rtDec_output_length h).trans hI
  case rotor => have := rotor_output_length h; omega
  case desEnc => have := desEnc_output_length h; omega
  case all =>
    obtain ⟨cmd, hcmd, hout⟩ := h
    obtain ⟨i, -, rfl⟩ := List.mem_map.1 (show cmd ∈ Instr.all.map (commandRule P.rotor) from hcmd)
    have := commandRule_output_length_le hout
    omega

end Sys2Proof.Machine
end

section
/-! PROOF. The Rail Fence commands (R170 to R173 of 42_transposition.md): the zig-zag walk, the key, and the place of
each letter in the rails, through which both commands and their round trip are read. -/
namespace Sys2Proof.Machine

/-! ### The walk -/

/-- The phase of the walk goes up by one and starts again after a whole period (R170). -/
theorem succ_mod_eq_ite {period : Nat} (h : 2 ≤ period) (i : Nat) :
    (i + 1) % period = if i % period + 1 = period then 0 else i % period + 1 := by
  have hlt : i % period < period := Nat.mod_lt i (by omega)
  rw [Nat.add_mod, Nat.mod_eq_of_lt h]
  split
  · next hend => rw [hend, Nat.mod_self]
  · exact Nat.mod_eq_of_lt (by omega)

/-- The walk as its phase sees it: down for `r - 1` steps, then up again (R170). -/
theorem rail_eq_ite (i r : Nat) :
    rail i r = if i % (2 * (r - 1)) < r then i % (2 * (r - 1)) else 2 * (r - 1) - i % (2 * (r - 1)) := rfl

/-- Settles O28, from the phases of three positions in a row. -/
theorem railWalkIsAZigZag : Obligations.RailWalkIsAZigZag := by
  intro r hr
  have hperiod : 2 ≤ 2 * (r - 1) := by omega
  have hstart : rail 0 r = 0 := by rw [rail_eq_ite, Nat.zero_mod, if_pos (by omega)]
  refine ⟨hstart, ?_, fun i => ⟨rail_lt hr i, ?_⟩⟩
  · rw [rail_eq_ite, Nat.mod_eq_of_lt hperiod, if_pos (by omega)]
  · have hphase : i % (2 * (r - 1)) < 2 * (r - 1) := Nat.mod_lt i (by omega)
    have hnext := succ_mod_eq_ite hperiod i
    have hnext' := succ_mod_eq_ite hperiod (i + 1)
    simp only [rail_eq_ite]
    generalize i % (2 * (r - 1)) = t at *
    generalize (i + 1) % (2 * (r - 1)) = t₁ at *
    generalize (i + 2) % (2 * (r - 1)) = t₂ at *
    refine ⟨?_, ?_, ?_⟩
    all_goals split_ifs at * <;> omega

/-! ### The key -/

/-- RailKey takes one byte of 2 or more, and nothing else (R171). -/
theorem railKey_eq_ite (K : List Byte) :
    railKey K = if K.length = 1 ∧ 2 ≤ (K.getD 0 0).toNat then .ok (K.getD 0 0).toNat else .error .invalidKey := by
  match K with
  | [] => rfl
  | [b] =>
    rw [railKey, List.getD_cons_zero]
    by_cases hb : b.toNat < 2
    · rw [if_pos hb, if_neg (by omega)]
    · rw [if_neg hb, if_pos ⟨rfl, not_lt.1 hb⟩]
  | b :: c :: K => rw [if_neg (by simp)]; rfl

/-- Settles O29: both rules ask for the key first. -/
theorem badRailKeyIsInvalidKey : Obligations.BadRailKeyIsInvalidKey := by
  intro i s hi hl hK
  have hkey : railKey (keyString s) = .error .invalidKey := by rw [railKey_eq_ite, if_neg (by omega)]
  refine failsWith_of_rule_error hl ?_
  obtain rfl | rfl := hi
  all_goals exact congrArg (· >>= _) hkey

/-! ### Slices -/

section
variable {α : Type}

theorem slices_length (ns : List Nat) (l : List α) : (slices ns l).length = ns.length := by
  induction ns generalizing l with
  | nil => rfl
  | cons n ns ih => rw [slices, List.length_cons, ih, List.length_cons]

/-- Element `j` of slice `b` stands that far behind the slices before it. -/
theorem slices_getD_getD (d : α) {ns : List Nat} (l : List α) {b j : Nat} (hj : j < ns.getD b 0) :
    ((slices ns l).getD b []).getD j d = l.getD ((ns.take b).sum + j) d := by
  induction ns generalizing l b with
  | nil => cases hj
  | cons n ns ih =>
    cases b with
    | zero =>
      rw [List.getD_cons_zero] at hj
      rw [slices, List.getD_cons_zero, List.take_zero, List.sum_nil, Nat.zero_add, List.getD_eq_getElem?_getD,
        List.getElem?_take_of_lt hj, ← List.getD_eq_getElem?_getD]
    | succ b =>
      rw [List.getD_cons_succ] at hj
      rw [slices, List.getD_cons_succ, ih _ hj, List.take_succ_cons, List.sum_cons, List.getD_eq_getElem?_getD,
        List.getElem?_drop, ← List.getD_eq_getElem?_getD, Nat.add_assoc]

/-- Lists put together and cut at their lengths are the lists again. -/
theorem slices_flatMap {β : Type} (f : β → List α) (l : List β) :
    slices (l.map fun a => (f a).length) (l.flatMap f) = l.map f := by
  induction l with
  | nil => rfl
  | cons a l ih => rw [List.map_cons, List.flatMap_cons, slices, List.take_left, List.drop_left, ih, List.map_cons]

/-- An element of a filtered list stands behind those before it that the filter keeps as well. -/
theorem getD_filter_countP_take (q : α → Bool) (d : α) {l : List α} {j : Nat} (hj : j < l.length)
    (hq : q (l.getD j d) = true) : (l.filter q).getD ((l.take j).countP q) d = l.getD j d := by
  induction l generalizing j with
  | nil => cases hj
  | cons a l ih =>
    cases j with
    | zero =>
      rw [List.getD_cons_zero] at hq
      rw [List.filter_cons_of_pos hq]
      rfl
    | succ j =>
      rw [List.getD_cons_succ] at hq ⊢
      rw [List.take_succ_cons, List.countP_cons, List.filter_cons, ← ih (Nat.lt_of_succ_lt_succ hj) hq]
      by_cases ha : q a = true
      · rw [if_pos ha, if_pos ha, List.getD_cons_succ]
      · rw [if_neg ha, if_neg ha, Nat.add_zero]

end

/-! ### The place of a letter in the rails -/

theorem getD_range_map {α : Type} {n j : Nat} (f : Nat → α) (d : α) (h : j < n) :
    ((List.range n).map f).getD j d = f j := by
  simp [List.getD, h]

theorem getD_range {n j : Nat} (d : Nat) (h : j < n) : (List.range n).getD j d = j := by
  simp [List.getD, h]

theorem railPosition_eq_countP (len r i : Nat) :
    railPosition len r i = ((List.range len).countP fun j => rail j r < rail i r) +
      (List.range i).countP fun j => rail j r == rail i r := by
  rw [railPosition, ← List.countP_eq_length_filter, ← List.countP_eq_length_filter]
  rfl

/-- A letter's place is behind the rails above its own, and behind the earlier letters of its own (R172). -/
theorem railPosition_eq_sum (len : Nat) {r : Nat} (hr : 2 ≤ r) (i : Nat) :
    railPosition len r i = (((List.range r).map fun row => railCount len r row).take (rail i r)).sum +
      (List.range i).countP fun j => rail j r == rail i r := by
  have habove := length_flatMap_filter_range (List.range len) (fun j => rail j r) (rail i r)
  rw [List.length_flatMap] at habove
  rw [railPosition_eq_countP, ← habove, ← List.map_take, List.take_range, Nat.min_eq_left (rail_lt hr i).le]
  rfl

/-- Before position `i` its rail has fewer letters than in the whole text. -/
theorem countP_rail_lt_railCount {len r i : Nat} (hi : i < len) :
    ((List.range i).countP fun j => rail j r == rail i r) < railCount len r (rail i r) := by
  obtain ⟨n, rfl⟩ := Nat.exists_eq_add_of_le (Nat.succ_le_of_lt hi)
  rw [railCount_eq_countP, List.range_add, List.countP_append, List.range_succ, List.countP_append,
    List.countP_singleton, if_pos (beq_self_eq_true _)]
  omega

theorem railPosition_lt {len r i : Nat} (hi : i < len) : railPosition len r i < len := by
  have hlt := countP_rail_lt_railCount (r := r) hi
  rw [railCount_eq_countP] at hlt
  calc railPosition len r i
    _ < (List.range len).countP fun j => rail j r < rail i r + 1 := by
      rw [railPosition_eq_countP, countP_lt_succ]
      exact Nat.add_lt_add_left hlt _
    _ ≤ (List.range len).length := List.countP_le_length
    _ = len := List.length_range

/-- The queue of a position's rail has at the turn of that position the letter at its place (R173). -/
theorem railQueues_getD_getD (c : List Letter) {r : Nat} (hr : 2 ≤ r) {i : Nat} (hi : i < c.length) :
    ((railQueues c r).getD (rail i r) []).getD ((List.range i).countP fun j => rail j r == rail i r) 0 =
      c.getD (railPosition c.length r i) 0 := by
  rw [railQueues, slices_getD_getD _ _ ?_, railPosition_eq_sum _ hr]
  rw [getD_range_map _ _ (rail_lt hr i)]
  exact countP_rail_lt_railCount hi

/-! ### Encryption -/

/-- A rail has the letters at the positions on it (R172). -/
theorem railLetters_eq_map (p : List Letter) (r row : Nat) :
    railLetters p r row = ((List.range p.length).filter fun i => rail i r == row).map fun i => p.getD i 0 := by
  have hzip : p.zipIdx = (List.range p.length).map fun i => (p.getD i 0, i) := by
    refine List.ext_getElem (by simp) fun i hi _ => ?_
    rw [List.length_zipIdx] at hi
    simp [List.getD, hi]
  rw [railLetters, hzip, List.filter_map, List.map_map]
  rfl

/-- The queues of a ciphertext are the rails of its text (R172, R173). -/
theorem railQueues_railEncrypt (p : List Letter) {r : Nat} (hr : 2 ≤ r) :
    railQueues (railEncrypt p r) r = (List.range r).map fun row => railLetters p r row := by
  have hcount : ∀ row, railCount p.length r row = (railLetters p r row).length := fun row => by
    rw [railLetters_eq_map, List.length_map, railCount]
  rw [railQueues, railEncrypt_length p hr]
  simp only [hcount]
  exact slices_flatMap _ _

/-- Letter `i` of the text stands on its rail behind the earlier letters of that rail (R172). -/
theorem railLetters_getD (p : List Letter) (r : Nat) {i : Nat} (hi : i < p.length) :
    (railLetters p r (rail i r)).getD ((List.range i).countP fun j => rail j r == rail i r) 0 = p.getD i 0 := by
  have hget := getD_range 0 hi
  have hrail := getD_filter_countP_take (fun j => rail j r == rail i r) 0 (l := List.range p.length)
    (by rwa [List.length_range]) (by rw [hget]; exact beq_self_eq_true _)
  have hlt := countP_rail_lt_railCount (r := r) hi
  rw [railCount] at hlt
  rw [hget, List.take_range, Nat.min_eq_left hi.le, List.getD_eq_getElem _ _ hlt] at hrail
  rw [railLetters_eq_map, List.getD_eq_getElem _ _ (by rwa [List.length_map]), List.getElem_map, hrail]

/-- RF_ENC moves the letter at position `i` to its place in the rails (R172). -/
theorem railEncrypt_getD (p : List Letter) {r : Nat} (hr : 2 ≤ r) {i : Nat} (hi : i < p.length) :
    (railEncrypt p r).getD (railPosition p.length r i) 0 = p.getD i 0 := by
  have hlen := railEncrypt_length p hr
  rw [← hlen, ← railQueues_getD_getD _ hr (by rwa [hlen]), railQueues_railEncrypt p hr,
    getD_range_map _ _ (rail_lt hr i), railLetters_getD p r hi]

/-! ### Decryption -/

section
variable {r i : Nat} {is : List Nat} {queues : List (List Letter)} {x : Letter} {q : List Letter}

/-- A pop changes the queue of its rail alone. -/
theorem getD_set_of_getD_eq_cons {row : Nat} (hq : queues.getD row [] = x :: q) (row' : Nat) :
    (queues.set row q).getD row' [] = if row = row' then q else queues.getD row' [] := by
  have hlt : row < queues.length := by
    by_contra hge
    rw [List.getD_eq_default _ _ (not_lt.1 hge)] at hq
    cases hq
  rw [List.getD_eq_getElem?_getD, List.getElem?_set, if_pos hlt, List.getD_eq_getElem?_getD]
  split <;> rfl

/-- Each queue has as many letters as the walk over `is` takes from it (R173: "No queue ever runs empty"). -/
def QueuesMatch (r : Nat) (is : List Nat) (queues : List (List Letter)) : Prop :=
  ∀ row, (queues.getD row []).length = is.countP fun i => rail i r == row

theorem QueuesMatch.queue_eq_cons (h : QueuesMatch r (i :: is) queues) :
    ∃ x q, queues.getD (rail i r) [] = x :: q := by
  have hi := h (rail i r)
  rw [List.countP_cons_of_pos (by simp)] at hi
  exact List.exists_cons_of_length_eq_add_one hi

theorem QueuesMatch.pop (h : QueuesMatch r (i :: is) queues) (hq : queues.getD (rail i r) [] = x :: q) :
    QueuesMatch r is (queues.set (rail i r) q) := by
  intro row
  have hrow := h row
  rw [List.countP_cons] at hrow
  rw [getD_set_of_getD_eq_cons hq]
  split
  · next heq =>
    rw [← heq, hq, List.length_cons, if_pos (beq_self_eq_true _)] at hrow
    rw [← heq]
    exact Nat.add_right_cancel hrow
  · next hne => rwa [if_neg (by simpa using hne), Nat.add_zero] at hrow

theorem popRails_cons_of_getD_eq_cons (hq : queues.getD (rail i r) [] = x :: q) :
    popRails r (i :: is) queues = x :: popRails r is (queues.set (rail i r) q) := by
  rw [popRails, hq]

/-- The walk takes at each position the letter that its rail's queue has behind those taken from it before (R173). -/
theorem popRails_getD (h : QueuesMatch r is queues) {j : Nat} (hj : j < is.length) :
    (popRails r is queues).getD j 0 =
      (queues.getD (rail (is.getD j 0) r) []).getD
        ((is.take j).countP fun i => rail i r == rail (is.getD j 0) r) 0 := by
  induction is generalizing queues j with
  | nil => cases hj
  | cons i is ih =>
    obtain ⟨x, q, hq⟩ := h.queue_eq_cons
    rw [popRails_cons_of_getD_eq_cons hq]
    cases j with
    | zero => rw [List.getD_cons_zero, List.getD_cons_zero, hq]; rfl
    | succ j =>
      rw [List.getD_cons_succ, List.getD_cons_succ, ih (h.pop hq) (Nat.lt_of_succ_lt_succ hj),
        getD_set_of_getD_eq_cons hq, List.take_succ_cons, List.countP_cons]
      split
      · next heq => rw [← heq, hq, if_pos (beq_self_eq_true _), List.getD_cons_succ]
      · next hne => rw [if_neg (by simpa using hne), Nat.add_zero]

end

/-- RF_DEC takes the letter at position `i` from its place in the rails (R173). -/
theorem railDecrypt_getD (c : List Letter) {r : Nat} (hr : 2 ≤ r) {i : Nat} (hi : i < c.length) :
    (railDecrypt c r).getD i 0 = c.getD (railPosition c.length r i) 0 := by
  have hpop := popRails_getD (railQueues_getD_length c hr) (j := i) (by rwa [List.length_range])
  rwa [getD_range 0 hi, List.take_range, Nat.min_eq_left hi.le, railQueues_getD_getD c hr hi] at hpop

/-- The letters go back to where they came from (R173). -/
theorem railDecrypt_railEncrypt (p : List Letter) {r : Nat} (hr : 2 ≤ r) : railDecrypt (railEncrypt p r) r = p := by
  have hlen := railEncrypt_length p hr
  refine List.ext_getElem ((railDecrypt_length _ hr).trans hlen) fun i hi hi' => ?_
  rw [← List.getD_eq_getElem _ 0, ← List.getD_eq_getElem _ 0, railDecrypt_getD _ hr (by rwa [hlen]), hlen,
    railEncrypt_getD p hr hi']

/-! ### The commands -/

/-- Settles O30: the letters of `railEncrypt` and of `railDecrypt`. -/
theorem railFenceMovesLetters : Obligations.RailFenceMovesLetters := by
  intro s r hp hl hlen hbyte hr
  have hkey : railKey (keyString s) = .ok r := by rw [railKey_eq_ite, hbyte, if_pos ⟨hlen, hr⟩]
  refine ⟨⟨_, completesWith_of_rule_ok hp hl (result_bind_eq_ok.2 ⟨r, hkey, rfl⟩), ?_, fun j hj => ?encLetter⟩,
    ⟨_, completesWith_of_rule_ok hp hl (result_bind_eq_ok.2 ⟨r, hkey, rfl⟩), ?_, fun j hj => ?decLetter⟩⟩
  case encLetter =>
    rw [letters_length, railEncrypt_length _ hr] at hj ⊢
    rw [letters_getD _ 0 (by rw [railEncrypt_length _ hr]; exact railPosition_lt hj), railEncrypt_getD _ hr hj]
  case decLetter =>
    rw [letters_length, railDecrypt_length _ hr] at hj ⊢
    rw [letters_getD _ 0 (by rwa [railDecrypt_length _ hr]), railDecrypt_getD _ hr hj]
  · rw [letters_length, railEncrypt_length _ hr]
  · rw [letters_length, railDecrypt_length _ hr]

/-- Settles O31: both commands read the same rail count. -/
theorem railFenceRoundTrip : Obligations.RailFenceRoundTrip := by
  intro K I out h
  obtain ⟨r, hr, ⟨⟩⟩ := result_bind_eq_ok.1 h
  refine result_bind_eq_ok.2 ⟨r, hr, ?_⟩
  rw [normalize_letters, railDecrypt_railEncrypt _ (two_le_of_railKey hr)]

end Sys2Proof.Machine
end

section
/-! PROOF. The Row Transposition commands (R174 to R177 of 42_transposition.md): the order of the columns, the cells of
the grid and their places in the ciphertext, through which both commands and their round trip are read. -/
namespace Sys2Proof.Machine

/-! ### The order of the columns -/

/-- The relation ColOrder sorts by is the lexicographic order of the pairs (R174). -/
theorem columnLe_iff (k : List Letter) (a b : Nat) :
    columnLe k a b = true ↔ toLex (k.getD a 0, a) ≤ toLex (k.getD b 0, b) := by
  rw [columnLe, Bool.or_eq_true, Bool.and_eq_true, decide_eq_true_iff, decide_eq_true_iff, decide_eq_true_iff,
    Prod.Lex.toLex_le_toLex]
  rfl

theorem colOrder_perm (k : List Letter) : (colOrder k).Perm (List.range k.length) := List.perm_insertionSort _ _

theorem colOrder_nodup (k : List Letter) : (colOrder k).Nodup := (colOrder_perm k).nodup_iff.2 List.nodup_range

theorem colOrder_pairwise_le (k : List Letter) : (colOrder k).Pairwise fun a b => columnLe k a b = true := by
  have : Std.Total fun a b => columnLe k a b = true :=
    ⟨fun a b => by rw [columnLe_iff, columnLe_iff]; exact le_total _ _⟩
  have : IsTrans Nat fun a b => columnLe k a b = true :=
    ⟨fun a b c => by rw [columnLe_iff, columnLe_iff, columnLe_iff]; exact le_trans⟩
  exact List.pairwise_insertionSort _ _

/-- Settles O32: no index stands twice in the order, so the pairs rise strictly. -/
theorem colOrderSortsByLetterThenIndex : Obligations.ColOrderSortsByLetterThenIndex := by
  refine ⟨fun k => ⟨colOrder_perm k, ?_⟩, by decide, by decide⟩
  refine (colOrder_pairwise_le k).imp₂ (fun a b hle hne => ?_) (colOrder_nodup k)
  obtain hlt | ⟨heq, hle⟩ := Prod.Lex.toLex_le_toLex.1 ((columnLe_iff k a b).1 hle)
  · exact .inl hlt
  · exact .inr ⟨heq, lt_of_le_of_ne hle hne⟩

theorem mem_colOrder {k : List Letter} {c : Nat} : c ∈ colOrder k ↔ c < k.length := by
  rw [(colOrder_perm k).mem_iff, List.mem_range]

theorem colOrder_getD_lt {k : List Letter} {j : Nat} (hj : j < k.length) : (colOrder k).getD j 0 < k.length := by
  rw [← colOrder_length k] at hj
  rw [List.getD_eq_getElem _ _ hj]
  exact mem_colOrder.1 (List.getElem_mem hj)

/-- Every column has its turn (R174). -/
theorem exists_colOrder_getD_eq {k : List Letter} {c : Nat} (hc : c < k.length) :
    ∃ j < k.length, (colOrder k).getD j 0 = c := by
  obtain ⟨j, hj, hget⟩ := List.getElem_of_mem (mem_colOrder.2 hc)
  exact ⟨j, by rwa [← colOrder_length k], by rw [List.getD_eq_getElem _ _ hj, hget]⟩

/-! ### Encryption -/

/-- A row and a column of a grid of `n` rows and `m` columns name one of its cells (R175). -/
theorem mul_add_lt_mul {a b n m : Nat} (ha : a < n) (hb : b < m) : a * m + b < n * m :=
  calc a * m + b
    _ < a * m + m := Nat.add_lt_add_left hb _
    _ = (a + 1) * m := (Nat.succ_mul a m).symm
    _ ≤ n * m := Nat.mul_le_mul_right m ha

/-- Letter `row` of the column read as number `j` (R176). -/
theorem rowEncrypt_getD (p : List Letter) {k : List Letter} {j row : Nat} (hj : j < k.length)
    (hrow : row < gridRows p.length k.length) :
    (rowEncrypt p k).getD (j * gridRows p.length k.length + row) 0 =
      p.getD (row * k.length + (colOrder k).getD j 0) padLetter := by
  have hcell : row * k.length + (colOrder k).getD j 0 < (padTo p k.length padLetter).length := by
    rw [padTo_length_eq p _ (Nat.zero_lt_of_lt hj), mul_comm k.length]
    exact mul_add_lt_mul hrow (colOrder_getD_lt hj)
  rw [rowEncrypt, mul_comm j, getD_flatMap_of_length_eq (n := gridRows p.length k.length) _ 0 0 (fun _ _ => by simp)
    (by rwa [colOrder_length]) hrow, getD_range_map _ _ hrow, List.getD_eq_getElem _ _ hcell,
    ← padTo_getD p padLetter (m := k.length), List.getD_eq_getElem _ _ hcell]

/-- Settles O33: the letters of `rowEncrypt`. -/
theorem rowTranspositionReadsColumns : Obligations.RowTranspositionReadsColumns := by
  rintro s m rows hp hl hK rfl hrows
  have hkey := keyword_of_isKeyword hK
  rw [← normalize_length_of_isKeyword hK] at hrows ⊢
  rw [show rows = gridRows _ _ from hrows]
  refine ⟨_, completesWith_of_rule_ok hp hl (result_bind_eq_ok.2 ⟨_, hkey, rfl⟩), ?_, fun j row hj hrow => ?_⟩
  · rw [letters_length, rowEncrypt_length]
  · rw [letters_getD _ 0 (by rw [rowEncrypt_length]; exact mul_add_lt_mul hj hrow), rowEncrypt_getD _ hj hrow]
    rfl

/-! ### Decryption -/

/-- The row of a cell is the quotient of its position by the number of columns (R175). -/
theorem mul_add_div_of_lt {b m : Nat} (a : Nat) (hb : b < m) : (a * m + b) / m = a := by
  rw [mul_comm, Nat.mul_add_div (Nat.zero_lt_of_lt hb), Nat.div_eq_of_lt hb, Nat.add_zero]

/-- The cells of a grid, row by row, are those positions in order (R175). -/
theorem flatMap_range_mul_add (rows m : Nat) :
    ((List.range rows).flatMap fun row => (List.range m).map fun col => row * m + col) = List.range (rows * m) := by
  induction rows with
  | zero => simp
  | succ rows ih => rw [List.range_succ, List.flatMap_append, ih, Nat.succ_mul, List.range_add, List.flatMap_singleton]

theorem filter_lt_range {len n : Nat} (h : len ≤ n) : ((List.range n).filter fun x => x < len) = List.range len := by
  obtain ⟨d, rfl⟩ := Nat.exists_eq_add_of_le h
  rw [List.range_add, List.filter_append, List.filter_eq_self.2 (by simp), List.filter_eq_nil_iff.2 (by simp),
    List.append_nil]

/-- A column's letters are the slice that its turn in the order gives it (R177). -/
theorem columnAt_zip {order : List Nat} {columns : List (List Letter)} (hnodup : order.Nodup)
    (hlen : columns.length = order.length) {j : Nat} (hj : j < order.length) :
    columnAt (order.zip columns) (order.getD j 0) = columns.getD j [] := by
  induction order generalizing columns j with
  | nil => cases hj
  | cons x order ih =>
    obtain ⟨col, columns, rfl⟩ := List.exists_cons_of_length_eq_add_one hlen
    obtain ⟨hx, hnodup⟩ := List.nodup_cons.1 hnodup
    rw [List.zip_cons_cons, columnAt]
    cases j with
    | zero => rw [List.getD_cons_zero, if_pos rfl, List.getD_cons_zero]
    | succ j =>
      have hj := Nat.lt_of_succ_lt_succ hj
      have hne : x ≠ order.getD j 0 := by
        rw [List.getD_eq_getElem _ _ hj]
        exact fun heq => hx (heq ▸ List.getElem_mem hj)
      rw [List.getD_cons_succ, if_neg hne, List.getD_cons_succ]
      exact ih hnodup (Nat.succ.inj hlen) hj

/-- Read row by row, the grid has at each position the cell of that row and column (R177). -/
theorem rowDecrypt_eq_map (c : List Letter) {k : List Letter} (hk : 0 < k.length) :
    rowDecrypt c k = (List.range c.length).map fun x =>
      (columnAt (gridColumns c k) (x % k.length)).getD (x / k.length) 0 := by
  rw [← filter_lt_range (le_gridRows_mul c.length hk), ← flatMap_range_mul_add, ← List.filterMap_eq_map,
    List.filterMap_filter, List.filterMap_flatMap]
  refine List.flatMap_congr fun row _ => ?_
  rw [List.filterMap_map]
  refine List.filterMap_congr fun col hcol => ?_
  have hcol := List.mem_range.1 hcol
  simp only [lt_columnLength_iff hcol, Function.comp_apply, decide_eq_true_eq, mul_add_div_of_lt row hcol,
    Nat.mul_add_mod_of_lt hcol]

/-- Letter `row` of the column whose turn is number `j` (R177). -/
theorem rowDecrypt_getD (c : List Letter) {k : List Letter} {j row : Nat} (hj : j < k.length)
    (hrow : row < columnLength c.length k.length ((colOrder k).getD j 0)) :
    (rowDecrypt c k).getD (row * k.length + (colOrder k).getD j 0) 0 =
      c.getD ((((colOrder k).map (columnLength c.length k.length)).take j).sum + row) 0 := by
  have hcol := colOrder_getD_lt hj
  have hj' : j < (colOrder k).length := by rwa [colOrder_length]
  rw [rowDecrypt_eq_map c (Nat.zero_lt_of_lt hj), getD_range_map _ _ ((lt_columnLength_iff hcol).1 hrow),
    mul_add_div_of_lt row hcol, Nat.mul_add_mod_of_lt hcol, gridColumns,
    columnAt_zip (colOrder_nodup k) (by rw [slices_length, List.length_map]) hj', slices_getD_getD]
  rwa [List.getD_eq_getElem _ _ (by rwa [List.length_map]), List.getElem_map, ← List.getD_eq_getElem _ 0]

theorem take_eq_map_range {α : Type} (l : List α) (d : α) {j : Nat} (hj : j ≤ l.length) :
    l.take j = (List.range j).map fun i => l.getD i d := by
  refine List.ext_getElem (by simpa using hj) fun i hi _ => ?_
  rw [List.length_take] at hi
  rw [List.getElem_take, List.getElem_map, List.getElem_range, List.getD_eq_getElem]

/-- Settles O34: `rowDecrypt` before the strip. -/
theorem rowTranspositionRefillsTheGrid : Obligations.RowTranspositionRefillsTheGrid := by
  rintro s len m rows order height hp hl hK rfl rfl hrows rfl hheight
  have hkey := keyword_of_isKeyword hK
  have hpos := (keyword_length hkey).2
  rw [← normalize_length_of_isKeyword hK] at hrows hheight hpos ⊢
  obtain rfl : height = columnLength _ _ := funext fun c => by
    rw [hheight, hrows]
    rfl
  refine ⟨_, _, completesWith_of_rule_ok hp hl (result_bind_eq_ok.2 ⟨_, hkey, rfl⟩), rfl, rowDecrypt_length _ hpos,
    fun j row hj hrow => ?_⟩
  rw [rowDecrypt_getD _ hj hrow, ← List.map_take, take_eq_map_range _ 0 (by rw [colOrder_length]; exact hj.le),
    List.map_map]
  rfl

/-! ### The round trip -/

/-- The columns of a full grid are all of the same length (R177). -/
theorem columnLength_mul {m : Nat} (hm : 0 < m) (rows col : Nat) : columnLength (m * rows) m col = rows := by
  rw [columnLength, if_pos (.inl (Nat.mul_mod_right m rows)), gridRows_eq _ hm, if_pos (Nat.mul_mod_right m rows),
    Nat.mul_div_cancel_left _ hm, Nat.add_zero]

/-- Decryption gives the padded text back (R177). -/
theorem rowDecrypt_rowEncrypt (p : List Letter) {k : List Letter} (hk : 0 < k.length) :
    rowDecrypt (rowEncrypt p k) k = padTo p k.length padLetter := by
  have hlen := rowEncrypt_length p k
  have hpad := padTo_length_eq p padLetter hk
  have hheight : columnLength (rowEncrypt p k).length k.length = fun _ => gridRows p.length k.length :=
    funext fun col => by rw [hlen, columnLength_mul hk]
  refine List.ext_getElem ((rowDecrypt_length _ hk).trans (hlen.trans hpad.symm)) fun x hx hx' => ?_
  obtain ⟨j, hj, hcol⟩ := exists_colOrder_getD_eq (Nat.mod_lt x hk)
  have hrow : x / k.length < gridRows p.length k.length := Nat.div_lt_of_lt_mul (by rwa [hpad] at hx')
  have hdec := rowDecrypt_getD (rowEncrypt p k) hj (row := x / k.length) (by rwa [hheight])
  rw [hheight, List.map_const', List.take_replicate, List.sum_replicate, colOrder_length, Nat.min_eq_left hj.le,
    smul_eq_mul, rowEncrypt_getD p hj hrow, hcol, Nat.div_add_mod', ← padTo_getD p padLetter (m := k.length)] at hdec
  rwa [List.getD_eq_getElem _ _ hx, List.getD_eq_getElem _ _ hx'] at hdec

theorem chr26_eq_X_iff : ∀ x : Letter, chr26 x = 0x58#8 ↔ x = padLetter := by decide

/-- Stripping the letter `X` and stripping its byte are the same (R112). -/
theorem letters_stripTrailing (p : List Letter) :
    letters (stripTrailing p padLetter) = stripTrailing (letters p) 0x58#8 := by
  rw [letters, letters, stripTrailing, stripTrailing, List.map_reverse, ← List.map_reverse (l := p), List.dropWhile_map]
  simp only [Function.comp_def, chr26_eq_X_iff]

/-- Settles O35: the padding is stripped with the text's own trailing `X`. -/
theorem rowTranspositionRoundTrip : Obligations.RowTranspositionRoundTrip := by
  intro K I out h
  obtain ⟨k, hk, ⟨⟩⟩ := result_bind_eq_ok.1 h
  obtain ⟨hlen, hpos⟩ := keyword_length hk
  refine result_bind_eq_ok.2 ⟨k, hk, ?_⟩
  rw [normalize_letters, rowDecrypt_rowEncrypt _ (hlen ▸ hpos), padTo, stripTrailing_append_replicate_eq,
    letters_stripTrailing]

end Sys2Proof.Machine
end

section
/-! PROOF. The settings of the rotor machine (R202 to R205 of 43_rotor.md): which plugboard texts are accepted, what the
map made from one does, and which keys hold settings. -/
namespace Sys2Proof.Machine

/-! ### Plugboard tokens -/

/-- A token the plugboard accepts: two bytes, both letter bytes (R204). -/
def IsPair (t : List Byte) : Prop := t.length = 2 ∧ ∀ b ∈ t, letterIndex b ≠ none

theorem lettersOf_eq_some_iff {K : List Byte} {k : List Letter} :
    lettersOf K = some k ↔ (∀ b ∈ K, letterIndex b ≠ none) ∧ normalize K = k := by
  by_cases h : ∀ b ∈ K, letterIndex b ≠ none
  · rw [lettersOf_eq_normalize h, Option.some_inj, and_iff_right h]
  · push Not at h
    obtain ⟨b, hb, hnone⟩ := h
    rw [lettersOf_eq_none ⟨b, hb, hnone⟩]
    exact ⟨fun h => (nomatch h), fun h => absurd hnone (h.1 b hb)⟩

/-- The pairs are the tokens that have two letters (R204). -/
theorem isPair_iff {t : List Byte} : IsPair t ↔ ∃ a b, lettersOf t = some [a, b] := by
  constructor
  · rintro ⟨hlen, hletters⟩
    have hnorm := lettersOf_eq_normalize hletters
    obtain ⟨a, b, hab⟩ := List.length_eq_two.1 ((lettersOf_length hnorm).trans hlen)
    exact ⟨a, b, hnorm.trans (congrArg some hab)⟩
  · rintro ⟨a, b, hab⟩
    exact ⟨(lettersOf_length hab).symm, (lettersOf_eq_some_iff.1 hab).1⟩

theorem normalize_cons (b : Byte) (bs : List Byte) : normalize (b :: bs) = normalize [b] ++ normalize bs :=
  normalize_append [b] bs

/-- No letter is lost by cutting a text at its spaces (R103, R204). -/
theorem flatMap_normalize_splitAtSpaces (T : List Byte) : (splitAtSpaces T).flatMap normalize = normalize T := by
  fun_induction splitAtSpaces T with
  | case1 => rfl
  | case2 bs ih =>
    have hspace : normalize [0x20#8] = [] := rfl
    rw [normalize_cons, hspace, List.flatMap_cons, ih, normalize_nil]
  | case3 b bs _ hnil ih => rw [normalize_cons, ← ih, hnil, List.flatMap_singleton, List.flatMap_nil, List.append_nil]
  | case4 b bs _ t ts hcons ih =>
    rw [normalize_cons, ← ih, hcons, List.flatMap_cons, List.flatMap_cons, normalize_cons b t, List.append_assoc]

/-- The nonempty tokens of a plugboard text (R204). -/
def tokens (T : List Byte) : List (List Byte) := (splitAtSpaces T).filter fun t => !t.isEmpty

theorem plugboard_eq_plugPairs (T : List Byte) : plugboard T = plugPairs (tokens T) plugIdentity [] := rfl

theorem mem_tokens {T t : List Byte} : t ∈ tokens T ↔ t ∈ splitAtSpaces T ∧ t ≠ [] := by
  simp [tokens, List.mem_filter]

theorem flatMap_normalize_tokens (T : List Byte) : (tokens T).flatMap normalize = normalize T := by
  rw [← flatMap_normalize_splitAtSpaces, tokens]
  induction splitAtSpaces T with
  | nil => rfl
  | cons t ts ih =>
    cases t with
    | nil => exact ih
    | cons b bs => exact congrArg (normalize (b :: bs) ++ ·) ih

/-! ### The plugboard map -/

/-- One round of Plugboard: a new pair of unused letters, swapped in the map (R204). -/
theorem plugPairs_cons_eq_ok {t : List Byte} {ts : List (List Byte)} {plug plug' used : List Letter} :
    plugPairs (t :: ts) plug used = .ok plug' ↔ ∃ a b, lettersOf t = some [a, b] ∧
      (a ≠ b ∧ a ∉ used ∧ b ∉ used) ∧ plugPairs ts ((plug.set a.val b).set b.val a) (a :: b :: used) = .ok plug' := by
  rw [plugPairs]
  split
  · next a b hab =>
    rw [hab]
    by_cases hbad : a = b ∨ a ∈ used ∨ b ∈ used
    · rw [if_pos hbad]
      simp only [Option.some.injEq, List.cons.injEq, and_true, reduceCtorEq, false_iff]
      rintro ⟨_, _, ⟨rfl, rfl⟩, hok, -⟩
      tauto
    · rw [if_neg hbad]
      push Not at hbad
      exact ⟨fun h => ⟨a, b, rfl, hbad, h⟩, by rintro ⟨_, _, ⟨⟩, -, h⟩; exact h⟩
  · next hno =>
    exact ⟨fun h => (nomatch h), fun ⟨a, b, hab, _⟩ => absurd hab (hno a b)⟩

/-- The check of one round: two letters, then the others, are all different and unused exactly when the two are and the
others are so once the two count as used (R204). -/
theorem nodup_cons_cons_and_unused_iff {a b : Letter} {l used : List Letter} :
    ((a :: b :: l).Nodup ∧ ∀ x ∈ a :: b :: l, x ∉ used) ↔
      (a ≠ b ∧ a ∉ used ∧ b ∉ used) ∧ l.Nodup ∧ ∀ x ∈ l, x ∉ a :: b :: used := by
  simp only [List.nodup_cons, List.mem_cons, not_or]
  grind

theorem plugPairs_accepts_iff {ts : List (List Byte)} {plug used : List Letter} :
    (∃ plug', plugPairs ts plug used = .ok plug') ↔
      (∀ t ∈ ts, IsPair t) ∧ (ts.flatMap normalize).Nodup ∧ ∀ x ∈ ts.flatMap normalize, x ∉ used := by
  induction ts generalizing plug used with
  | nil => simp [plugPairs]
  | cons t ts ih =>
    simp only [plugPairs_cons_eq_ok, List.forall_mem_cons, List.flatMap_cons]
    constructor
    · rintro ⟨plug', a, b, hab, hfresh, hrest⟩
      obtain ⟨hpairs, hunused⟩ := ih.1 ⟨_, hrest⟩
      rw [(lettersOf_eq_some_iff.1 hab).2]
      exact ⟨⟨isPair_iff.2 ⟨a, b, hab⟩, hpairs⟩, nodup_cons_cons_and_unused_iff.2 ⟨hfresh, hunused⟩⟩
    · rintro ⟨⟨hpair, hpairs⟩, hunused⟩
      obtain ⟨a, b, hab⟩ := isPair_iff.1 hpair
      rw [(lettersOf_eq_some_iff.1 hab).2] at hunused
      obtain ⟨hfresh, hunused⟩ := nodup_cons_cons_and_unused_iff.1 hunused
      obtain ⟨plug', hrest⟩ := ih.2 ⟨hpairs, hunused⟩
      exact ⟨plug', a, b, hab, hfresh, hrest⟩

theorem plugboard_accepts_iff {T : List Byte} :
    (∃ plug, plugboard T = .ok plug) ↔ (∀ t ∈ tokens T, IsPair t) ∧ (normalize T).Nodup := by
  rw [plugboard_eq_plugPairs, plugPairs_accepts_iff, flatMap_normalize_tokens]
  simp only [List.not_mem_nil, not_false_eq_true, implies_true, and_true]

theorem plugSwap_plugIdentity : ∀ x : Letter, plugSwap plugIdentity x = x := by decide

theorem plugSwap_set {plug : List Letter} (hlen : plug.length = 26) (a b x : Letter) :
    plugSwap (plug.set a.val b) x = if x = a then b else plugSwap plug x := by
  unfold plugSwap
  split
  · next hx => rw [hx, List.getD_eq_getElem _ _ (by rw [List.length_set, hlen]; exact a.isLt), List.getElem_set_self]
  · next hx =>
    rw [List.getD_eq_getElem?_getD, List.getElem?_set_ne (Fin.val_ne_of_ne (Ne.symm hx)), List.getD_eq_getElem?_getD]

/-- What Plugboard adds to the map: the letters of each token swapped, and nothing else (R204). -/
theorem plugPairs_swaps {ts : List (List Byte)} {plug plug' used : List Letter} (hlen : plug.length = 26)
    (h : plugPairs ts plug used = .ok plug') :
    plug'.length = 26 ∧ (∀ x ∉ ts.flatMap normalize, plugSwap plug' x = plugSwap plug x) ∧
      ∀ t ∈ ts, ∀ a b, lettersOf t = some [a, b] → plugSwap plug' a = b ∧ plugSwap plug' b = a := by
  induction ts generalizing plug used with
  | nil =>
    cases h
    exact ⟨hlen, fun _ _ => rfl, fun _ ht => nomatch ht⟩
  | cons t ts ih =>
    obtain ⟨a, b, hab, ⟨hne, -, -⟩, hrest⟩ := plugPairs_cons_eq_ok.1 h
    obtain ⟨hlen', hothers, hpairs⟩ := ih (by rw [List.length_set, List.length_set, hlen]) hrest
    have hswap (x : Letter) (hx : x ∉ ts.flatMap normalize) :
        plugSwap plug' x = if x = b then a else if x = a then b else plugSwap plug x := by
      rw [hothers x hx, plugSwap_set (by rw [List.length_set, hlen]), plugSwap_set hlen]
    obtain ⟨-, -, hunused⟩ := plugPairs_accepts_iff.1 ⟨_, hrest⟩
    have hlater (x : Letter) (hx : x ∈ [a, b]) : x ∉ ts.flatMap normalize := fun hmem =>
      hunused x hmem (List.mem_append_left used hx)
    refine ⟨hlen', fun x hx => ?others, List.forall_mem_cons.2 ⟨fun a' b' hab' => ?pair, hpairs⟩⟩
    case others =>
      rw [List.flatMap_cons, (lettersOf_eq_some_iff.1 hab).2, List.mem_append, List.mem_pair] at hx
      push Not at hx
      rw [hswap x hx.2, if_neg hx.1.2, if_neg hx.1.1]
    case pair =>
      obtain ⟨rfl, rfl⟩ : a = a' ∧ b = b' := by simpa [hab] using hab'
      exact ⟨by rw [hswap a (hlater a (by simp)), if_neg hne, if_pos rfl],
        by rw [hswap b (hlater b (by simp)), if_pos rfl]⟩

section
variable {T : List Byte} {plug : List Letter} (h : plugboard T = .ok plug)
include h

theorem plugboard_length : plug.length = 26 := (plugPairs_swaps (by decide) h).1

theorem plugSwap_of_notMem {x : Letter} (hx : x ∉ normalize T) : plugSwap plug x = x := by
  rw [← flatMap_normalize_tokens] at hx
  obtain ⟨-, hothers, -⟩ := plugPairs_swaps (by decide) h
  rw [hothers x hx, plugSwap_plugIdentity]

theorem plugSwap_of_token {t : List Byte} {a b : Letter} (ht : t ∈ tokens T) (hab : lettersOf t = some [a, b]) :
    plugSwap plug a = b ∧ plugSwap plug b = a := by
  obtain ⟨-, -, hpairs⟩ := plugPairs_swaps (by decide) h
  exact hpairs t ht a b hab

/-- A letter stands in one of the pairs, or the map leaves it (R204). -/
theorem plugSwap_plugSwap (x : Letter) : plugSwap plug (plugSwap plug x) = x := by
  by_cases hx : x ∈ normalize T
  · rw [← flatMap_normalize_tokens, List.mem_flatMap] at hx
    obtain ⟨t, ht, hxt⟩ := hx
    obtain ⟨a, b, hab⟩ := isPair_iff.1 ((plugboard_accepts_iff.1 ⟨plug, h⟩).1 t ht)
    obtain ⟨ha, hb⟩ := plugSwap_of_token h ht hab
    rw [(lettersOf_eq_some_iff.1 hab).2, List.mem_pair] at hxt
    obtain rfl | rfl := hxt
    · rw [ha, hb]
    · rw [hb, ha]
  · rw [plugSwap_of_notMem h hx, plugSwap_of_notMem h hx]

end

/-- Settles O37: acceptance and the swaps, each by induction over the tokens. -/
theorem plugboardSwapsItsPairs : Obligations.PlugboardSwapsItsPairs := by
  refine fun T => ⟨plugboard_accepts_iff, fun plug h =>
    ⟨plugboard_length h, plugSwap_plugSwap h, fun x => plugSwap_of_notMem h, fun a b x y hmem ha hb => ?_⟩⟩
  have hxy : lettersOf [a, b] = some [x, y] := by simp only [lettersOf, ha, hb]
  exact (plugSwap_of_token h (mem_tokens.2 ⟨hmem, by simp⟩) hxy).1

/-! ### The key -/

theorem rotorIdOf_isSome_iff (b : Byte) : (∃ id, rotorIdOf b = some id) ↔ 1 ≤ b.toNat ∧ b.toNat ≤ 5 := by
  unfold rotorIdOf
  split
  case h_6 h1 h2 h3 h4 h5 => exact ⟨fun ⟨_, h⟩ => (nomatch h), by grind⟩
  all_goals next h => simp [h]

/-- RotorConfig takes its settings from their places in the key, and raises an error where one is missing (R202 to R205). -/
theorem rotorConfig_eq_ok_iff {K : List Byte} {c : RotorSettings} : rotorConfig K = .ok c ↔ 6 ≤ K.length ∧
    (rotorIdOf (K.getD 0 0) = some c.sel.left ∧ rotorIdOf (K.getD 1 0) = some c.sel.middle ∧
      rotorIdOf (K.getD 2 0) = some c.sel.right) ∧
    (letterIndex (K.getD 3 0) = some c.pos.left ∧ letterIndex (K.getD 4 0) = some c.pos.middle ∧
      letterIndex (K.getD 5 0) = some c.pos.right) ∧
    plugboard (K.drop 6) = .ok c.plug := by
  unfold rotorConfig
  split
  · next k0 k1 k2 k3 k4 k5 text =>
    simp only [result_bind_eq_ok, orRaise_eq_ok]
    constructor
    · rintro ⟨l, hl, m, hm, r, hr, pl, hpl, pm, hpm, pr, hpr, plug, hplug, ⟨⟩⟩
      exact ⟨by simp, ⟨hl, hm, hr⟩, ⟨hpl, hpm, hpr⟩, hplug⟩
    · rintro ⟨-, ⟨hl, hm, hr⟩, ⟨hpl, hpm, hpr⟩, hplug⟩
      exact ⟨_, hl, _, hm, _, hr, _, hpl, _, hpm, _, hpr, _, hplug, rfl⟩
  · next hshort =>
    refine ⟨fun h => (nomatch h), fun ⟨hlen, _⟩ => ?_⟩
    match K, hlen with
    | k0 :: k1 :: k2 :: k3 :: k4 :: k5 :: text, _ => exact (hshort _ _ _ _ _ _ _ rfl).elim

/-- The keys that RotorConfig accepts are those whose settings are all in order (R202 to R205). -/
theorem rotorSettingsOk_iff {K : List Byte} : RotorSettingsOk K ↔ ∃ c, rotorConfig K = .ok c := by
  constructor
  · rintro ⟨hlong, hsel, hpos, htokens, hdistinct⟩
    obtain ⟨l, hl⟩ := (rotorIdOf_isSome_iff _).2 (hsel 0 (by decide))
    obtain ⟨m, hm⟩ := (rotorIdOf_isSome_iff _).2 (hsel 1 (by decide))
    obtain ⟨r, hr⟩ := (rotorIdOf_isSome_iff _).2 (hsel 2 (by decide))
    obtain ⟨pl, hpl⟩ := Option.ne_none_iff_exists'.1 (hpos 0 (by decide))
    obtain ⟨pm, hpm⟩ := Option.ne_none_iff_exists'.1 (hpos 1 (by decide))
    obtain ⟨pr, hpr⟩ := Option.ne_none_iff_exists'.1 (hpos 2 (by decide))
    obtain ⟨plug, hplug⟩ := plugboard_accepts_iff.2 ⟨htokens, hdistinct⟩
    exact ⟨⟨⟨l, m, r⟩, ⟨pl, pm, pr⟩, plug⟩, rotorConfig_eq_ok_iff.2 ⟨hlong, ⟨hl, hm, hr⟩, ⟨hpl, hpm, hpr⟩, hplug⟩⟩
  · rintro ⟨c, hc⟩
    obtain ⟨hlong, ⟨hl, hm, hr⟩, ⟨hpl, hpm, hpr⟩, hplug⟩ := rotorConfig_eq_ok_iff.1 hc
    obtain ⟨htokens, hdistinct⟩ := plugboard_accepts_iff.1 ⟨_, hplug⟩
    refine ⟨hlong, fun j hj => (rotorIdOf_isSome_iff _).1 ?_, fun j hj => Option.ne_none_iff_exists'.2 ?_, htokens,
      hdistinct⟩
    · match j, hj with
      | 0, _ => exact ⟨_, hl⟩
      | 1, _ => exact ⟨_, hm⟩
      | 2, _ => exact ⟨_, hr⟩
    · match j, hj with
      | 0, _ => exact ⟨_, hpl⟩
      | 1, _ => exact ⟨_, hpm⟩
      | 2, _ => exact ⟨_, hpr⟩

/-- RotorConfig raises one error alone (R205). -/
theorem rotorConfig_of_not_ok {K : List Byte} (h : ¬RotorSettingsOk K) : rotorConfig K = .error .invalidConfiguration := by
  have hraises := rotorConfig_raisesOnly (es := [.invalidConfiguration]) K (List.mem_singleton_self _)
  cases hc : rotorConfig K with
  | ok c => exact absurd (rotorSettingsOk_iff.2 ⟨c, hc⟩) h
  | error e => rw [List.mem_singleton.1 (hraises e hc)]

end Sys2Proof.Machine
end

section
/-! PROOF. The rotor machine (R206 to R211 of 43_rotor.md): Step, the passes through the rotors as arithmetic mod 26, the
letter path as an involution, and the command. -/
namespace Sys2Proof.Machine

/-! ### Step -/

theorem letterOfInt_natCast_val (n : Nat) : (letterOfInt n).val = n % 26 := by
  have hval := letterOfInt_val n
  omega

/-- Step with the two turnover conditions as numbers (R206). -/
theorem rotorStep_eq {P : Config.RotorParams} {sel : Slots Config.RotorId} {pos : Slots Letter} {mN rN : Nat}
    (hm : mN = if pos.middle = (P.table sel.middle).turnover then 1 else 0)
    (hr : rN = if pos.right = (P.table sel.right).turnover then 1 else 0) :
    rotorStep P sel pos = ⟨letterOfInt (pos.left.val + mN : Nat),
      letterOfInt (pos.middle.val + (if P.mode = .sum then mN + rN else max mN rN) : Nat),
      letterOfInt (pos.right.val + 1 : Nat)⟩ := by
  subst hm hr
  unfold rotorStep
  cases P.mode
  case sum =>
    by_cases hm : pos.middle = (P.table sel.middle).turnover
    all_goals by_cases hr : pos.right = (P.table sel.right).turnover
    all_goals simp [hm, hr, add_assoc]
  case once =>
    by_cases hm : pos.middle = (P.table sel.middle).turnover
    all_goals by_cases hr : pos.right = (P.table sel.right).turnover
    all_goals simp [hm, hr]

/-- The turnover letters of R200 as numbers. -/
theorem turnover_val (id : Config.RotorId) : (specParams.rotor.table id).turnover.val = turnoverNumber id := by
  cases id <;> rfl

/-- Settles O36: the numbers of the letters in `rotorStep_eq`. -/
theorem rotorStepRule : Obligations.RotorStepRule := by
  refine ⟨fun P sel pos mN rN hm hr => ?_, rfl, turnover_val⟩
  rw [rotorStep_eq hm hr]
  refine ⟨letterOfInt_natCast_val _, fun hmode => ?_, fun hmode => ?_, letterOfInt_natCast_val _⟩
  · rw [letterOfInt_natCast_val, hmode, if_pos rfl, add_assoc]
  · rw [letterOfInt_natCast_val, hmode, if_neg (by decide)]

/-! ### The passes -/

theorem letterOfInt_add (x y : Letter) : letterOfInt ((x.val : Int) + y.val) = x + y := by
  apply letterOfInt_eq_of_modEq
  rw [Fin.val_add, Int.natCast_mod, Nat.cast_add]
  exact (Int.mod_modEq _ _).symm

theorem letterOfInt_sub (x y : Letter) : letterOfInt ((x.val : Int) - y.val + 26) = x - y := by
  have hval := letterOfInt_val ((x.val : Int) - y.val + 26)
  apply Fin.ext
  rw [Fin.val_sub]
  omega

section
variable {w : List Letter} (hw : IsWiring w)
include hw

/-- A wiring has each letter once, and there are 26 of them (R200). -/
theorem IsWiring.mem (x : Letter) : x ∈ w := by
  have hall : w.toFinset = Finset.univ :=
    Finset.eq_univ_of_card _ ((List.toFinset_card_of_nodup hw.2).trans hw.1)
  exact List.mem_toFinset.1 (hall ▸ Finset.mem_univ x)

theorem IsWiring.idxOf_lt (x : Letter) : w.idxOf x < 26 :=
  (List.idxOf_lt_length_iff.2 (hw.mem x)).trans_eq hw.1

theorem IsWiring.idxOf_getD (x : Letter) : w.idxOf (w.getD x.val 0) = x.val := by
  have hx : x.val < w.length := x.isLt.trans_eq hw.1.symm
  rw [List.getD_eq_getElem _ _ hx, hw.2.idxOf_getElem]

theorem IsWiring.getD_idxOf (x : Letter) : w.getD (w.idxOf x) 0 = x := by
  rw [List.getD_eq_getElem _ _ (List.idxOf_lt_length_iff.2 (hw.mem x)), List.getElem_idxOf]

end

/-- A rotor takes the entry at its offset letter, and takes the offset off again (R207). -/
theorem rotorForward_eq (w : List Letter) (pos i : Letter) : rotorForward w pos i = w.getD (i + pos).val 0 - pos := by
  have hentry : (((i.val : Int) + pos.val) % 26).toNat = (i + pos).val := by
    rw [Fin.val_add]
    omega
  rw [rotorForward, hentry, letterOfInt_sub]

/-- Backward, a rotor takes the place of the offset letter in its wiring (R209). -/
theorem rotorBackward_eq {w : List Letter} (pos i : Letter) {e : Letter} (he : w.idxOf (i + pos) = e.val) :
    rotorBackward w pos i = e - pos := by
  rw [rotorBackward, letterOfInt_add, he, letterOfInt_sub]

theorem throughRotor_rotorForward (w : List Letter) (pos x : Letter) : ThroughRotor w pos x (rotorForward w pos x) := by
  rw [ThroughRotor, rotorForward_eq, Fin.val_sub, Fin.val_add]
  omega

section
variable {w : List Letter} (hw : IsWiring w) (pos x : Letter)
include hw

theorem rotorBackward_rotorForward : rotorBackward w pos (rotorForward w pos x) = x := by
  have he : w.idxOf (rotorForward w pos x + pos) = (x + pos).val := by
    rw [rotorForward_eq, sub_add_cancel, hw.idxOf_getD]
  rw [rotorBackward_eq pos _ he, add_sub_cancel_right]

theorem rotorForward_rotorBackward : rotorForward w pos (rotorBackward w pos x) = x := by
  rw [rotorBackward_eq pos x (e := ⟨_, hw.idxOf_lt (x + pos)⟩) rfl, rotorForward_eq, sub_add_cancel, hw.getD_idxOf,
    add_sub_cancel_right]

end

section
variable {P : Config.RotorParams} (hP : RotorParamsOk P)
include hP

/-- Rotor by rotor, Backward takes back what Forward did last (R209). -/
theorem backwardPass_forwardPass (sel : Slots Config.RotorId) (pos : Slots Letter) (x : Letter) :
    backwardPass P sel pos (forwardPass P sel pos x) = x := by
  simp only [backwardPass, forwardPass, rotorBackward_rotorForward (hP.wiring _)]

theorem forwardPass_backwardPass (sel : Slots Config.RotorId) (pos : Slots Letter) (x : Letter) :
    forwardPass P sel pos (backwardPass P sel pos x) = x := by
  simp only [backwardPass, forwardPass, rotorForward_rotorBackward (hP.wiring _)]

theorem reflect_reflect (x : Letter) : reflect P (reflect P x) = x := hP.reflector.2 x

end

/-! ### The letter path and the run -/

theorem plugSwap_plugSwap_of_rotorConfig {K : List Byte} {c : RotorSettings} (hc : rotorConfig K = .ok c) (x : Letter) :
    plugSwap c.plug (plugSwap c.plug x) = x := by
  obtain ⟨-, -, -, hplug⟩ := rotorConfig_eq_ok_iff.1 hc
  exact plugSwap_plugSwap hplug x

theorem rotorRun_getD (P : Config.RotorParams) (c : RotorSettings) (pos : Slots Letter) {p : List Letter} {j : Nat}
    (hj : j < p.length) : (rotorRun P c pos p).getD j 0 =
      rotorPath P c ((fun q => rotorStep P c.sel q)^[j + 1] pos) (p.getD j 0) := by
  induction p generalizing pos j with
  | nil => cases hj
  | cons x xs ih =>
    rw [rotorRun]
    cases j with
    | zero => rfl
    | succ j => exact ih _ (Nat.lt_of_succ_lt_succ hj)

section
variable {P : Config.RotorParams} (hP : RotorParamsOk P) {c : RotorSettings}
  (hplug : ∀ x, plugSwap c.plug (plugSwap c.plug x) = x)
include hP hplug

/-- The reflector's involution between a map and its inverse, twice: the rotors and the plugboard (R211). -/
theorem rotorPath_rotorPath (pos : Slots Letter) (x : Letter) : rotorPath P c pos (rotorPath P c pos x) = x := by
  simp only [rotorPath, hplug, forwardPass_backwardPass hP, reflect_reflect hP, backwardPass_forwardPass hP]

/-- The positions do not depend on the text, so the second run meets each letter with the rotors where the first one had
them (R211). -/
theorem rotorRun_rotorRun (pos : Slots Letter) (p : List Letter) : rotorRun P c pos (rotorRun P c pos p) = p := by
  induction p generalizing pos with
  | nil => rfl
  | cons x xs ih => rw [rotorRun, rotorRun, rotorPath_rotorPath hP hplug, ih]

/-- A letter that enciphers to itself would reach a fixed point of the reflector (R211). -/
theorem rotorPath_ne (href : ∀ x : Letter, P.reflector.getD x.val 0 ≠ x) (pos : Slots Letter) (x : Letter) :
    rotorPath P c pos x ≠ x := by
  intro hfix
  have hback : backwardPass P c.sel pos (reflect P (forwardPass P c.sel pos (plugSwap c.plug x))) = plugSwap c.plug x := by
    rw [← hplug (backwardPass P c.sel pos _)]
    exact congrArg (plugSwap c.plug) hfix
  refine href (forwardPass P c.sel pos (plugSwap c.plug x)) ?_
  calc reflect P (forwardPass P c.sel pos (plugSwap c.plug x))
    _ = forwardPass P c.sel pos (backwardPass P c.sel pos (reflect P _)) := (forwardPass_backwardPass hP _ _ _).symm
    _ = forwardPass P c.sel pos (plugSwap c.plug x) := congrArg _ hback

end

/-! ### The command -/

theorem chr26_injective : Function.Injective chr26 := fun x y h =>
  Option.some_injective _ (by rw [← letterIndex_chr26 x, h, letterIndex_chr26])

/-- The letters of the output, through the path of each (R210). -/
theorem letters_rotorRun_getD (P : Config.RotorParams) (c : RotorSettings) (pos : Slots Letter) {p : List Letter} {j : Nat}
    (hj : j < (letters (rotorRun P c pos p)).length) : (letters (rotorRun P c pos p)).getD j 0 =
      chr26 (rotorPath P c ((fun q => rotorStep P c.sel q)^[j + 1] pos) (p.getD j 0)) := by
  rw [letters_length] at hj
  rw [letters_getD _ 0 hj, rotorRun_getD P c pos (by rwa [rotorRun_length] at hj)]

/-- Settles O38: RotorConfig decides which of the two ends the command has. -/
theorem rotorRunsFromItsSettings : Obligations.RotorRunsFromItsSettings := by
  intro s hp hl
  refine ⟨fun hok => ?accepted, fun hbad => failsWith_of_rule_error hl (congrArg (· >>= _) (rotorConfig_of_not_ok hbad))⟩
  obtain ⟨c, hc⟩ := rotorSettingsOk_iff.1 hok
  obtain ⟨-, ⟨hl', hm, hr⟩, ⟨hpl, hpm, hpr⟩, hplug⟩ := rotorConfig_eq_ok_iff.1 hc
  refine ⟨c, _, hc, hl', hm, hr, hpl, hpm, hpr, hplug,
    completesWith_of_rule_ok hp hl (result_bind_eq_ok.2 ⟨c, hc, rfl⟩), ?_, fun j hj => letters_rotorRun_getD _ c c.pos hj⟩
  rw [letters_length, rotorRun_length]

/-- Settles O39: each pass is undone by its inverse, the path is an involution, and so is the run. -/
theorem rotorMachineIsAnInvolution : Obligations.RotorMachineIsAnInvolution := by
  refine ⟨fun P sel pos x hP => ⟨⟨_, _, throughRotor_rotorForward _ _ _, throughRotor_rotorForward _ _ _,
      throughRotor_rotorForward _ _ _⟩, rfl, reflect_reflect hP x, backwardPass_forwardPass hP sel pos x,
      forwardPass_backwardPass hP sel pos x⟩,
    fun P K I out hP h => ?command, rotorParams_ok, by decide⟩
  obtain ⟨c, hc, ⟨⟩⟩ := result_bind_eq_ok.1 h
  have hplug := plugSwap_plugSwap_of_rotorConfig hc
  refine ⟨result_bind_eq_ok.2 ⟨c, hc, ?_⟩, fun c' pos x hc' => ?_, fun href j hj => ?_⟩
  · rw [normalize_letters, rotorRun_rotorRun hP hplug]
  · have hplug' := plugSwap_plugSwap_of_rotorConfig hc'
    exact ⟨rfl, hplug' x, rotorPath_rotorPath hP hplug' pos x⟩
  · rw [letters_rotorRun_getD P c c.pos hj]
    exact chr26_injective.ne (rotorPath_ne hP hplug href _ _)

end Sys2Proof.Machine
end

section
/-! PROOF. The bit tables of DES (R240, R241, R244 of 44_des.md): a table after its inverse gives the value back, and a
value is read only at the bits that the table names. -/
namespace Sys2Proof.Machine

/-- Bit `k` of the value that a table builds, from the most significant (R10). -/
theorem permute_getMsbD {n m : Nat} {T : List Nat} (v : BitVec n) (hT : T.length = m) {k : Nat} (hk : k < m) :
    (permute m T v).getMsbD k = v.getMsbD (T.getD k 0 - 1) :=
  (permuteTakesTheNamedBits n m T v).1 k hT hk

/-- A table undoes another where entry by entry it leads back to the bit that the other one moved (R241). -/
theorem permute_permute_of_inverse {n : Nat} {T T' : List Nat} (hT : T.length = n) (hT' : T'.length = n)
    (hinv : ∀ k, k < n → T'.getD k 0 - 1 < n ∧ T.getD (T'.getD k 0 - 1) 0 - 1 = k) (v : BitVec n) :
    permute n T' (permute n T v) = v := by
  refine BitVec.eq_of_getMsbD_eq fun k hk => ?_
  obtain ⟨hlt, hback⟩ := hinv k hk
  rw [permute_getMsbD _ hT' hk, permute_getMsbD v hT hlt, hback]

theorem permute_FP_IP (v : BitVec 64) : permute 64 tableFP (permute 64 tableIP v) = v :=
  permute_permute_of_inverse (by decide) (by decide) (by decide) v

theorem permute_IP_FP (v : BitVec 64) : permute 64 tableIP (permute 64 tableFP v) = v :=
  permute_permute_of_inverse (by decide) (by decide) (by decide) v

/-- Settles O41: each of the two tables leads back through the other one. -/
theorem finalPermutationInvertsTheInitial : Obligations.FinalPermutationInvertsTheInitial := fun v =>
  ⟨permute_FP_IP v, permute_IP_FP v⟩

/-- Values that agree in the bits a table names are the same through the table. -/
theorem permute_congr {n : Nat} (m : Nat) {T : List Nat} {v w : BitVec n}
    (h : ∀ i ∈ T, v.getMsbD (i - 1) = w.getMsbD (i - 1)) : permute m T v = permute m T w := by
  have hfold : T.foldl (fun acc i => acc * 2 + desBit v i) 0 = T.foldl (fun acc i => acc * 2 + desBit w i) 0 :=
    List.foldl_ext _ _ _ fun acc i hi => by rw [desBit_eq_toNat, desBit_eq_toNat, h i hi]
  rw [permute, permute, hfold]

/-- PC-1 names no last bit of a byte (R244). -/
theorem tablePC1_skips_parity : ∀ i ∈ tablePC1, i - 1 < 64 ∧ (i - 1) % 8 ≠ 7 := by decide

/-- Settles O43: the key enters its schedule through PC-1 alone. -/
theorem keyParityBitsAreIgnored : Obligations.KeyParityBitsAreIgnored := by
  intro k1 k2 h
  have hpc1 : (permute 56 tablePC1 k1 : BitVec 56) = permute 56 tablePC1 k2 := permute_congr 56 fun i hi => by
    obtain ⟨hlt, hparity⟩ := tablePC1_skips_parity i hi
    exact h (i - 1) hlt hparity
  rw [keySchedule, keySchedule, hpc1]

end Sys2Proof.Machine
end

section
/-! PROOF. The key schedule (R247, R248 of 44_des.md): rotations one after the other are one rotation by their sum. -/
namespace Sys2Proof.Machine

theorem rotateLeft_rotateLeft {w : Nat} (x : BitVec w) (a b : Nat) :
    (x.rotateLeft a).rotateLeft b = x.rotateLeft (a + b) := by
  refine BitVec.eq_of_getMsbD_eq fun i hi => ?_
  have hmod : (b + i) % w < w := Nat.mod_lt _ (Nat.zero_lt_of_lt hi)
  simp only [BitVec.getMsbD_rotateLeft, hi, hmod, decide_true, Bool.true_and, Nat.add_mod_mod, Nat.add_assoc]

/-- Round key `j` comes from the halves rotated by the amounts of the rounds up to its own (R248). -/
theorem keyRounds_getD {shifts : List Nat} (C D : BitVec 28) {j : Nat} (hj : j < shifts.length) :
    (keyRounds shifts C D).getD j 0 =
      permute 48 tablePC2 (C.rotateLeft (shifts.take (j + 1)).sum ++ D.rotateLeft (shifts.take (j + 1)).sum) := by
  induction shifts generalizing C D j with
  | nil => cases hj
  | cons sh rest ih =>
    rw [keyRounds]
    cases j with
    | zero => simp
    | succ j =>
      rw [List.getD_cons_succ, ih _ _ (Nat.lt_of_succ_lt_succ hj), rotateLeft_rotateLeft, rotateLeft_rotateLeft,
        List.take_succ_cons, List.sum_cons]

/-- Settles O42: the rounds of the schedule, and their number. -/
theorem keyScheduleRotatesBothHalves : Obligations.KeyScheduleRotatesBothHalves :=
  ⟨rfl, fun k => ⟨keySchedule_length k, fun _ hj => keyRounds_getD _ _ hj⟩⟩

end Sys2Proof.Machine
end

section
/-! PROOF. The round function (R249 of 44_des.md): a number is put together digit by digit, and each digit of the S-box
output is the entry that one group of six bits selects. -/
namespace Sys2Proof.Machine

/-- The number with the digits `d 0`, `d 1`, …, `d (n - 1)` in base `b`, the first the most significant. -/
def digitsValue (b n : Nat) (d : Nat → Nat) : Nat := (List.range n).foldl (fun acc g => acc * b + d g) 0

theorem digitsValue_succ (b n : Nat) (d : Nat → Nat) : digitsValue b (n + 1) d = digitsValue b n d * b + d n := by
  rw [digitsValue, List.range_succ, List.foldl_append]
  rfl

section
variable {b n : Nat} {d : Nat → Nat}

theorem digitsValue_lt (hd : ∀ g, g < n → d g < b) : digitsValue b n d < b ^ n := by
  induction n with
  | zero => exact Nat.one_pos
  | succ n ih =>
    have hrest := ih fun g hg => hd g (Nat.lt_succ_of_lt hg)
    rw [digitsValue_succ, Nat.pow_succ]
    exact mul_add_lt_mul hrest (hd n (Nat.lt_succ_self n))

theorem digitsValue_digit (hd : ∀ g, g < n → d g < b) {g : Nat} (hg : g < n) :
    digitsValue b n d / b ^ (n - 1 - g) % b = d g := by
  induction n with
  | zero => cases hg
  | succ n ih =>
    have hlast := hd n (Nat.lt_succ_self n)
    rw [digitsValue_succ, Nat.add_sub_cancel]
    obtain hlt | rfl := Nat.lt_succ_iff_lt_or_eq.1 hg
    · have hexp : n - g = (n - 1 - g) + 1 := by omega
      rw [hexp, Nat.pow_succ', ← Nat.div_div_eq_div_mul, mul_add_div_of_lt _ hlast]
      exact ih (fun g hg => hd g (Nat.lt_succ_of_lt hg)) hlt
    · rw [Nat.sub_self, Nat.pow_zero, Nat.div_one, Nat.mul_add_mod_self_right, Nat.mod_eq_of_lt hlast]

end

/-- Bit `⟨i⟩` as a digit of the value (R10). -/
theorem desBit_eq_div {w : Nat} (v : BitVec w) {i : Nat} (hi : 1 ≤ i) (hiw : i ≤ w) :
    desBit v i = v.toNat / 2 ^ (w - i) % 2 := by
  rw [desBit_eq_toNat, (permuteTakesTheNamedBits w w [] v).2 i hi hiw]
  exact Nat.toNat_testBit v.toNat (w - i)

/-- A group of six bits selects by its outer two bits and its inner four (R249). -/
theorem sBoxGroup_eq (g : Nat) (b : BitVec 6) :
    sBoxGroup g b = sBox g (2 * (b.toNat / 32) + b.toNat % 2) (b.toNat / 2 % 16) := by
  have hb := b.isLt
  rw [sBoxGroup, desBit_eq_div b (i := 1), desBit_eq_div b (i := 2), desBit_eq_div b (i := 3), desBit_eq_div b (i := 4),
    desBit_eq_div b (i := 5), desBit_eq_div b (i := 6)]
  congr 1 <;> omega
  all_goals decide

/-- The entries of the S-boxes are values of four bits (R246). -/
theorem sBox_lt : ∀ g, g < 8 → ∀ row, row < 4 → ∀ col, col < 16 → sBox g row col < 16 := by decide

theorem sBoxGroup_lt {g : Nat} (hg : g < 8) (b : BitVec 6) : sBoxGroup g b < 16 := by
  have hb := b.isLt
  rw [sBoxGroup_eq]
  exact sBox_lt g hg _ (by omega) _ (by omega)

/-- The bits that select in S-box `g`, counted from 0 at the most significant group (R249). -/
def selectorBits (R : BitVec 32) (k : BitVec 48) (g : Nat) : BitVec 6 :=
  (permute 48 tableE R ^^^ k : BitVec 48).extractLsb' (42 - 6 * g) 6

/-- The output of the eight S-boxes together, before P (R249). -/
def sBoxOutput (R : BitVec 32) (k : BitVec 48) : BitVec 32 :=
  BitVec.ofNat 32 (digitsValue 16 8 fun g => sBoxGroup g (selectorBits R k g))

theorem feistel_eq (R : BitVec 32) (k : BitVec 48) : feistel R k = permute 32 tableP (sBoxOutput R k) := rfl

theorem selectorBits_toNat (R : BitVec 32) (k : BitVec 48) {g : Nat} (hg : g < 8) :
    (selectorBits R k g).toNat = (permute 48 tableE R ^^^ k : BitVec 48).toNat / 64 ^ (7 - g) % 64 := by
  have hexp : 42 - 6 * g = 6 * (7 - g) := by omega
  rw [selectorBits, BitVec.extractLsb'_toNat, Nat.shiftRight_eq_div_pow, hexp, Nat.pow_mul]

/-- The S-box output has one digit in base 16 for each S-box. -/
theorem sBoxOutput_digit (R : BitVec 32) (k : BitVec 48) {g : Nat} (hg : g < 8) :
    (sBoxOutput R k).toNat / 16 ^ (7 - g) % 16 = sBoxGroup g (selectorBits R k g) := by
  have hdigits : ∀ g, g < 8 → sBoxGroup g (selectorBits R k g) < 16 := fun g hg => sBoxGroup_lt hg _
  have hlt : digitsValue 16 8 (fun g => sBoxGroup g (selectorBits R k g)) < 2 ^ 32 := digitsValue_lt hdigits
  rw [sBoxOutput, BitVec.toNat_ofNat, Nat.mod_eq_of_lt hlt]
  exact digitsValue_digit hdigits hg

/-- Settles O44: the digits of the S-box output, with each group of six bits as a number. -/
theorem roundFunctionLooksUpTheSBoxes : Obligations.RoundFunctionLooksUpTheSBoxes := by
  refine fun R k => ⟨sBoxOutput R k, feistel_eq R k, fun g v hg hv => ?_⟩
  rw [sBoxOutput_digit R k hg, sBoxGroup_eq, selectorBits_toNat R k hg, hv]

end Sys2Proof.Machine
end

section
/-! PROOF. One block (R251, R252 of 44_des.md): the halves after each round, and the rounds run backward. -/
namespace Sys2Proof.Machine

/-- The halves that the rounds start from (R251). -/
def initialHalves (b : BitVec 64) : BitVec 32 × BitVec 32 :=
  ((permute 64 tableIP b : BitVec 64).extractLsb' 32 32, (permute 64 tableIP b : BitVec 64).extractLsb' 0 32)

/-- The halves after the first `j` rounds, one round for each key (R251). -/
def halvesAfter (keys : List (BitVec 48)) (b : BitVec 64) (j : Nat) : BitVec 32 × BitVec 32 :=
  (keys.take j).foldl desRound (initialHalves b)

theorem initialHalves_append (b : BitVec 64) :
    ((initialHalves b).1 ++ (initialHalves b).2 : BitVec 64) = permute 64 tableIP b :=
  BitVec.extractLsb'_append_extractLsb' (w := 32) (len := 32)

theorem halvesAfter_succ {keys : List (BitVec 48)} (b : BitVec 64) {j : Nat} (hj : j < keys.length) :
    halvesAfter keys b (j + 1) = desRound (halvesAfter keys b j) (keys.getD j 0) := by
  rw [halvesAfter, List.take_succ_eq_append_getElem hj, List.foldl_append, ← List.getD_eq_getElem _ 0]
  rfl

theorem halvesAfter_length (keys : List (BitVec 48)) (b : BitVec 64) :
    halvesAfter keys b keys.length = keys.foldl desRound (initialHalves b) := by
  rw [halvesAfter, List.take_length]

/-- DESBlock is FP of the last halves, the right one first (R251). -/
theorem desBlock_of_halves {b : BitVec 64} {RK : List (BitVec 48)} {dir : DesDir} {LR : BitVec 32 × BitVec 32}
    (h : (keysInOrder dir RK).foldl desRound (initialHalves b) = LR) :
    desBlock b RK dir = permute 64 tableFP (LR.2 ++ LR.1 : BitVec 64) := by
  rw [← h]
  rfl

theorem keysInOrder_length (dir : DesDir) (RK : List (BitVec 48)) : (keysInOrder dir RK).length = RK.length := by
  cases dir with
  | enc => rfl
  | dec => exact List.length_reverse

theorem keysInOrder_getD (dir : DesDir) {RK : List (BitVec 48)} {j : Nat} (hj : j < RK.length) :
    (keysInOrder dir RK).getD j 0 = if dir = .enc then RK.getD j 0 else RK.getD (RK.length - 1 - j) 0 := by
  cases dir with
  | enc => rfl
  | dec =>
    have hlast : RK.length - 1 - j < RK.length := by omega
    rw [if_neg (by decide), keysInOrder, List.getD_eq_getElem _ _ (by rwa [List.length_reverse]),
      List.getD_eq_getElem _ _ hlast, List.getElem_reverse]

/-- A round on the exchanged halves takes back the round before it, whatever the round function is (R252). -/
theorem desRound_swap_desRound (LR : BitVec 32 × BitVec 32) (k : BitVec 48) :
    desRound (desRound LR k).swap k = LR.swap := by
  simp [desRound, Prod.swap]

/-- The rounds in the opposite order take back all of them (R252). -/
theorem foldl_desRound_reverse (keys : List (BitVec 48)) (LR : BitVec 32 × BitVec 32) :
    keys.reverse.foldl desRound (keys.foldl desRound LR).swap = LR.swap := by
  induction keys generalizing LR with
  | nil => rfl
  | cons k keys ih =>
    rw [List.reverse_cons, List.foldl_append, List.foldl_cons (l := keys), ih (desRound LR k),
      List.foldl_cons, List.foldl_nil, desRound_swap_desRound]

/-- Another DESBlock starts from the exchanged halves that the first one ended with (R252). -/
theorem initialHalves_desBlock (b : BitVec 64) (RK : List (BitVec 48)) (dir : DesDir) :
    initialHalves (desBlock b RK dir) = ((keysInOrder dir RK).foldl desRound (initialHalves b)).swap := by
  rw [desBlock_of_halves rfl, initialHalves, permute_IP_FP, BitVec.extractLsb'_append_eq_left,
    BitVec.extractLsb'_append_eq_right]
  rfl

/-- Decryption of an encrypted block with the same round keys (R252). -/
theorem desBlock_dec_enc (b : BitVec 64) (RK : List (BitVec 48)) : desBlock (desBlock b RK .enc) RK .dec = b := by
  have hback : (keysInOrder .dec RK).foldl desRound (initialHalves (desBlock b RK .enc)) = (initialHalves b).swap := by
    rw [initialHalves_desBlock]
    exact foldl_desRound_reverse RK (initialHalves b)
  rw [desBlock_of_halves hback, Prod.snd_swap, Prod.fst_swap, initialHalves_append, permute_FP_IP]

/-- Settles O45: the halves are those after `j` rounds, and `desBlock_dec_enc` is the second part. -/
theorem desBlockRoundTrip : Obligations.DesBlockRoundTrip := by
  refine ⟨fun b RK dir => ⟨fun j => (halvesAfter (keysInOrder dir RK) b j).1,
    fun j => (halvesAfter (keysInOrder dir RK) b j).2, initialHalves_append b, fun j hj => ?_, ?_⟩, desBlock_dec_enc⟩
  · have hround := halvesAfter_succ b (hj.trans_eq (keysInOrder_length dir RK).symm)
    rw [keysInOrder_getD dir hj] at hround
    exact ⟨congrArg Prod.fst hround, congrArg Prod.snd hround⟩
  · rw [← keysInOrder_length dir RK]
    exact desBlock_of_halves (halvesAfter_length _ b).symm

end Sys2Proof.Machine
end

section
/-! PROOF. Blocks as bytes (R55 of 20_memory.md, R251 and R260 of 44_des.md): a value and its bytes, most significant
first, and a text as the blocks it is cut into. -/
namespace Sys2Proof.Machine

/-! ### A value and its bytes -/

theorem bytesValue_lt (s : List Byte) : bytesValue s < 256 ^ s.length := by
  induction s with
  | nil => exact Nat.one_pos
  | cons b bs ih =>
    rw [bytesValue, List.length_cons, Nat.pow_succ']
    exact mul_add_lt_mul b.isLt ih

/-- Byte strings of one length with one value are the same. -/
theorem bytesValue_injective {s t : List Byte} (hlen : s.length = t.length) (h : bytesValue s = bytesValue t) :
    s = t := by
  induction s generalizing t with
  | nil => exact (List.eq_nil_of_length_eq_zero hlen.symm).symm
  | cons b bs ih =>
    cases t with
    | nil => cases hlen
    | cons c cs =>
      have htail : bs.length = cs.length := Nat.succ.inj hlen
      rw [bytesValue, bytesValue, ← htail] at h
      have hbs := bytesValue_lt bs
      have hcs := bytesValue_lt cs
      rw [← htail] at hcs
      have hhead : b.toNat = c.toNat := by
        rw [← mul_add_div_of_lt b.toNat hbs, h, mul_add_div_of_lt _ hcs]
      rw [hhead] at h
      rw [BitVec.eq_of_toNat_eq hhead, ih htail (Nat.add_left_cancel h)]

/-- The fold of `blockOfBytes` is the value of the bytes (R55). -/
theorem foldl_bytes (s : List Byte) (x : Nat) :
    s.foldl (fun acc b => acc * 256 + b.toNat) x = x * 256 ^ s.length + bytesValue s := by
  induction s generalizing x with
  | nil => simp [bytesValue]
  | cons b bs ih => rw [List.foldl_cons, ih, bytesValue, List.length_cons]; ring

theorem blockOfBytes_eq (s : List Byte) : blockOfBytes s = BitVec.ofNat 64 (bytesValue s) := by
  rw [blockOfBytes, foldl_bytes, Nat.zero_mul, Nat.zero_add]

theorem blockAt_eq (s : List Byte) (n : Nat) : blockAt s n = blockOfBytes ((s.drop (8 * n)).take 8) :=
  (blockOfBytes_eq _).symm

theorem bytesOfBlock_succ {w : Nat} (n : Nat) (v : BitVec w) :
    bytesOfBlock (n + 1) v = v.extractLsb' (8 * n) 8 :: bytesOfBlock n v := by
  rw [bytesOfBlock, List.range_succ_eq_map, List.map_cons, List.map_map]
  refine congrArg (_ :: ·) (List.map_congr_left fun i _ => ?_)
  have hidx : n + 1 - 1 - (i + 1) = n - 1 - i := by omega
  exact congrArg (fun j => v.extractLsb' (8 * j) 8) hidx

/-- The bytes of a value are its lowest ones (R55). -/
theorem bytesValue_bytesOfBlock {w : Nat} (n : Nat) (v : BitVec w) :
    bytesValue (bytesOfBlock n v) = v.toNat % 256 ^ n := by
  induction n with
  | zero => rw [Nat.pow_zero, Nat.mod_one]; rfl
  | succ n ih =>
    rw [bytesOfBlock_succ, bytesValue, ih, bytesOfBlock_length, BitVec.extractLsb'_toNat, Nat.shiftRight_eq_div_pow,
      Nat.pow_mul, Nat.mod_pow_succ (b := 256), mul_comm, add_comm]

/-- A value of `8 · n` bits is the value of its `n` bytes. -/
theorem bytesValue_bytesOfBlock_eq {w n : Nat} (hw : w = 8 * n) (v : BitVec w) :
    bytesValue (bytesOfBlock n v) = v.toNat := by
  subst hw
  rw [bytesValue_bytesOfBlock]
  exact Nat.mod_eq_of_lt (by simpa [Nat.pow_mul] using v.isLt)

theorem blockOfBytes_bytesOfBlock (v : BitVec 64) : blockOfBytes (bytesOfBlock 8 v) = v := by
  rw [blockOfBytes_eq, bytesValue_bytesOfBlock_eq rfl, BitVec.ofNat_toNat, BitVec.setWidth_eq]

theorem bytesOfBlock_blockOfBytes {s : List Byte} (h : s.length = 8) : bytesOfBlock 8 (blockOfBytes s) = s := by
  have hlt : bytesValue s < 2 ^ 64 := by
    have := bytesValue_lt s
    rwa [h] at this
  refine bytesValue_injective ((bytesOfBlock_length _ _).trans h.symm) ?_
  rw [bytesValue_bytesOfBlock_eq rfl, blockOfBytes_eq, BitVec.toNat_ofNat, Nat.mod_eq_of_lt hlt]

/-! ### A text and its blocks -/

section
variable {α : Type} {n : Nat}

/-- Lists of one length put together and cut again are the lists. -/
theorem blocks_flatMap {β : Type} {f : β → List α} (l : List β) (h : ∀ a, (f a).length = n) :
    blocks n l.length (l.flatMap f) = l.map f := by
  induction l with
  | nil => rfl
  | cons a l ih =>
    rw [List.length_cons, blocks, List.flatMap_cons, List.take_left' (h a), List.drop_left' (h a), ih, List.map_cons]

/-- The blocks of whole blocks put together are the list. -/
theorem blocks_flatten {count : Nat} {l : List α} (h : l.length = n * count) : (blocks n count l).flatten = l := by
  induction count generalizing l with
  | zero => exact (List.eq_nil_of_length_eq_zero h).symm
  | succ count ih =>
    have hrest : (l.drop n).length = n * count := by rw [List.length_drop, h, Nat.mul_succ, Nat.add_sub_cancel]
    rw [blocks, List.flatten_cons, ih hrest, List.take_append_drop]

theorem length_of_mem_blocks {count : Nat} {l b : List α} (h : l.length = n * count) (hb : b ∈ blocks n count l) :
    b.length = n := by
  induction count generalizing l with
  | zero => cases hb
  | succ count ih =>
    rw [Nat.mul_succ] at h
    obtain rfl | hb := List.mem_cons.1 hb
    · rw [List.length_take]; omega
    · exact ih (by rw [List.length_drop]; omega) hb

end

/-- DESBlock on one block as bytes (R251). -/
def desBlockBytes (RK : List (BitVec 48)) (dir : DesDir) (b : List Byte) : List Byte :=
  bytesOfBlock 8 (desBlock (blockOfBytes b) RK dir)

theorem desBlocks_eq (RK : List (BitVec 48)) (dir : DesDir) (T : List Byte) :
    desBlocks RK dir T = (blocks 8 (T.length / 8) T).flatMap (desBlockBytes RK dir) := rfl

theorem desBlockBytes_length (RK : List (BitVec 48)) (dir : DesDir) (b : List Byte) :
    (desBlockBytes RK dir b).length = 8 := bytesOfBlock_length _ _

/-- Each block on its own (R260). -/
theorem blocks_desBlocks (RK : List (BitVec 48)) (dir : DesDir) (T : List Byte) :
    blocks 8 (T.length / 8) (desBlocks RK dir T) = (blocks 8 (T.length / 8) T).map (desBlockBytes RK dir) := by
  have h := blocks_flatMap (blocks 8 (T.length / 8) T) (desBlockBytes_length RK dir)
  rwa [blocks_length] at h

/-- Block `n` of the result comes from block `n` of the text alone (R260). -/
theorem blockAt_desBlocks (RK : List (BitVec 48)) (dir : DesDir) {T : List Byte} {n : Nat}
    (hn : 8 * n < (desBlocks RK dir T).length) : blockAt (desBlocks RK dir T) n = desBlock (blockAt T n) RK dir := by
  have hlt : n < T.length / 8 := by rw [desBlocks_length] at hn; omega
  have hlt' : n < (blocks 8 (T.length / 8) T).length := by rwa [blocks_length]
  have hbytes : ((desBlocks RK dir T).drop (8 * n)).take 8 = desBlockBytes RK dir ((T.drop (8 * n)).take 8) := by
    rw [← blocks_getD _ hlt, ← blocks_getD _ hlt, blocks_desBlocks, List.getD_eq_getElem _ _ (by rwa [List.length_map]),
      List.getD_eq_getElem _ _ hlt', List.getElem_map]
  rw [blockAt_eq, blockAt_eq, hbytes, desBlockBytes, blockOfBytes_bytesOfBlock]

/-- Block by block, decryption gives a text of whole blocks back (R252, R259). -/
theorem desBlocks_dec_enc (RK : List (BitVec 48)) {T : List Byte} (h : T.length % 8 = 0) :
    desBlocks RK .dec (desBlocks RK .enc T) = T := by
  have hwhole : T.length = 8 * (T.length / 8) := by omega
  have hback : ∀ b ∈ blocks 8 (T.length / 8) T, desBlockBytes RK .dec (desBlockBytes RK .enc b) = b := fun b hb => by
    rw [desBlockBytes, desBlockBytes, blockOfBytes_bytesOfBlock, desBlock_dec_enc,
      bytesOfBlock_blockOfBytes (length_of_mem_blocks hwhole hb)]
  rw [desBlocks_eq, desBlocks_length, Nat.mul_div_cancel _ (by decide), blocks_desBlocks, List.flatMap_map,
    List.flatMap_congr hback, List.flatMap_id', blocks_flatten hwhole]

end Sys2Proof.Machine
end

section
/-! PROOF. The DES commands (R250 to R261 of 44_des.md): the checks of DesKey, what each command answers to a key that
they let through, and the round trips. -/
namespace Sys2Proof.Machine

/-! ### The checks -/

theorem all_isAscii_iff {s : List Byte} : s.all isAscii = true ↔ AllAscii s := by
  simp [AllAscii, isAscii]

theorem desKey_of_length_ne {K : List Byte} (h : K.length ≠ 8) (ascii : Bool) :
    desKey K ascii = .error .invalidKeyLength := if_pos h

theorem desKey_of_not_ascii {K : List Byte} (hlen : K.length = 8) (h : ¬AllAscii K) :
    desKey K true = .error .invalidInputEncoding := by
  have hcheck : (true && !K.all isAscii) = true := by simpa [← all_isAscii_iff] using h
  rw [desKey, if_neg (not_not.2 hlen), if_pos hcheck]

/-- The 64-bit key is the one block of the key string (R254). -/
theorem blockAt_zero_of_length {K : List Byte} (hlen : K.length = 8) : blockAt K 0 = blockOfBytes K := by
  rw [blockAt_eq, Nat.mul_zero, List.drop_zero, ← hlen, List.take_length]

/-- DesKey lets an ASCII key of 8 bytes through, and any other one of 8 bytes where the command is raw (R254). -/
theorem desKey_of_length {K : List Byte} (hlen : K.length = 8) {ascii : Bool} (h : ascii = true → AllAscii K) :
    desKey K ascii = .ok (blockAt K 0) := by
  have hcheck : (ascii && !K.all isAscii) = false := by
    cases ascii with
    | false => rfl
    | true => rw [all_isAscii_iff.2 (h rfl)]; rfl
  rw [desKey, if_neg (not_not.2 hlen), hcheck, blockAt_zero_of_length hlen]
  rfl

/-- Whether the command checks its key for ASCII (R254): the raw commands do not. -/
def checksAscii : Instr → Bool
  | .desEncRaw | .desDecRaw => false
  | _ => true

/-- The rules of the five commands begin with DesKey (R255 to R259). -/
theorem commandRule_of_desKey_error {i : Instr} (hi : i ∈ [Instr.desKs, .desEnc, .desDec, .desEncRaw, .desDecRaw])
    {K : List Byte} {e : ErrorKind} (h : desKey K (checksAscii i) = .error e) (P : Config.RotorParams) (I : List Byte) :
    commandRule P i K I = .error e := by
  simp only [List.mem_cons, List.not_mem_nil, or_false] at hi
  rcases hi with rfl | rfl | rfl | rfl | rfl
  all_goals exact congrArg (· >>= _) h

/-! ### The rules on a key that DesKey lets through -/

section
variable {K : List Byte} {k : BitVec 64}

theorem cmdDesKs_of_key (hk : desKey K true = .ok k) (I : List Byte) :
    cmdDesKs K I = .ok ((keySchedule k).flatMap (bytesOfBlock 6)) := result_bind_of_ok hk _

theorem cmdDesEnc_of_key (hk : desKey K true = .ok k) {I : List Byte} (h : AllAscii I) :
    cmdDesEnc K I = .ok (desBlocks (keySchedule k) .enc (desPad I)) :=
  (result_bind_of_ok hk _).trans (if_pos (all_isAscii_iff.2 h))

theorem cmdDesEnc_of_not_ascii (hk : desKey K true = .ok k) {I : List Byte} (h : ¬AllAscii I) :
    cmdDesEnc K I = .error .invalidInputEncoding :=
  (result_bind_of_ok hk _).trans (if_neg (mt all_isAscii_iff.1 h))

theorem cmdDesDec_of_key (hk : desKey K true = .ok k) {I : List Byte} (h : I.length % 8 = 0) :
    cmdDesDec K I = .ok (stripTrailing (desBlocks (keySchedule k) .dec I) 0x20#8) :=
  (result_bind_of_ok hk _).trans (if_pos h)

theorem cmdDesDec_of_length (hk : desKey K true = .ok k) {I : List Byte} (h : I.length % 8 ≠ 0) :
    cmdDesDec K I = .error .invalidInputEncoding :=
  (result_bind_of_ok hk _).trans (if_neg h)

/-- The two raw rules differ in the direction alone (R258, R259). -/
theorem commandRule_raw {i : Instr} {dir : DesDir}
    (hi : (i = .desEncRaw ∧ dir = .enc) ∨ (i = .desDecRaw ∧ dir = .dec)) (hk : desKey K false = .ok k)
    (P : Config.RotorParams) (I : List Byte) : commandRule P i K I =
      if I.length % 8 = 0 then .ok (desBlocks (keySchedule k) dir I) else .error .invalidInputEncoding := by
  obtain ⟨rfl, rfl⟩ | ⟨rfl, rfl⟩ := hi
  all_goals exact result_bind_of_ok hk _

end

/-- Settles O46: the checks are made in the order of the statement, and each failed check is the answer of the rule. -/
theorem desErrorsInOrder : Obligations.DesErrorsInOrder := by
  intro s hl
  refine ⟨fun hlen i hi => ?keyLength, fun hlen => ⟨fun hK i hi => ?keyBytes, fun hK hI => ?encText,
    fun hK hI => ?decText, fun hI i hi => ?rawText⟩⟩
  case keyLength => exact failsWith_of_rule_error hl (commandRule_of_desKey_error hi (desKey_of_length_ne hlen _) _ _)
  case keyBytes =>
    have hascii : checksAscii i = true := by
      simp only [List.mem_cons, List.not_mem_nil, or_false] at hi
      rcases hi with rfl | rfl | rfl <;> rfl
    refine failsWith_of_rule_error hl (commandRule_of_desKey_error ?_ (hascii ▸ desKey_of_not_ascii hlen hK) _ _)
    exact List.mem_append_left [Instr.desEncRaw, .desDecRaw] hi
  case encText => exact failsWith_of_rule_error hl (cmdDesEnc_of_not_ascii (desKey_of_length hlen fun _ => hK) hI)
  case decText => exact failsWith_of_rule_error hl (cmdDesDec_of_length (desKey_of_length hlen fun _ => hK) hI)
  case rawText =>
    have hdir : ∃ dir, (i = .desEncRaw ∧ dir = DesDir.enc) ∨ (i = .desDecRaw ∧ dir = DesDir.dec) := by
      obtain rfl | rfl := List.mem_pair.1 hi
      · exact ⟨.enc, .inl ⟨rfl, rfl⟩⟩
      · exact ⟨.dec, .inr ⟨rfl, rfl⟩⟩
    obtain ⟨dir, hdir⟩ := hdir
    exact failsWith_of_rule_error hl
      ((commandRule_raw hdir (desKey_of_length hlen nofun) _ _).trans (if_neg hI))

/-! ### What the commands complete with -/

/-- Settles O47: the output is cut into the bytes of each round key. -/
theorem desKsListsTheRoundKeys : Obligations.DesKsListsTheRoundKeys := by
  intro s hp hl hlen hK
  have hrule := cmdDesKs_of_key (desKey_of_length hlen fun _ => hK) (inputString s)
  refine ⟨_, completesWith_of_rule_ok hp hl hrule, desKs_output_length hrule, fun j hj => ?_⟩
  have hcut := blocks_flatMap (keySchedule (blockAt (keyString s) 0)) (bytesOfBlock_length (w := 48) 6)
  rw [keySchedule_length] at hcut
  have hj' : j < (keySchedule (blockAt (keyString s) 0)).length := by rwa [keySchedule_length]
  rw [← blocks_getD _ hj, hcut, List.getD_eq_getElem _ _ (by rwa [List.length_map]), List.getElem_map,
    List.getD_eq_getElem _ _ hj', bytesValue_bytesOfBlock_eq rfl]

/-- A block within a text does not change with what follows the text. -/
theorem blockAt_append {s : List Byte} {n : Nat} (h : 8 * n + 8 ≤ s.length) (t : List Byte) :
    blockAt (s ++ t) n = blockAt s n := by
  rw [blockAt_eq, blockAt_eq, List.drop_append_of_le_length (by omega),
    List.take_append_of_le_length (by rw [List.length_drop]; omega)]

/-- The padding is at most 7 spaces, so the padded text begins the text followed by 7 of them (R253). -/
theorem desPad_append_replicate (T : List Byte) :
    ∃ n, desPad T ++ List.replicate n 0x20#8 = T ++ List.replicate 7 0x20#8 := by
  have hlt : (8 - T.length % 8) % 8 < 8 := Nat.mod_lt _ (by decide)
  refine ⟨7 - (8 - T.length % 8) % 8, ?_⟩
  rw [desPad, padTo, List.append_assoc, List.replicate_append_replicate]
  congr 2
  omega

theorem desPad_length_mod (T : List Byte) : (desPad T).length % 8 = 0 := padTo_length T 8 _ (by decide)

/-- Settles O48: the blocks of the padded text, and those of the decrypted text before its spaces are stripped. -/
theorem desTextBlocks : Obligations.DesTextBlocks := by
  intro s hp hl hlen hK
  have hkey := desKey_of_length hlen (ascii := true) fun _ => hK
  refine ⟨fun hI => ?enc, fun hI => ?dec⟩
  case enc =>
    have hrule := cmdDesEnc_of_key hkey hI
    refine ⟨_, completesWith_of_rule_ok hp hl hrule, desEnc_output_length hrule, fun n hn => ?_⟩
    obtain ⟨m, hm⟩ := desPad_append_replicate (inputString s)
    have hwhole := desPad_length_mod (inputString s)
    rw [blockAt_desBlocks _ _ hn, ← hm, blockAt_append]
    rw [desBlocks_length] at hn
    omega
  case dec =>
    refine ⟨_, _, completesWith_of_rule_ok hp hl (cmdDesDec_of_key hkey hI), rfl, ?_, fun n => blockAt_desBlocks _ _⟩
    rw [desBlocks_length]
    omega

/-- Settles O49: the blocks of the text as it is. -/
theorem desRawBlocks : Obligations.DesRawBlocks := by
  intro i dir s hi hp hl hlen hI
  have hrule := (commandRule_raw hi (desKey_of_length hlen nofun) s.params.rotor (inputString s)).trans (if_pos hI)
  refine ⟨_, completesWith_of_rule_ok hp hl hrule, ?_, fun n => blockAt_desBlocks _ _⟩
  rw [desBlocks_length]
  omega

/-! ### The round trips -/

theorem desBlocks_length_mod (RK : List (BitVec 48)) (dir : DesDir) (T : List Byte) :
    (desBlocks RK dir T).length % 8 = 0 := by
  rw [desBlocks_length, Nat.mul_mod_left]

/-- Settles O50: the blocks come back, and stripping takes away the padding with the spaces of the text. -/
theorem desCommandsRoundTrip : Obligations.DesCommandsRoundTrip := by
  refine fun K I out => ⟨fun h => ?text, fun h => ?raw⟩
  case text =>
    obtain ⟨k, hk, h⟩ := result_bind_eq_ok.1 h
    rw [eq_of_check_eq_ok h, cmdDesDec_of_key hk (desBlocks_length_mod _ _ _),
      desBlocks_dec_enc _ (desPad_length_mod I), desPad, padTo, stripTrailing_append_replicate_eq]
  case raw =>
    obtain ⟨k, hk, h⟩ := result_bind_eq_ok.1 h
    have hI := of_check_eq_ok h
    have hrule := commandRule_raw (.inr ⟨rfl, rfl⟩) hk rotorParams (desBlocks (keySchedule k) .enc I)
    rw [if_pos (desBlocks_length_mod _ _ _), desBlocks_dec_enc _ hI] at hrule
    rw [eq_of_check_eq_ok h]
    exact hrule

end Sys2Proof.Machine
end

section
/-! PROOF. The exceptions (60_exceptions.md): the engine's step runs the command (R306), and no letter command fails because
of its text (R302). -/
namespace Sys2Proof.Machine

/-- Settles O3: at the head of the schedule PENDING is still the word that decodes to the command. -/
theorem stepRunsTheDecodedCommand : Obligations.StepRunsTheDecodedCommand := fun s _ hb hdecode =>
  ⟨fun hturns => (step_of_unscheduled_busy hturns hb).trans (coreStep_of_command hdecode),
    fun rest hturns =>
      (step_of_engine_turn_busy hturns hb).trans (coreStep_of_command (s := { s with turns := rest }) hdecode)⟩

/-! ### The code of a letter command -/

/-- The status code of an answer (R301). -/
def resultCode {α : Type} : Except ErrorKind α → BitVec 4
  | .ok _ => okCode
  | .error e => errorCode e

theorem finishCommand_err (r : Result) (s : State) : (finishCommand r s).err = resultCode r := by
  cases r <;> rfl

/-- Two computations that begin alike end with the same code when their remainders do. -/
theorem resultCode_bind_congr {α β γ : Type} (x : Except ErrorKind α) {f : α → Except ErrorKind β}
    {g : α → Except ErrorKind γ} (h : ∀ a, resultCode (f a) = resultCode (g a)) :
    resultCode (x >>= f) = resultCode (x >>= g) := by
  cases x with
  | ok a => exact h a
  | error e => rfl

/-- The checks of a letter command read the key alone (R302): neither the text nor the rotor machine's parameters can
change its code. -/
theorem commandRule_code_of_letter {i : Instr} (hi : isLetterCommand i = true) (P P' : Config.RotorParams)
    (K I I' : List Byte) : resultCode (commandRule P i K I) = resultCode (commandRule P' i K I') := by
  cases i with
  | vigEnc | vigDec | pfEnc | pfDec | rtEnc | rtDec => exact resultCode_bind_congr (keyword K) fun _ => rfl
  | rfEnc | rfDec => exact resultCode_bind_congr (railKey K) fun _ => rfl
  | rotor => exact resultCode_bind_congr (rotorConfig K) fun _ => rfl
  | hillEnc | hillDec =>
    exact resultCode_bind_congr (hillKey K) fun k => resultCode_bind_congr (hillInverse k) fun _ => rfl
  | desKs | desEnc | desDec | desEncRaw | desDecRaw => cases hi

/-- Settles O9: ERR takes the code of the rule's answer, which the key determines. -/
theorem letterCommandErrorsIgnoreTheText : Obligations.LetterCommandErrorsIgnoreTheText := by
  intro i s1 s2 hi h1 h2 hkey
  refine ⟨_, _, (exec_eq_runCommand i s1).trans (runCommand_of_legal _ h1),
    (exec_eq_runCommand i s2).trans (runCommand_of_legal _ h2), ?_⟩
  rw [finishCommand_err, finishCommand_err, hkey]
  exact commandRule_code_of_letter hi _ _ _ _ _

end Sys2Proof.Machine
end

section
/-! PROOF. Reset and hazards (70_reset_and_hazards.md): what a reset leaves (R340, R341), which accesses fault while
BUSY = 1 (R350 to R353), and that BUSY clears in the end (R356). -/
namespace Sys2Proof.Machine

/-! ### Reset -/

theorem statusWord_resetCore (s : State) : statusWord (resetCore s) = 0 := by
  rw [statusWord, resetCore_busy, resetCore_err]
  rfl

/-- After a reset every buffer byte is the one of the next draw (R67, R340). -/
theorem readByte_resetCore (s : State) (a : Nat) : (resetCore s).readByte a = Config.drawnByte (s.draws + 1) a := rfl

/-- Settles O58: such a step is `resetCore` of the state with its turn taken off. -/
theorem resetDiscardsThePendingCommand : Obligations.ResetDiscardsThePendingCommand := fun _ _ hturns =>
  ⟨_, step_of_reset_turn hturns, resetCore_params _, statusWord_resetCore _, resetCore_klen _, resetCore_ilen _,
    resetCore_olen _, resetCore_busy _, readByte_resetCore _, resetCore_host _, resetCore_turns _⟩

/-! ### Accesses while BUSY = 1 -/

/-- The hazard that a read (`true`) or a write (`false`) of a target is while BUSY = 1 (R350 to R352). It is `hazardOf`
with the address resolved: `hazardOf_eq_targetHazard`. -/
def targetHazard : Bool → Target → Option Fault
  | true, .reg .olen | true, .byte .obuf => some .resultReadWhileBusy
  | false, .reg .cmd => some .commandWriteWhileBusy
  | false, .reg .klen | false, .reg .ilen | false, .byte .kbuf | false, .byte .ibuf => some .operandWriteWhileBusy
  | _, _ => none

/-- The registers lie below the buffers, so only their own offsets decide (R51). -/
theorem hazardOf_reg (P : Config.Params) {a : Access} {r : Reg} (h : a.offset = regOffset r) :
    hazardOf P a = targetHazard a.isLoad (.reg r) := by
  cases a with
  | load bits off =>
    obtain rfl : off = regOffset r := h
    cases r <;> simp [hazardOf, targetHazard, Access.isLoad, regOffset]
  | store bits off v =>
    obtain rfl : off = regOffset r := h
    cases r <;> simp [hazardOf, targetHazard, Access.isLoad, regOffset]

/-- No buffer reaches into the next, so the buffer of a byte decides (R7, R51). -/
theorem hazardOf_byte {P : Config.Params} (hp : SizesOk P) {a : Access} {b : Buf} (hlo : bufBase b ≤ a.offset)
    (hhi : a.offset < bufBase b + bufSize P b) : hazardOf P a = targetHazard a.isLoad (.byte b) := by
  have := hp.kbufEnds
  have := hp.ibufEnds
  cases a with
  | load bits off =>
    simp only [Access.offset] at hlo hhi
    cases b with
    | kbuf | ibuf =>
      simp only [bufBase, bufSize, Config.kbufBase, Config.ibufBase] at hlo hhi
      exact if_neg (by omega)
    | obuf => exact if_pos (.inr ⟨hlo, hhi⟩)
  | store bits off v =>
    simp only [Access.offset] at hlo hhi
    have hbase : 0 < bufBase b := by cases b <;> decide
    refine (if_neg (by omega)).trans ?_
    cases b with
    | kbuf => exact if_pos (.inr (.inr (.inl ⟨hlo, hhi⟩)))
    | ibuf => exact if_pos (.inr (.inr (.inr ⟨hlo, hhi⟩)))
    | obuf =>
      simp only [bufBase, Config.obufBase] at hlo
      exact if_neg (by omega)

theorem hazardOf_eq_targetHazard {P : Config.Params} (hp : SizesOk P) {a : Access} {t : Target}
    (h : targetOf P a.bits a.offset = .ok t) : hazardOf P a = targetHazard a.isLoad t := by
  obtain ⟨r, rfl, -, hoff⟩ | ⟨b, rfl, -, hlo, hhi⟩ := targetOf_cases h
  · exact hazardOf_reg P hoff
  · exact hazardOf_byte hp hlo hhi

section
variable {t : Target} {s : State}

theorem hostRead_of_hazard {f : Fault} (off : Nat) (hb : s.busy = true) (h : targetHazard true t = some f) :
    hostRead t off s = .error f := by
  rcases t with r | b
  · cases r <;> cases h
    simp [hostRead, hb]
  · cases b <;> cases h
    simp [hostRead, hb]

theorem hostWrite_of_hazard {f : Fault} (off : Nat) (v : Word) (hb : s.busy = true)
    (h : targetHazard false t = some f) : hostWrite t off v s = .error f := by
  rcases t with r | b
  · cases r <;> cases h <;> simp [hostWrite, hb]
  · cases b <;> cases h <;> simp [hostWrite, hb]

/-- A read that is no hazard completes, and only a read of STATUS shows BUSY (R353). -/
theorem hostRead_of_no_hazard (off : Nat) (s : State) (h : targetHazard true t = none) :
    ∃ v, hostRead t off s = .ok v ∧ (t ≠ .reg .status → ∀ b, hostRead t off { s with busy := b } = .ok v) := by
  rcases t with r | b
  · cases r with
    | cmd | klen | ilen => exact ⟨_, rfl, fun _ _ => rfl⟩
    | status => exact ⟨_, rfl, fun hne => absurd rfl hne⟩
    | olen => cases h
  · cases b with
    | kbuf | ibuf => exact ⟨_, rfl, fun _ _ => rfl⟩
    | obuf => cases h

/-- A write that is no hazard is one that the core ignores in every state (R25, R28, R58). -/
theorem hostWrite_of_no_hazard (off : Nat) (v : Word) (s : State) (h : targetHazard false t = none) :
    hostWrite t off v s = .ok s := by
  rcases t with r | b
  · cases r with
    | status | olen => rfl
    | cmd | klen | ilen => cases h
  · cases b with
    | obuf => rfl
    | kbuf | ibuf => cases h

variable {a : Access}

theorem hostAccess_of_hazard {f : Fault} (htarget : targetOf s.params a.bits a.offset = .ok t) (hb : s.busy = true)
    (h : targetHazard a.isLoad t = some f) : hostAccess a s = .error f := by
  cases a with
  | load bits off =>
    rw [hostAccess_load_of_target (bits := bits) (off := off) htarget, hostRead_of_hazard off hb h]
    rfl
  | store bits off v =>
    rw [hostAccess_store_of_target (bits := bits) (off := off) htarget, hostWrite_of_hazard off v hb h]
    rfl

/-- An access that is no hazard completes and changes nothing, and BUSY matters to a read of STATUS alone (R353). -/
theorem hostAccess_of_no_hazard (htarget : targetOf s.params a.bits a.offset = .ok t)
    (h : targetHazard a.isLoad t = none) :
    ∃ v, hostAccess a s = .ok (v, s) ∧
      (a ≠ .load 32 0x004 → ∀ b, hostAccess a { s with busy := b } = .ok (v, { s with busy := b })) := by
  cases a with
  | load bits off =>
    change targetOf s.params bits off = .ok t at htarget
    obtain ⟨v, hread, hsame⟩ := hostRead_of_no_hazard off s h
    refine ⟨some v, by rw [hostAccess_load_of_target htarget, hread]; rfl, fun hne b => ?_⟩
    have hstatus : t ≠ .reg .status := by
      rintro rfl
      obtain ⟨r, hr, rfl, rfl⟩ | ⟨_, hbyte, -⟩ := targetOf_cases htarget
      · cases hr
        exact hne rfl
      · cases hbyte
    rw [hostAccess_load_of_target (s := { s with busy := b }) htarget, hsame hstatus]
    rfl
  | store bits off v =>
    change targetOf s.params bits off = .ok t at htarget
    have hwrite (u : State) (hu : u.params = s.params) : hostAccess (.store bits off v) u = .ok (none, u) := by
      rw [hostAccess_store_of_target (hu ▸ htarget), hostWrite_of_no_hazard off v u h]
      rfl
    exact ⟨none, hwrite s rfl, fun _ b => hwrite _ rfl⟩

/-- While BUSY = 1 an access faults or leaves the state as it is, whatever the sizes of the buffers (R53, R350 to R353). -/
theorem hostAccess_while_busy (a : Access) (hb : s.busy = true) :
    (∃ f, hostAccess a s = .error f) ∨ ∃ v, hostAccess a s = .ok (v, s) := by
  cases htarget : targetOf s.params a.bits a.offset with
  | error f => exact .inl ⟨f, hostAccess_of_no_target htarget⟩
  | ok t =>
    cases h : targetHazard a.isLoad t with
    | some f => exact .inl ⟨f, hostAccess_of_hazard htarget hb h⟩
    | none =>
      obtain ⟨v, hv, -⟩ := hostAccess_of_no_hazard htarget h
      exact .inr ⟨v, hv⟩

end

/-- Settles O52: what the access reaches decides whether it is a hazard, and so whether it faults. -/
theorem hazardsFaultWhileBusy : Obligations.HazardsFaultWhileBusy := by
  intro a s hp hwf hb
  obtain ⟨t, htarget⟩ := (targetOf_eq_ok_iff s.params a).2 hwf
  rw [hazardOf_eq_targetHazard hp htarget]
  constructor
  · intro f hf
    refine ⟨hostAccess_of_hazard htarget hb hf, fun ops rest hhost hturns => ?_⟩
    rw [step_of_host_turn hturns]
    exact hostTurn_of_fault hhost (hostAccess_of_hazard (s := { s with turns := rest }) htarget hb hf)
  · intro hnone
    obtain ⟨v, hv, hidle⟩ := hostAccess_of_no_hazard htarget hnone
    refine ⟨v, hv, fun hne => hidle hne false, ?_⟩
    rintro rfl
    cases hv.symm.trans (hostAccess_load_reg .status s)
    exact ⟨_, rfl, by rw [statusWord_toNat, if_pos hb]⟩

/-! ### BUSY clears in the end -/

/-- Within `n` steps BUSY is 0 or the host has faulted. -/
def ClearsWithin (n : Nat) (s : State) : Prop :=
  ∃ k, k ≤ n ∧ ((∃ t : State, Host.Core.run core k s = .next t ∧ t.busy = false) ∨
    ∃ f : Fault, Host.Core.run core k s = .fault f)

theorem clearsWithin_of_idle (n : Nat) {s : State} (hb : s.busy = false) : ClearsWithin n s :=
  ⟨0, Nat.zero_le n, .inl ⟨s, rfl, hb⟩⟩

theorem run_one_of_fault (M : Host.Core) {s : M.State} {f : M.Fault} (h : M.step s = .fault f) :
    M.run 1 s = .fault f := by
  simp only [Host.Core.run, h]

theorem clearsWithin_of_fault (n : Nat) {s : State} {f : Fault} (h : step s = .fault f) : ClearsWithin (n + 1) s :=
  ⟨1, Nat.le_add_left 1 n, .inr ⟨f, run_one_of_fault core h⟩⟩

theorem clearsWithin_of_step {n : Nat} {s t : State} (h : step s = .next t) (ht : ClearsWithin n t) :
    ClearsWithin (n + 1) s := by
  obtain ⟨k, hk, hrun⟩ := ht
  exact ⟨k + 1, Nat.succ_le_succ hk, by rwa [run_succ_of_step k h]⟩

/-- The engine's step always answers a next state, with BUSY clear (R306). -/
theorem coreStep_clears_busy (s : State) : ∃ u, coreStep s = .next u ∧ u.busy = false := by
  cases hdecode : decode s.pending with
  | ok i =>
    obtain ⟨u, hexec, hub, -⟩ := exec_ends i s
    exact ⟨u, (coreStep_of_command hdecode).trans hexec, hub⟩
  | error e => exact ⟨_, coreStep_of_illegal hdecode, rfl⟩

theorem clearsWithin_of_coreStep (n : Nat) {s u : State} (h : step s = coreStep u) : ClearsWithin (n + 1) s := by
  obtain ⟨t, ht, hb⟩ := coreStep_clears_busy u
  exact clearsWithin_of_step (h.trans ht) (clearsWithin_of_idle n hb)

/-- While BUSY = 1 a turn of the host faults, or keeps BUSY and the schedule. -/
theorem hostTurn_while_busy {s : State} (hb : s.busy = true) :
    (∃ f, hostTurn s = .fault f) ∨ ∃ t, hostTurn s = .next t ∧ t.busy = true ∧ t.turns = s.turns := by
  cases hhost : s.host with
  | nil => exact .inr ⟨s, hostTurn_of_end hhost, hb, rfl⟩
  | cons op rest =>
    obtain ⟨f, hf⟩ | ⟨v, hv⟩ := hostAccess_while_busy (firstAccess op) hb
    · exact .inl ⟨f, hostTurn_of_fault hhost hf⟩
    · cases v with
      | some v => exact .inr ⟨_, hostTurn_of_read hhost hv, hb, rfl⟩
      | none => exact .inr ⟨_, hostTurn_of_write hhost hv, hb, rfl⟩

/-- Settles O60, by induction on the schedule: a turn of the engine or a reset clears BUSY, a turn of the host leaves a
shorter schedule, and the engine moves where nothing is scheduled. -/
theorem busyClearsInTheEnd : Obligations.BusyClearsInTheEnd := by
  intro s hb
  change ClearsWithin (s.turns.length + 1) s
  induction hturns : s.turns generalizing s with
  | nil => exact clearsWithin_of_coreStep _ (step_of_unscheduled_busy hturns hb)
  | cons turn rest ih =>
    cases turn with
    | engine => exact clearsWithin_of_coreStep _ (step_of_engine_turn_busy hturns hb)
    | reset => exact clearsWithin_of_step (step_of_reset_turn hturns) (clearsWithin_of_idle _ (resetCore_busy _))
    | host =>
      have hstep := step_of_host_turn hturns
      obtain ⟨f, hf⟩ | ⟨t, ht, htb, htt⟩ := hostTurn_while_busy (s := { s with turns := rest }) hb
      · exact clearsWithin_of_fault _ (hstep.trans hf)
      · exact clearsWithin_of_step (hstep.trans ht) (ih t htb htt)

end Sys2Proof.Machine
end
